-- ==== Sys2Proof/Word.lean ====
section
/-! DEFINITION. The word types of SWSPE and the small vocabulary its ports and fields are made of
(00_scope.md section 5.1; 20_memory.md R44, R45). -/

namespace Sys2Proof

/-- A host register or an `F32` pattern: 32 bits (10_state.md R23). -/
abbrev Word := BitVec 32

/-- A byte of the raw frame (10_state.md R11). -/
abbrev Byte := BitVec 8

/-- `Level` of 00_scope.md section 5.1: the line reads Low or High. -/
inductive Level where
  | low
  | high
deriving DecidableEq, Repr, Inhabited

/-- `Variant` of 00_scope.md section 5.1: the two sensor encodings. Held in a bit, A is 0 and B is 1
(also the meaning of the VSEL bit of a command word, 30_encoding.md R60). -/
inductive Variant where
  | a
  | b
deriving DecidableEq, Repr, Inhabited

/-- The bit that holds a variant: A is 0, B is 1. -/
def Variant.bit : Variant → BitVec 1
  | .a => 0
  | .b => 1

/-- The variant a bit holds. -/
def Variant.ofBool : Bool → Variant
  | false => .a
  | true => .b

/-- The opaque pin error value (10_state.md R29). It is `PEW` bits wide, `PEW` from 1 to 32 being an open
parameter; it is carried in 32 bits and cut to `PEW` bits where it enters at the pin port
(Machine/Ports.lean), so that no field's type depends on a parameter. -/
abbrev PinErr := BitVec 32

/-- The answer to one `PinSet` (20_memory.md R44). -/
inductive SetAnswer where
  | ok
  | err (e : PinErr)
deriving DecidableEq, Repr, Inhabited

/-- The answer to one `PinRead` (20_memory.md R45). -/
inductive ReadAnswer where
  | ok (l : Level)
  | err (e : PinErr)
deriving DecidableEq, Repr, Inhabited

end Sys2Proof
end

