-- ==== Sys2Proof/Config.lean ====
section
/-! DEFINITION. The configuration record of 00_scope.md R3 with its values, and the free values of the environment. -/

namespace Sys2Proof
namespace Config

/-- The one configuration record of R3, field by field under the names of its table. It is carried in State, where no
step writes it; every definition of the machine takes its parameters from there (log entry 1). -/
structure Platform where
  /-- `POLL_PERIOD_US`: microseconds between two polls of one wait. -/
  pollPeriodUs : Nat
  /-- `T_WAKE_US`: length of the wake pulse. -/
  tWakeUs : Nat
  /-- `T_REQ_US`: length of the request pulse. -/
  tReqUs : Nat
  /-- `TO_ACK_HIGH`: bound, in ticks, of the wait for High in the acknowledgment. -/
  toAckHigh : Nat
  /-- `TO_ACK_LOW`: bound, in ticks, of the wait for Low in the acknowledgment. -/
  toAckLow : Nat
  /-- `TO_BIT_HIGH`: bound, in ticks, of the wait for High at the start of a bit. -/
  toBitHigh : Nat
  /-- `TO_BIT_LOW`: bound, in ticks, of the wait for Low that measures a bit. -/
  toBitLow : Nat
  /-- `BIT_THRESHOLD`: a bit is 1 when its count is strictly greater. -/
  bitThreshold : Nat
  /-- `N_BITS`: bits sampled per read. -/
  nBits : Nat
  /-- `FRAME_BYTES`: size of the raw frame, the last byte being the checksum. -/
  frameBytes : Nat
  /-- `HUM_MIN`, as an `F32` pattern. -/
  humMin : Word
  /-- `HUM_MAX`, as an `F32` pattern. -/
  humMax : Word
  /-- `B_SCALE`: the divisor of variant B's raw values. -/
  bScale : Nat
  /-- `B_SIGN_MASK`: the sign bit of variant B's temperature in byte 2. -/
  bSignMask : Byte
  /-- `B_MAG_MASK`: the magnitude bits of variant B's temperature in byte 2. -/
  bMagMask : Byte
  /-- `PEW`: width of the pin error value. OPEN in R3. -/
  pew : Nat
  /-- `REG_BASE`: byte address of register 0. OPEN in R3. -/
  regBase : Nat
  /-- The register stride, in bytes. OPEN in R3; 4 in the spec's notation. -/
  regStride : Nat
  /-- `SAME_INSTANT_POLLS_AGREE`: two polls with no delay between them see the same level. OPEN in R3. -/
  sameInstantPollsAgree : Bool
deriving DecidableEq, Repr

/-- The values of R3: the column "value" where it holds one. For the open ones: `PEW` as in the spec's vectors, the
stride of its notation, its default of `SAME_INSTANT_POLLS_AGREE`, and base 0 (DESIGN CHOICE, log entry 1). -/
def swspe : Platform where
  pollPeriodUs := 1
  tWakeUs := 3000
  tReqUs := 25
  toAckHigh := 85
  toAckLow := 85
  toBitHigh := 55
  toBitLow := 70
  bitThreshold := 30
  nBits := 40
  frameBytes := 5
  humMin := 0x00000000
  humMax := 0x42C80000
  bScale := 10
  bSignMask := 0x80
  bMagMask := 0x7F
  pew := 8
  regBase := 0
  regStride := 4
  sameInstantPollsAgree := false

/-- FREE VALUE (20_memory.md R52): the environment's answer to its `n`-th unscripted `PinSet` or `PinRead`,
when that is a `PinSet`. Nothing constrains it. Log entry 2. -/
opaque freeSetAnswer : Nat → SetAnswer

/-- FREE VALUE (20_memory.md R52): the environment's answer to its `n`-th unscripted `PinSet` or `PinRead`,
when that is a `PinRead`. Nothing constrains it. Log entry 2. -/
opaque freeReadAnswer : Nat → ReadAnswer

end Config
end Sys2Proof
end

