-- ==== Sys2Proof/Syntax.lean ====
section
/-! DEFINITION. What can be written down about a run of SWSPE: its instructions (three host commands and fourteen
micro-operations, 30_encoding.md R61, R64), its phases, its failures, the events of its ports, the host's steps
(30_encoding.md R77) and the environment's scripts (R78). -/

namespace Sys2Proof

/-- The instructions: one constructor per row of spec/opcode_table.json. An operand is a bit of the encoding the
row leaves open: the VSEL bit of NOP (R61: "0x00000000, 0x00000002") and the `var` bit of a micro-operation's
selector, which matters only to DEC (R64). -/
inductive Instr where
  /-- `READ.A`, command word 0x00000001. -/
  | readA
  /-- `READ.B`, command word 0x00000003. -/
  | readB
  /-- `NOP`, command words 0x00000000 and 0x00000002. -/
  | nop (vsel : Variant)
  | gsus (var : Variant)
  | wake (var : Variant)
  | req (var : Variant)
  | ackh (var : Variant)
  | ackl (var : Variant)
  | bith (var : Variant)
  | bitl (var : Variant)
  | store (var : Variant)
  | gres (var : Variant)
  | csum (var : Variant)
  /-- `DEC.A`, selector 0x16. -/
  | decA
  /-- `DEC.B`, selector 0x17. -/
  | decB
  | rchk (var : Variant)
  | pub (var : Variant)
deriving DecidableEq, Repr

/-- The fourteen phases of `ph` (10_state.md R14); codes 14 and 15 do not exist (R36(h)). -/
inductive Phase where
  | idle
  | gsus
  | wake
  | req
  | ackh
  | ackl
  | bith
  | bitl
  | store
  | gres
  | csum
  | dec
  | rchk
  | pub
deriving DecidableEq, Repr

/-- The code of a failure, in `err.tag` and in the STATUS field `ERR`: 0 none, 1 to 5 the failures
(60_exceptions.md R155); codes 6 and 7 never occur. -/
inductive ErrTag where
  | none
  | notPresent
  | checksumMismatch
  | invalidData
  | timeout
  | pinError
deriving DecidableEq, Repr

/-- A typed failure with what it carries (60_exceptions.md R155 to R160). -/
inductive Failure where
  | notPresent
  /-- First value transmitted, second computed (90_conflicts.md C3). -/
  | checksumMismatch (t c : Byte)
  | invalidData
  | timeout
  | pinError (e : PinErr)
deriving DecidableEq, Repr

/-- An event: one port transaction with its answer (20_memory.md R50). -/
inductive Event where
  | guardSuspend
  | guardResume
  | pinSet (l : Level) (a : SetAnswer)
  | pinRead (a : ReadAnswer)
  | delay (n : Nat)
deriving DecidableEq, Repr

/-- A waveform over nominal time as an environment script writes it (30_encoding.md R78): segments of a level
and a length in microseconds, from nominal time 0, then one level for ever. -/
structure Waveform where
  segs : List (Level × Nat)
  rest : Level
deriving DecidableEq, Repr

/-- Who answers the pin port (20_memory.md R52, R53). -/
inductive Oracle where
  /-- The general oracle: the next answers where they are listed, a free value for every one after. -/
  | general (sets : List SetAnswer) (reads : List ReadAnswer)
  /-- The reference oracle `Ref(w, sf, rf)`. -/
  | reference (w : Waveform) (sf rf : List (Nat × PinErr))
deriving DecidableEq, Repr

/-- One step of the host (20_memory.md R40, R41; 30_encoding.md R77). -/
inductive HostStep where
  /-- `RegRead(idx)`. -/
  | regRead (idx : Nat)
  /-- `RegWrite(idx, v)`. -/
  | regWrite (idx : Nat) (v : Word)
  /-- A read of `bytes` bytes at a byte address of the host's bus (R41). -/
  | busRead (addr bytes : Nat)
  /-- A write of `bytes` bytes at a byte address of the host's bus (R41). -/
  | busWrite (addr bytes : Nat) (v : Word)
  /-- `WAIT.DONE`: `RD STATUS` until the value read has bit 1 set, engine steps running in between (R77). -/
  | waitDone
  /-- `RESET` (70_reset_and_hazards.md R180). -/
  | reset
deriving DecidableEq, Repr

/-- Whose turn a step is: how host steps and micro-operations fall between each other (20_memory.md R49). -/
inductive Turn where
  /-- The engine executes one micro-operation. -/
  | engine
  /-- The host takes one step. -/
  | host (h : HostStep)
  /-- From here on this environment script answers (R78: one script for each read). -/
  | environment (o : Oracle)
deriving DecidableEq, Repr

end Sys2Proof
end

