-- ==== Sys2Proof/WellFormed.lean ====
section
/-! DEFINITION. Which host steps and which parameters the spec gives a meaning. An instruction needs no check: its
constructors admit the spec's encodings and nothing else (the two words of NOP, a selector for each value of
`var`, one for DEC.A and one for DEC.B). -/

namespace Sys2Proof

/-- Which configurations the rules work for: `PEW` is 1 to 32, registers do not overlap, `N_BITS` is 8 × `FRAME_BYTES`
(R3), the frame is the five registers of 10_state.md R11, the counters `tick` and `el` hold every bound and one tick
more (R12, R16), and the division of the decoders is by 1 to 2^32. -/
def Config.Platform.wf (p : Config.Platform) : Bool :=
  decide (1 ≤ p.pew) && decide (p.pew ≤ 32) && decide (4 ≤ p.regStride)
    && decide (p.nBits = 8 * p.frameBytes) && decide (p.frameBytes = 5)
    && decide (p.toAckHigh ≤ 126) && decide (p.toAckLow ≤ 126) && decide (p.toBitHigh ≤ 126)
    && decide (p.toBitLow ≤ 126) && decide (1 ≤ p.bScale) && decide (p.bScale ≤ 2 ^ 32)

/-- R40, R41: a host access is of a register numbered 0 to 5, whole, at `REG_BASE` plus `idx` strides. -/
def HostStep.wf (p : Config.Platform) : HostStep → Bool
  | .regRead idx => decide (idx ≤ 5)
  | .regWrite idx _ => decide (idx ≤ 5)
  | .busRead addr bytes =>
      bytes == 4 && decide (p.regBase ≤ addr) && (addr - p.regBase) % p.regStride == 0
        && decide ((addr - p.regBase) / p.regStride ≤ 5)
  | .busWrite addr bytes _ =>
      bytes == 4 && decide (p.regBase ≤ addr) && (addr - p.regBase) % p.regStride == 0
        && decide ((addr - p.regBase) / p.regStride ≤ 5)
  | .waitDone => true
  | .reset => true

/-- A turn is well formed when the host step in it is. -/
def Turn.wf (p : Config.Platform) : Turn → Bool
  | .engine => true
  | .host h => h.wf p
  | .environment _ => true

end Sys2Proof
end

