-- ==== Sys2Proof/Decode.lean ====
section
/-! DEFINITION. The command decoder (30_encoding.md R60 to R63), the selector decoder (R64), and the encoder
written from the same tables. -/

namespace Sys2Proof

/-- Why bits are no instruction. -/
inductive DecodeReject where
  /-- A command word with any of bits 31:2 set (R62). -/
  | reservedCommand
  /-- `ph` = IDLE, selector 0x00 or 0x01: no micro-operation (R64). -/
  | idleSelector
  /-- `ph` = 14 or 15: never occurs (R64). -/
  | noSuchPhase
  /-- Bits above a selector's five are set. -/
  | strayBits
  /-- Neither one selector byte nor one four-byte command word (R63). -/
  | badLength
deriving DecidableEq, Repr

/-- The command decoder (R60, R61, R62): `GO` is bit 0, `VSEL` bit 1, bits 31:2 reserved. -/
def decodeCommand (w : Word) : Except DecodeReject Instr :=
  if w >>> 2 ≠ 0 then .error .reservedCommand
  else if w.getLsbD 0 = false then .ok (.nop (Variant.ofBool (w.getLsbD 1)))
  else if w.getLsbD 1 = false then .ok .readA
  else .ok .readB

/-- The micro-operation a phase code selects, `v` being the `var` bit (R64). -/
def decodePhase (v : Variant) : Nat → Except DecodeReject Instr
  | 0 => .error .idleSelector
  | 1 => .ok (.gsus v)
  | 2 => .ok (.wake v)
  | 3 => .ok (.req v)
  | 4 => .ok (.ackh v)
  | 5 => .ok (.ackl v)
  | 6 => .ok (.bith v)
  | 7 => .ok (.bitl v)
  | 8 => .ok (.store v)
  | 9 => .ok (.gres v)
  | 10 => .ok (.csum v)
  | 11 => match v with
    | .a => .ok .decA
    | .b => .ok .decB
  | 12 => .ok (.rchk v)
  | 13 => .ok (.pub v)
  | _ => .error .noSuchPhase

/-- The selector decoder (R64): bits 4:1 are `ph`, bit 0 is `var`. -/
def decodeSelector (sel : BitVec 5) : Except DecodeReject Instr :=
  decodePhase (Variant.ofBool (sel.getLsbD 0)) (sel >>> 1).toNat

/-- A command word from its four bytes, the least significant first (log entry 3). -/
def wordOfBytes (b0 b1 b2 b3 : Byte) : Word := b3 ++ b2 ++ b1 ++ b0

/-- The decoder, total on any bytes: one byte is a selector, four are a command word. -/
def decode : List Byte → Except DecodeReject Instr
  | [b] => if b.toNat < 32 then decodeSelector (b.setWidth 5) else .error .strayBits
  | [b0, b1, b2, b3] => decodeCommand (wordOfBytes b0 b1 b2 b3)
  | _ => .error .badLength

/-- The code word of an instruction: how many bytes it takes, and the number its bits make (R61, R64). -/
def encodeNumber : Instr → Nat × Nat
  | .readA => (4, 0x00000001)
  | .readB => (4, 0x00000003)
  | .nop .a => (4, 0x00000000)
  | .nop .b => (4, 0x00000002)
  | .gsus v => (1, 0x02 + v.bit.toNat)
  | .wake v => (1, 0x04 + v.bit.toNat)
  | .req v => (1, 0x06 + v.bit.toNat)
  | .ackh v => (1, 0x08 + v.bit.toNat)
  | .ackl v => (1, 0x0A + v.bit.toNat)
  | .bith v => (1, 0x0C + v.bit.toNat)
  | .bitl v => (1, 0x0E + v.bit.toNat)
  | .store v => (1, 0x10 + v.bit.toNat)
  | .gres v => (1, 0x12 + v.bit.toNat)
  | .csum v => (1, 0x14 + v.bit.toNat)
  | .decA => (1, 0x16)
  | .decB => (1, 0x17)
  | .rchk v => (1, 0x18 + v.bit.toNat)
  | .pub v => (1, 0x1A + v.bit.toNat)

/-- The `n` bytes of a number, the least significant first. -/
def bytesOf : Nat → Nat → List Byte
  | 0, _ => []
  | n + 1, w => BitVec.ofNat 8 w :: bytesOf n (w / 256)

/-- The encoder: the bytes of an instruction. -/
def encode (i : Instr) : List Byte := bytesOf (encodeNumber i).1 (encodeNumber i).2

/-- What the decoder reads from an instruction whose bits are `w`, numbered as spec/opcode_table.json numbers
them: a row of at most 8 bits is a selector, a longer one a command word. -/
def decodeTableWord (nbits w : Nat) : Option Instr :=
  match decode (bytesOf (if nbits ≤ 8 then 1 else 4) w) with
  | .ok i => some i
  | .error _ => none

end Sys2Proof
end

