-- ==== Sys2Proof/Machine/State.lean ====
section
/-! DEFINITION. The state of SWSPE (10_state.md section 1 and R10 to R29), what the model carries beside it (the configuration
and the outside world), why a step can be refused, and the state after reset (R35). -/

namespace Sys2Proof
namespace Machine

/-- The raw frame `f[0]` to `f[4]` (10_state.md R11). -/
structure Frame where
  b0 : Byte
  b1 : Byte
  b2 : Byte
  b3 : Byte
  b4 : Byte
deriving DecidableEq, Repr

/-- The pending failure `err` (10_state.md R19). -/
structure ErrReg where
  /-- `err.tag` -/
  tag : ErrTag
  /-- `err.t`, the transmitted checksum; meaningful only with tag 2. -/
  t : Byte
  /-- `err.c`, the computed checksum; meaningful only with tag 2. -/
  c : Byte
  /-- `err.e`, the pin error value; meaningful only with tag 5. -/
  e : PinErr
deriving DecidableEq, Repr

/-- What lies outside SWSPE and what the model records of a run. None of it is state of the hardware (R10): the
script of the environment, whose turn it is, and the record of events, nominal time and values read. -/
structure World where
  /-- Who answers the pin port (20_memory.md R52, R53). -/
  oracle : Oracle
  /-- How many more micro-operations get their port transactions answered; `none`: all of them, which is the
  liveness premise of 70_reset_and_hazards.md R192. -/
  answers : Option Nat
  /-- How many free values have been drawn (log entry 2). -/
  draws : Nat
  /-- The trace of the read (20_memory.md R50), the newest event first. -/
  trace : List Event
  /-- `PinSet` transactions so far in the read (R53). -/
  sets : Nat
  /-- `PinRead` transactions so far in the read (R53). -/
  reads : Nat
  /-- Nominal time in the read (R55). -/
  tau : Nat
  /-- The turns to come (R49); when none is listed the engine takes them all. -/
  sched : List Turn
  /-- The values returned to the host, the newest first, each with its register number (45_host_commands.md R145). -/
  seen : List (Nat × Word)
deriving DecidableEq, Repr

/-- The state of SWSPE: the table of 10_state.md section 1, field by field under the spec's names, then the
configuration and the world outside. -/
structure State where
  /-- `f`, the raw frame (R11). -/
  f : Frame
  /-- `el`, the elapsed ticks of the last completed wait (R12). -/
  el : BitVec 7
  /-- `hum`, the staged humidity (R13). -/
  hum : Word
  /-- `temp`, the staged temperature (R13). -/
  temp : Word
  /-- `ph`, the phase register (R14). -/
  ph : Phase
  /-- `bit`, the index of the bit being sampled (R15). -/
  bit : BitVec 6
  /-- `tick`, the ticks elapsed in the wait in progress (R16). -/
  tick : BitVec 7
  /-- `var`, the variant of the read in progress (R18). -/
  var : Variant
  /-- `err`, the pending failure (R19). -/
  err : ErrReg
  /-- `g`, the guard is held (R20). -/
  g : Bool
  /-- `BUSY`, STATUS bit 0 (R21). -/
  BUSY : Bool
  /-- `DONE`, STATUS bit 1 (R21). -/
  DONE : Bool
  /-- `ERR`, STATUS bits 6:4 (R22). -/
  ERR : ErrTag
  /-- `HUM`, register 2 (R26). -/
  HUM : Word
  /-- `TEMP`, register 3 (R27). -/
  TEMP : Word
  /-- `ERRINFO`, the 16 used bits of register 4 (R28). -/
  ERRINFO : BitVec 16
  /-- `PINERR`, register 5, of which `PEW` bits are used (R29). -/
  PINERR : Word
  /-- The configuration record of 00_scope.md R3: constants of the machine, written by no step. -/
  platform : Config.Platform
  /-- The world outside SWSPE and the record of the run. -/
  world : World
deriving DecidableEq, Repr

/-- Why a step faults: SWSPE has no fault, so there is no constructor. Its five failures are results that a read
ends in, in an orderly way (60_exceptions.md), and nothing else stops it. -/
inductive Fault where
deriving DecidableEq, Repr

/-- Why a step is refused. -/
inductive Refusal where
  /-- Raised by exec for an instruction without a meaning in the model. Safe. No arm raises it. -/
  | notModelled (mnemonic : String)
  /-- Raised by a host step on register number 6 or above, which does not exist (10_state.md R30, U4). Safe. -/
  | noSuchRegister (idx : Nat)
  /-- Raised by a host bus access at an address that selects no register (20_memory.md R41, U4). Safe. -/
  | noSuchAddress (addr : Nat)
  /-- Raised by a host bus access of a width other than 32 bits (20_memory.md R40, U5). Safe. -/
  | badAccessWidth (bytes : Nat)
  /-- Raised by a reset while `BUSY` = 1 (70_reset_and_hazards.md R182, U6). Safe. -/
  | resetWhileBusy
deriving DecidableEq, Repr

/-- The frame after reset and after the acceptance of a READ (R35; 45_host_commands.md R141). -/
def Frame.zero : Frame := ⟨0, 0, 0, 0, 0⟩

/-- The outside world before anything happened: every pin answer is free (R52), every transaction is answered
(R192), nothing is scheduled and nothing recorded. DESIGN CHOICE, log entries 1 and 2. -/
def World.initial : World where
  oracle := .general [] []
  answers := none
  draws := 0
  trace := []
  sets := 0
  reads := 0
  tau := 0
  sched := []
  seen := []

/-- The state after reset: the table of R35. Its one value the spec leaves unspecified, `err.e`, is 0: DESIGN CHOICE,
log entry 4. -/
def State.reset : State where
  f := Frame.zero
  el := 0
  hum := 0
  temp := 0
  ph := .idle
  bit := 0
  tick := 0
  var := .a
  err := ⟨.none, 0, 0, 0⟩
  g := false
  BUSY := false
  DONE := false
  ERR := .none
  HUM := 0
  TEMP := 0
  ERRINFO := 0
  PINERR := 0
  platform := Config.swspe
  world := World.initial

end Machine
end Sys2Proof
end

