-- ==== Sys2Proof/Machine/Ports.lean ====
section
/-! DEFINITION. The three consumed ports and the environment that answers them (20_memory.md R44 to R55): one
definition per transaction, over the world outside SWSPE. -/

namespace Sys2Proof
namespace Machine

/-- A pin error value as the port delivers it: `PEW` bits (10_state.md R29). -/
def limitErr (p : Config.Platform) (e : PinErr) : PinErr := e &&& BitVec.ofNat 32 (2 ^ p.pew - 1)

def SetAnswer.limit (p : Config.Platform) : SetAnswer → SetAnswer
  | .ok => .ok
  | .err e => .err (limitErr p e)

def ReadAnswer.limit (p : Config.Platform) : ReadAnswer → ReadAnswer
  | .ok l => .ok l
  | .err e => .err (limitErr p e)

/-- The level of a waveform `tau` microseconds after its first segment begins (30_encoding.md R78). -/
def levelAt (rest : Level) : List (Level × Nat) → Nat → Level
  | [], _ => rest
  | (l, n) :: segs, tau => if tau < n then l else levelAt rest segs (tau - n)

/-- The waveform `w` at nominal time `tau` (20_memory.md R53). -/
def waveAt (w : Waveform) (tau : Nat) : Level := levelAt w.rest w.segs tau

/-- The answer the oracle gives to the next `PinSet` (R52, R53). -/
def answerSet (p : Config.Platform) (w : World) : SetAnswer :=
  match w.oracle with
  | .general (a :: _) _ => SetAnswer.limit p a
  | .general [] _ => SetAnswer.limit p (Config.freeSetAnswer w.draws)
  | .reference _ sf _ =>
    match sf.lookup (w.sets + 1) with
    | some e => .err (limitErr p e)
    | none => .ok

/-- The level seen by the poll just before this one, when no event lies between them. -/
def sameInstantLevel (w : World) : Option Level :=
  match w.trace with
  | .pinRead (.ok l) :: _ => some l
  | _ => none

/-- `SAME_INSTANT_POLLS_AGREE` (00_scope.md R3, 20_memory.md R52): where it is set, a poll with no delay after
another sees the level that one saw, whoever answers. -/
def agree (p : Config.Platform) (w : World) (a : ReadAnswer) : ReadAnswer :=
  match a, p.sameInstantPollsAgree, sameInstantLevel w with
  | .ok _, true, some l => .ok l
  | a, _, _ => a

/-- The answer the oracle has for the next `PinRead` before the parameter above is heard (R52, R53). -/
def oracleRead (p : Config.Platform) (w : World) : ReadAnswer :=
  match w.oracle with
  | .general _ (a :: _) => ReadAnswer.limit p a
  | .general _ [] => ReadAnswer.limit p (Config.freeReadAnswer w.draws)
  | .reference wave _ rf =>
    match rf.lookup (w.reads + 1) with
    | some e => .err (limitErr p e)
    | none => .ok (waveAt wave w.tau)

/-- The answer to the next `PinRead` (R52, R53). -/
def answerRead (p : Config.Platform) (w : World) : ReadAnswer := agree p w (oracleRead p w)

/-- A listed `PinSet` answer is used up by the transaction it answers. -/
def Oracle.dropSet : Oracle → Oracle
  | .general (_ :: sets) reads => .general sets reads
  | .general [] reads => .general [] reads
  | .reference w sf rf => .reference w sf rf

/-- A listed `PinRead` answer is used up by the transaction it answers. -/
def Oracle.dropRead : Oracle → Oracle
  | .general sets (_ :: reads) => .general sets reads
  | .general sets [] => .general sets []
  | .reference w sf rf => .reference w sf rf

/-- Free values drawn by the next `PinSet`: one when the general oracle lists no answer. -/
def Oracle.setDraws : Oracle → Nat
  | .general [] _ => 1
  | .general (_ :: _) _ => 0
  | .reference _ _ _ => 0

/-- Free values drawn by the next `PinRead`: one when the general oracle lists no answer. -/
def Oracle.readDraws : Oracle → Nat
  | .general _ [] => 1
  | .general _ (_ :: _) => 0
  | .reference _ _ _ => 0

/-- The world after `PinSet(l)`, answered by `answerSet` (R44). -/
def World.pinSet (p : Config.Platform) (l : Level) (w : World) : World :=
  { w with
    oracle := Oracle.dropSet w.oracle
    draws := w.draws + Oracle.setDraws w.oracle
    sets := w.sets + 1
    trace := .pinSet l (answerSet p w) :: w.trace }

/-- The world after `PinRead()`, answered by `answerRead` (R45). -/
def World.pinRead (p : Config.Platform) (w : World) : World :=
  { w with
    oracle := Oracle.dropRead w.oracle
    draws := w.draws + Oracle.readDraws w.oracle
    reads := w.reads + 1
    trace := .pinRead (answerRead p w) :: w.trace }

/-- The world after `Delay(n)` (R46), which advances nominal time by `n` (R55). -/
def World.delay (n : Nat) (w : World) : World :=
  { w with tau := w.tau + n, trace := .delay n :: w.trace }

/-- The world after `Guard(SUSPEND)` (R47). -/
def World.suspend (w : World) : World := { w with trace := .guardSuspend :: w.trace }

/-- The world after `Guard(RESUME)` (R47). -/
def World.resume (w : World) : World := { w with trace := .guardResume :: w.trace }

/-- A new read begins: its trace is empty, its nominal time 0 and its transactions are counted from one
(R50, R53, R55). -/
def World.newRead (w : World) : World := { w with trace := [], sets := 0, reads := 0, tau := 0 }

/-- The trace in issue order (R50). -/
def World.events (w : World) : List Event := w.trace.reverse

/-- The sum of the arguments of the `Delay` events of a trace (R55). -/
def delaySum : List Event → Nat
  | [] => 0
  | .delay n :: es => n + delaySum es
  | .guardSuspend :: es => delaySum es
  | .guardResume :: es => delaySum es
  | .pinSet _ _ :: es => delaySum es
  | .pinRead _ :: es => delaySum es

end Machine
end Sys2Proof
end

