-- ==== Sys2Proof/Machine/Flags.lean ====
section
/-! DEFINITION. The numeric failure codes (60_exceptions.md R155), the layout of STATUS, ERRINFO and PINERR
(10_state.md R25, R28, R29) and the values the host reads (45_host_commands.md R145). SWSPE has no arithmetic
condition codes (R22). -/

namespace Sys2Proof
namespace Machine

/-- The code of a failure (R155). -/
def errCode : ErrTag → BitVec 3
  | .none => 0
  | .notPresent => 1
  | .checksumMismatch => 2
  | .invalidData => 3
  | .timeout => 4
  | .pinError => 5

/-- `code(X)`: the tag of a failure (R155, R161). -/
def failureTag : Failure → ErrTag
  | .notPresent => .notPresent
  | .checksumMismatch _ _ => .checksumMismatch
  | .invalidData => .invalidData
  | .timeout => .timeout
  | .pinError _ => .pinError

/-- `err` after a failure is raised: only the values the failure carries are written beside the tag (R161). -/
def ErrReg.record (r : ErrReg) : Failure → ErrReg
  | .notPresent => { r with tag := .notPresent }
  | .checksumMismatch t c => { r with tag := .checksumMismatch, t := t, c := c }
  | .invalidData => { r with tag := .invalidData }
  | .timeout => { r with tag := .timeout }
  | .pinError e => { r with tag := .pinError, e := e }

/-- STATUS as read: `zext_32({ERR[2:0], 0b00, DONE, BUSY})` (R25, R145). -/
def statusWord (s : State) : Word :=
  (errCode s.ERR ++ 0#2 ++ BitVec.ofBool s.DONE ++ BitVec.ofBool s.BUSY).setWidth 32

/-- The value of a register as the host reads it (R145); registers 6 and above do not exist (R30). -/
def registerValue (s : State) : Nat → Option Word
  | 0 => some 0
  | 1 => some (statusWord s)
  | 2 => some s.HUM
  | 3 => some s.TEMP
  | 4 => some (s.ERRINFO.setWidth 32)
  | 5 => some (limitErr s.platform s.PINERR)
  | _ => none

end Machine
end Sys2Proof
end

