-- ==== Sys2Proof/Machine/Float.lean ====
section
/-! DEFINITION. The floating-point operations of the decoders and of the range check
(43_variant_decoders.md R126 to R130). -/

namespace Sys2Proof
namespace Machine

/-- The sign of an `F32` pattern, bit 31 (R126). -/
def f32Sign (b : Word) : Bool := b.getLsbD 31

/-- The biased exponent of an `F32` pattern, bits 30:23 (R126). -/
def f32Exponent (b : Word) : Nat := b.toNat / 2 ^ 23 % 256

/-- The fraction of an `F32` pattern, bits 22:0 (R126). -/
def f32Fraction (b : Word) : Nat := b.toNat % 2 ^ 23

/-- A pattern of R126 that denotes no number: exponent 255 with a fraction. SWSPE never produces one. -/
def f32IsNaN (b : Word) : Bool := f32Exponent b == 255 && f32Fraction b != 0

/-- The magnitude a pattern denotes, in units of 2^-149, which makes it a natural number for every finite
pattern (R126). -/
def f32Magnitude (b : Word) : Nat :=
  if f32Exponent b = 0 then f32Fraction b
  else (2 ^ 23 + f32Fraction b) * 2 ^ (f32Exponent b - 1)

/-- The number a pattern denotes, in units of 2^-149 (R126). Both zeros give 0. -/
def f32Value (b : Word) : Int :=
  if f32Sign b then -(f32Magnitude b : Int) else (f32Magnitude b : Int)

/-- The pattern with biased exponent `x` and 24-bit significand `q`, its top bit hidden: the last line of R127
and R128. -/
def f32Pack (x q : Nat) : Word := BitVec.ofNat 32 (x * 2 ^ 23 + (q - 2 ^ 23))

/-- `F32FromNat(n)` (R127), for `n` < 2^24: exact. -/
def f32FromNat (n : Nat) : Word :=
  if n = 0 then 0
  else f32Pack (Nat.log2 n + 127) (n * 2 ^ (23 - Nat.log2 n))

/-- The greatest `k` up to the bound with d * 2^k ≤ 2^32 * n: the `e` of R128 is this `k` less 32. -/
def divExponent (d n : Nat) : Nat → Nat
  | 0 => 0
  | k + 1 => if d * 2 ^ (k + 1) ≤ 2 ^ 32 * n then k + 1 else divExponent d n k

/-- Round a quotient `q` of a division by `d` with remainder `r` to nearest, ties to even (R128). -/
def roundNearestEven (d q r : Nat) : Nat :=
  if d < 2 * r ∨ (2 * r = d ∧ q % 2 = 1) then q + 1 else q

/-- `n`/`d` correctly rounded, for `n` ≤ 65535 and `d` from 1 to 2^32: the algorithm of R128 with its divisor, the
parameter `B_SCALE`, as an argument (log entry 18). -/
def f32Div (d n : Nat) : Word :=
  if n = 0 then 0
  else
    let k := divExponent d n 48
    let num := n * 2 ^ (55 - k)
    let q := roundNearestEven d (num / d) (num % d)
    if q = 2 ^ 24 then f32Pack (k + 1 + 95) (2 ^ 23) else f32Pack (k + 95) q

/-- `F32Div10(n)` (R128), for `n` ≤ 65535: `n`/10 correctly rounded. -/
def f32Div10 (n : Nat) : Word := f32Div 10 n

/-- `F32Neg(b)` (R129): bit 31 inverted. -/
def f32Neg (b : Word) : Word := b ^^^ 0x80000000

/-- `F32Lt(a, b)` (R130): the numbers compared, -0.0 equal to +0.0. A pattern that denotes no number compares
false (log entry 5); SWSPE never produces one. -/
def f32Lt (a b : Word) : Bool :=
  !f32IsNaN a && !f32IsNaN b && decide (f32Value a < f32Value b)

/-- `F32Le(a, b)` (R130). -/
def f32Le (a b : Word) : Bool :=
  !f32IsNaN a && !f32IsNaN b && decide (f32Value a ≤ f32Value b)

end Machine
end Sys2Proof
end

