-- ==== Sys2Proof/Machine/Operands.lean ====
section
/-! DEFINITION. The operands of the micro-operations: the selector, the hardwired constants of a wait, the places of
the frame's bits, and the fields the two variants read in a frame (30_encoding.md R64, R65, R70 to R73). -/

namespace Sys2Proof
namespace Machine

/-- The code of a phase (10_state.md R14). -/
def phaseCode : Phase → BitVec 4
  | .idle => 0
  | .gsus => 1
  | .wake => 2
  | .req => 3
  | .ackh => 4
  | .ackl => 5
  | .bith => 6
  | .bitl => 7
  | .store => 8
  | .gres => 9
  | .csum => 10
  | .dec => 11
  | .rchk => 12
  | .pub => 13

/-- The phase of a code; IDLE for 14 and 15, which no rule writes (R14). -/
def phaseOfCode : Nat → Phase
  | 1 => .gsus
  | 2 => .wake
  | 3 => .req
  | 4 => .ackh
  | 5 => .ackl
  | 6 => .bith
  | 7 => .bitl
  | 8 => .store
  | 9 => .gres
  | 10 => .csum
  | 11 => .dec
  | 12 => .rchk
  | 13 => .pub
  | _ => .idle

/-- The selector `{ph, var}` (30_encoding.md R64). -/
def selector (s : State) : BitVec 5 := phaseCode s.ph ++ s.var.bit

/-- The phases whose micro-operation uses the pin port or the delay port: WAKE, REQ and the four waits. A failure
raised in one of them leaves the guard to be resumed (60_exceptions.md R161). -/
def usesPin : Phase → Bool
  | .wake => true
  | .req => true
  | .ackh => true
  | .ackl => true
  | .bith => true
  | .bitl => true
  | .idle => false
  | .gsus => false
  | .store => false
  | .gres => false
  | .csum => false
  | .dec => false
  | .rchk => false
  | .pub => false

/-- The hardwired arguments of a level wait (40_level_wait.md R80, 30_encoding.md R65). -/
structure Wait where
  target : Level
  bound : Nat
  failure : Failure
  next : Phase
deriving DecidableEq, Repr

/-- ACKH (41_protocol_engine.md R94). -/
def ackhWait (p : Config.Platform) : Wait := ⟨.high, p.toAckHigh, .notPresent, .ackl⟩
/-- ACKL (R95). -/
def acklWait (p : Config.Platform) : Wait := ⟨.low, p.toAckLow, .notPresent, .bith⟩
/-- BITH (R97). -/
def bithWait (p : Config.Platform) : Wait := ⟨.high, p.toBitHigh, .timeout, .bitl⟩
/-- BITL (R98). -/
def bitlWait (p : Config.Platform) : Wait := ⟨.low, p.toBitLow, .timeout, .store⟩

/-- The other level, `¬t` of 20_memory.md R51. -/
def otherLevel : Level → Level
  | .low => .high
  | .high => .low

/-- Frame byte `f[i]`, `i` in 0..4 (10_state.md R11). -/
def Frame.get (f : Frame) : Nat → Byte
  | 0 => f.b0
  | 1 => f.b1
  | 2 => f.b2
  | 3 => f.b3
  | _ => f.b4

/-- The frame with byte `i` replaced, `i` in 0..4. -/
def Frame.set (f : Frame) (v : Byte) : Nat → Frame
  | 0 => { f with b0 := v }
  | 1 => { f with b1 := v }
  | 2 => { f with b2 := v }
  | 3 => { f with b3 := v }
  | _ => { f with b4 := v }

/-- A byte with bit `shift` replaced by `v`. -/
def putBit (b : Byte) (shift : Nat) (v : Bool) : Byte :=
  if v then b ||| ((1 : Byte) <<< shift) else b &&& ~~~((1 : Byte) <<< shift)

/-- The frame byte that holds cell `i` (30_encoding.md R70). -/
def cellByte (i : Nat) : Nat := i / 8

/-- The bit of that byte that holds cell `i` (R70). -/
def cellShift (i : Nat) : Nat := 7 - i % 8

/-- The frame with the bit of cell `i` set to `v`: `f[i div 8][7 - (i mod 8)] <- v` (R70, R99). -/
def Frame.putCell (f : Frame) (i : Nat) (v : Bool) : Frame :=
  f.set (putBit (f.get (cellByte i)) (cellShift i) v) (cellByte i)

/-- The bit of cell `i` in the frame (R70). -/
def Frame.cell (f : Frame) (i : Nat) : Bool := (f.get (cellByte i)).getLsbD (cellShift i)

/-- The bit a count encodes: 1 when it is strictly greater than the threshold (30_encoding.md R68). -/
def bitOfCount (p : Config.Platform) (el : Nat) : Bool := decide (p.bitThreshold < el)

/-- The sum of the first `n` bytes of a frame, as naturals. -/
def Frame.sum (f : Frame) : Nat → Nat
  | 0 => 0
  | n + 1 => f.sum n + (f.get n).toNat

/-- The computed checksum: the sum of the data bytes, all but the last of `FRAME_BYTES`, modulo 256
(42_checksum_validate.md R110, R111). -/
def Frame.checksum (p : Config.Platform) (f : Frame) : Byte := BitVec.ofNat 8 (f.sum (p.frameBytes - 1))

/-- The checksum as transmitted: the last of `FRAME_BYTES` bytes (10_state.md R11). -/
def Frame.transmitted (p : Config.Platform) (f : Frame) : Byte := f.get (p.frameBytes - 1)

/-- A frame is valid when its last byte is the checksum of the others (30_encoding.md R71). -/
def Frame.valid (p : Config.Platform) (f : Frame) : Bool := f.checksum p == f.transmitted p

/-- `A_HUM` (R72). -/
def Frame.aHum (f : Frame) : Nat := f.b0.toNat
/-- `A_TEMP` (R72). -/
def Frame.aTemp (f : Frame) : Nat := f.b2.toNat
/-- `B_HUM`, the big-endian 16 bits of bytes 0 and 1 (R73, 20_memory.md R42). -/
def Frame.bHum (f : Frame) : Nat := f.b0.toNat * 256 + f.b1.toNat
/-- `B_TMAG`, the 15 bits of bytes 2 and 3 below the sign (R73). -/
def Frame.bTmag (p : Config.Platform) (f : Frame) : Nat := (f.b2 &&& p.bMagMask).toNat * 256 + f.b3.toNat
/-- `B_SIGN`, bit 7 of byte 2 (R73). -/
def Frame.bSign (p : Config.Platform) (f : Frame) : Bool := f.b2 &&& p.bSignMask != 0

end Machine
end Sys2Proof
end

