-- ==== Sys2Proof/Machine/Ops.lean ====
section
/-! DEFINITION. The named operations the meanings are made of: register updates, the port transactions over the state,
raising a failure (60_exceptions.md R161), one iteration of a level wait (40_level_wait.md R81), the acceptance of a
READ (45_host_commands.md R141), the publication of an outcome (42_checksum_validate.md R113) and reset
(70_reset_and_hazards.md R180). -/

namespace Sys2Proof
namespace Machine

/-- `ph <- X`. -/
def State.setPh (p : Phase) (s : State) : State := { s with ph := p }

/-- `tick <- n`. -/
def State.setTick (n : BitVec 7) (s : State) : State := { s with tick := n }

/-- `el <- n`. -/
def State.setEl (n : BitVec 7) (s : State) : State := { s with el := n }

/-- `err <- r`. -/
def State.setErr (r : ErrReg) (s : State) : State := { s with err := r }

/-- The outside world changes; the hardware does not. -/
def State.setWorld (w : World) (s : State) : State := { s with world := w }

/-- The answer the next `PinSet` gets. -/
def State.answerSet (s : State) : SetAnswer := Machine.answerSet s.platform s.world

/-- The answer the next `PinRead` gets. -/
def State.answerRead (s : State) : ReadAnswer := Machine.answerRead s.platform s.world

/-- `PinSet(l)` (20_memory.md R44). -/
def State.pinSet (l : Level) (s : State) : State := s.setWorld (s.world.pinSet s.platform l)

/-- `PinRead()` (R45). -/
def State.pinRead (s : State) : State := s.setWorld (s.world.pinRead s.platform)

/-- `Delay(n)` (R46). -/
def State.delay (n : Nat) (s : State) : State := s.setWorld (s.world.delay n)

/-- `Guard(SUSPEND)` (R47). -/
def State.suspend (s : State) : State := s.setWorld s.world.suspend

/-- `Guard(RESUME)` (R47). -/
def State.resume (s : State) : State := s.setWorld s.world.resume

/-- Where a raised failure leads: to GRES from a pin phase, whose guard must be resumed first, else to PUB (R161). -/
def failurePath (ph : Phase) : Phase := if usesPin ph then .gres else .pub

/-- `raise X` (R161): the failure is recorded in `err` and the normal sequence is left. Nothing else is saved. This
is SWSPE's taking of an exception; there is no return from one but the next READ (R166). -/
def raise (x : Failure) (s : State) : State :=
  { s with err := s.err.record x, ph := failurePath s.ph }

/-- One micro-operation that sets the pin and holds it (R91, R92): a failed set is raised at once, with no delay. -/
def setAndHold (l : Level) (hold : Nat) (after : State → State) (s : State) : State :=
  match s.answerSet with
  | .err e => raise (.pinError e) (s.pinSet l)
  | .ok => after ((s.pinSet l).delay hold)

/-- `LWIter(target, bound, E, next)` (40_level_wait.md R81): one poll, at most one delay. -/
def lwIter (w : Wait) (s : State) : State :=
  match s.answerRead with
  | .err e => raise (.pinError e) s.pinRead
  | .ok l =>
    if l = w.target then (((s.pinRead).setEl s.tick).setTick 0).setPh w.next
    else
      let t := ((s.pinRead).delay s.platform.pollPeriodUs).setTick (s.tick + 1)
      if w.bound < t.tick.toNat then raise w.failure t else t

/-- `AcceptRead(v)` (R141): every register is written but `g`, and `err.e`, which is left as it is. The trace, the
transaction counts and nominal time of the new read begin (R50, R53, R55). -/
def acceptRead (v : Variant) (s : State) : State :=
  { s with
    var := v
    f := Frame.zero
    bit := 0
    tick := 0
    el := 0
    hum := 0
    temp := 0
    err := { s.err with tag := .none, t := 0, c := 0 }
    HUM := 0
    TEMP := 0
    ERRINFO := 0
    PINERR := 0
    ERR := .none
    DONE := false
    BUSY := true
    ph := .gsus
    world := s.world.newRead }

/-- A READ command (R140, R141, R143): accepted in IDLE, ignored while a read is in progress. -/
def readCommand (v : Variant) (s : State) : State :=
  if s.ph = .idle then acceptRead v s else s

/-- The result registers PUB writes (R113): the reading on success, else the failure's code and what it carries;
registers the branch does not name keep their value. -/
def publishOutcome (s : State) : State :=
  match s.err.tag with
  | .none => { s with HUM := s.hum, TEMP := s.temp, ERR := .none }
  | .notPresent => { s with ERR := .notPresent }
  | .checksumMismatch => { s with ERR := .checksumMismatch, ERRINFO := s.err.c ++ s.err.t }
  | .invalidData => { s with ERR := .invalidData }
  | .timeout => { s with ERR := .timeout }
  | .pinError => { s with ERR := .pinError, PINERR := s.err.e }

/-- Reset (R180, 10_state.md R35): every register of SWSPE at its reset value, no transaction on any port. The
configuration and what is outside SWSPE stay; the trace of a read that was is put away with its nominal time. -/
def resetRegisters (s : State) : State :=
  { State.reset with platform := s.platform, world := s.world.newRead }

/-- The humidity check of RCHK (42_checksum_validate.md R112): outside [`HUM_MIN`, `HUM_MAX`]. -/
def humidityOutOfRange (p : Config.Platform) (hum : Word) : Bool := f32Lt hum p.humMin || f32Lt p.humMax hum

/-- The host reads register `idx`: the value is returned, nothing else changes (45_host_commands.md R145,
20_memory.md R43). -/
def readRegister (idx : Nat) (s : State) : Host.Outcome State Fault Refusal :=
  match registerValue s idx with
  | some v => .next (s.setWorld { s.world with seen := (idx, v) :: s.world.seen })
  | none => .refused (.noSuchRegister idx)

/-- The register number a bus access selects (20_memory.md R40, R41): a whole register at `REG_BASE` plus
`idx` strides. -/
def busRegister (p : Config.Platform) (addr bytes : Nat) : Except Refusal Nat :=
  if bytes ≠ 4 then .error (.badAccessWidth bytes)
  else if addr < p.regBase then .error (.noSuchAddress addr)
  else if (addr - p.regBase) % p.regStride ≠ 0 then .error (.noSuchAddress addr)
  else if 5 < (addr - p.regBase) / p.regStride then .error (.noSuchAddress addr)
  else .ok ((addr - p.regBase) / p.regStride)

end Machine
end Sys2Proof
end

