-- ==== Sys2Proof/Machine/Command.lean ====
section
/-! DEFINITION. The three host commands (45_host_commands.md R140 to R144). -/

namespace Sys2Proof
namespace Machine

/-- `READ.A` (R141, R143). -/
def execReadA (s : State) : Host.Outcome State Fault Refusal := .next (readCommand .a s)

/-- `READ.B` (R141, R143). -/
def execReadB (s : State) : Host.Outcome State Fault Refusal := .next (readCommand .b s)

/-- `NOP` (R142): no state changes; VSEL is ignored. -/
def execNop (s : State) : Host.Outcome State Fault Refusal := .next s

end Machine
end Sys2Proof
end

