-- ==== Sys2Proof/Machine/Decoders.lean ====
section
/-! DEFINITION. The variant decoders (43_variant_decoders.md R120, R122): pure functions of a frame, and the two
micro-operations that stage what they give. -/

namespace Sys2Proof
namespace Machine

/-- `DecodeA(f)`: humidity and temperature (R120). -/
def decodeA (f : Frame) : Word × Word := (f32FromNat f.aHum, f32FromNat f.aTemp)

/-- Variant B's temperature: the magnitude scaled, then negated where the sign bit is set (R122, R124). -/
def decodeBTemp (p : Config.Platform) (f : Frame) : Word :=
  if f.bSign p then f32Neg (f32Div p.bScale (f.bTmag p)) else f32Div p.bScale (f.bTmag p)

/-- `DecodeB(f)`: humidity and temperature (R122). -/
def decodeB (p : Config.Platform) (f : Frame) : Word × Word := (f32Div p.bScale f.bHum, decodeBTemp p f)

/-- The decoder of a variant (R115). -/
def decodeFrame (p : Config.Platform) (v : Variant) (f : Frame) : Word × Word :=
  match v with
  | .a => decodeA f
  | .b => decodeB p f

/-- What DEC writes: the staging registers and the phase. -/
def stageReading (r : Word × Word) (s : State) : State :=
  { s with hum := r.1, temp := r.2, ph := .rchk }

/-- `DEC.A` (R120). -/
def execDecA (s : State) : Host.Outcome State Fault Refusal := .next (stageReading (decodeA s.f) s)

/-- `DEC.B` (R122). -/
def execDecB (s : State) : Host.Outcome State Fault Refusal := .next (stageReading (decodeB s.platform s.f) s)

end Machine
end Sys2Proof
end

