-- ==== Sys2Proof/Machine/Engine.lean ====
section
/-! DEFINITION. The protocol engine's micro-operations of the source's steps 1 to 5 (41_protocol_engine.md R91 to R99). -/

namespace Sys2Proof
namespace Machine

/-- `WAKE` (R91): Low for `T_WAKE_US`. -/
def execWake (s : State) : Host.Outcome State Fault Refusal :=
  .next (setAndHold .low s.platform.tWakeUs (State.setPh .req) s)

/-- `REQ` (R92): High for `T_REQ_US`; releasing the direction is no transaction (R93). -/
def execReq (s : State) : Host.Outcome State Fault Refusal :=
  .next (setAndHold .high s.platform.tReqUs (fun t => (t.setTick 0).setPh .ackh) s)

/-- `ACKH` (R94). -/
def execAckh (s : State) : Host.Outcome State Fault Refusal := .next (lwIter (ackhWait s.platform) s)

/-- `ACKL` (R95). -/
def execAckl (s : State) : Host.Outcome State Fault Refusal := .next (lwIter (acklWait s.platform) s)

/-- `BITH` (R97). -/
def execBith (s : State) : Host.Outcome State Fault Refusal := .next (lwIter (bithWait s.platform) s)

/-- `BITL` (R98). -/
def execBitl (s : State) : Host.Outcome State Fault Refusal := .next (lwIter (bitlWait s.platform) s)

/-- The bit of the cell just timed goes into the frame (R99). -/
def storeCell (s : State) : State :=
  { s with f := s.f.putCell s.bit.toNat (bitOfCount s.platform s.el.toNat) }

/-- `STORE` (R99): the loop is left at the last bit, else the next cell begins. -/
def execStore (s : State) : Host.Outcome State Fault Refusal :=
  .next (if s.bit.toNat = s.platform.nBits - 1 then (storeCell s).setPh .gres
    else { storeCell s with bit := s.bit + 1, tick := 0, ph := .bith })

end Machine
end Sys2Proof
end

