-- ==== Sys2Proof/Machine/Guard.lean ====
section
/-! DEFINITION. The interrupt guard bracket (44_interrupt_guard.md R135, R136). -/

namespace Sys2Proof
namespace Machine

/-- `GSUS` (R135). -/
def execGsus (s : State) : Host.Outcome State Fault Refusal :=
  .next (State.setPh .wake { s.suspend with g := true })

/-- `GRES` (R136): on to validation, or to publication when a pin phase failed. -/
def execGres (s : State) : Host.Outcome State Fault Refusal :=
  .next (State.setPh (if s.err.tag = .none then .csum else .pub) { s.resume with g := false })

end Machine
end Sys2Proof
end

