-- ==== Sys2Proof/Machine/Validate.lean ====
section
/-! DEFINITION. Checksum, range check and publication (42_checksum_validate.md R110, R112, R113). -/

namespace Sys2Proof
namespace Machine

/-- `CSUM` (R110). -/
def execCsum (s : State) : Host.Outcome State Fault Refusal :=
  .next (if s.f.checksum s.platform = s.f.transmitted s.platform then s.setPh .dec
    else raise (.checksumMismatch (s.f.transmitted s.platform) (s.f.checksum s.platform)) s)

/-- `RCHK` (R112). -/
def execRchk (s : State) : Host.Outcome State Fault Refusal :=
  .next (if humidityOutOfRange s.platform s.hum then raise .invalidData s else s.setPh .pub)

/-- `PUB` (R113): the outcome is published and the engine is idle again, in one step. -/
def execPub (s : State) : Host.Outcome State Fault Refusal :=
  .next { publishOutcome s with BUSY := false, DONE := true, ph := .idle }

end Machine
end Sys2Proof
end

