-- ==== Sys2Proof/Machine/Dispatch.lean ====
section
/-! DEFINITION. Which meaning each instruction has. -/

namespace Sys2Proof
namespace Machine

def exec (i : Instr) (s : State) : Host.Outcome State Fault Refusal :=
  match i with
  -- host commands
  | .readA => Sys2Proof.Machine.execReadA s
  | .readB => Sys2Proof.Machine.execReadB s
  | .nop _ => Sys2Proof.Machine.execNop s
  -- micro-operations; the selector's `var` bit matters only to DEC (30_encoding.md R64)
  | .gsus _ => Sys2Proof.Machine.execGsus s
  | .wake _ => Sys2Proof.Machine.execWake s
  | .req _ => Sys2Proof.Machine.execReq s
  | .ackh _ => Sys2Proof.Machine.execAckh s
  | .ackl _ => Sys2Proof.Machine.execAckl s
  | .bith _ => Sys2Proof.Machine.execBith s
  | .bitl _ => Sys2Proof.Machine.execBitl s
  | .store _ => Sys2Proof.Machine.execStore s
  | .gres _ => Sys2Proof.Machine.execGres s
  | .csum _ => Sys2Proof.Machine.execCsum s
  | .decA => Sys2Proof.Machine.execDecA s
  | .decB => Sys2Proof.Machine.execDecB s
  | .rchk _ => Sys2Proof.Machine.execRchk s
  | .pub _ => Sys2Proof.Machine.execPub s

end Machine
end Sys2Proof
end

