-- ==== Sys2Proof/Machine/Turns.lean ====
section
/-! DEFINITION. One turn of the engine, of the host, and how they fall between each other (20_memory.md R43, R49). -/

namespace Sys2Proof
namespace Machine

/-- The engine executes an instruction the selector gives. A micro-operation of a pin phase needs the environment to
answer; where it never answers again the engine waits for ever, with nothing changed (70_reset_and_hazards.md R192,
U7). -/
def runMicroOp (i : Instr) (s : State) : Host.Outcome State Fault Refusal :=
  if usesPin s.ph then
    match s.world.answers with
    | none => exec i s
    | some 0 => .next s
    | some (n + 1) => exec i (s.setWorld { s.world with answers := some n })
  else exec i s

/-- The engine's turn: the micro-operation the selector `{ph, var}` gives; in IDLE there is none and nothing happens
(30_encoding.md R64, 10_state.md R14). -/
def engineTurn (s : State) : Host.Outcome State Fault Refusal :=
  match decodeSelector (selector s) with
  | .ok i => runMicroOp i s
  | .error _ => .next s

/-- `RegWrite(0, w)` (45_host_commands.md R140): the command decoded is executed; a reserved word is ignored (R144). -/
def writeCommand (w : Word) (s : State) : Host.Outcome State Fault Refusal :=
  match decodeCommand w with
  | .ok i => exec i s
  | .error _ => .next s

/-- `RegWrite(idx, v)` (20_memory.md R43): only CMD acts; registers 1 to 5 ignore a write. -/
def writeRegister (idx : Nat) (v : Word) (s : State) : Host.Outcome State Fault Refusal :=
  if idx = 0 then writeCommand v s
  else if idx ≤ 5 then .next s
  else .refused (.noSuchRegister idx)

/-- The turns a `WAIT.DONE` leaves to come: none when the STATUS just read has `DONE` set, else an engine step and the
same wait again (30_encoding.md R77). -/
def waitDoneRest (s : State) : List Turn :=
  if s.DONE then s.world.sched else .engine :: .host .waitDone :: s.world.sched

/-- One step of the host (45_host_commands.md R148). -/
def hostTurn (h : HostStep) (s : State) : Host.Outcome State Fault Refusal :=
  match h with
  | .regRead idx => readRegister idx s
  | .regWrite idx v => writeRegister idx v s
  | .busRead addr bytes =>
    match busRegister s.platform addr bytes with
    | .ok idx => readRegister idx s
    | .error r => .refused r
  | .busWrite addr bytes v =>
    match busRegister s.platform addr bytes with
    | .ok idx => writeRegister idx v s
    | .error r => .refused r
  | .waitDone => readRegister 1 (s.setWorld { s.world with sched := waitDoneRest s })
  | .reset => if s.BUSY then .refused .resetWhileBusy else .next (resetRegisters s)

/-- The state with its next turn taken off the schedule. -/
def State.popTurn (s : State) : State := s.setWorld { s.world with sched := s.world.sched.tail }

/-- One step: the next turn of the schedule; where none is listed, the engine's. -/
def nextTurn (s : State) : Host.Outcome State Fault Refusal :=
  match s.world.sched with
  | [] => engineTurn s
  | .engine :: _ => engineTurn s.popTurn
  | .host h :: _ => hostTurn h s.popTurn
  | .environment o :: _ => .next (s.popTurn.setWorld { s.popTurn.world with oracle := o })

/-- The state made ready so that its next step is the engine's micro-operation of selector `w`. -/
def placeSelector (w : Nat) (s : State) : State :=
  { s with
    ph := phaseOfCode (w / 2 % 16)
    var := Variant.ofBool (w % 2 == 1)
    world := { s.world with sched := .engine :: s.world.sched } }

/-- The state made ready so that its next step is the host's write of `w` to CMD. -/
def placeCommand (w : Nat) (s : State) : State :=
  s.setWorld { s.world with sched := .host (.regWrite 0 (BitVec.ofNat 32 w)) :: s.world.sched }

end Machine
end Sys2Proof
end

