-- ==== Sys2Proof/Machine/Step.lean ====
section
/-! DEFINITION. The step of the machine, and how one instruction is placed where the next step takes it. -/

namespace Sys2Proof
namespace Machine

/-- One step: a host step or one micro-operation (00_scope.md R6, section 7). -/
def step (s : State) : Host.Outcome State Fault Refusal := nextTurn s

/-- The state whose very next step runs the instruction of `nbits` bits `w`: a command is put on the schedule as the
host's write to CMD, a selector in `ph` and `var` with the engine's turn next. SWSPE fetches no instructions
(20_memory.md R41, R56); log entry 6. -/
def State.withFetchWord (s : State) (nbits w : Nat) : State :=
  if nbits ≤ 8 then placeSelector w s else placeCommand w s

end Machine
end Sys2Proof
end

