-- ==== Sys2Proof/Machine/BigStep.lean ====
section
/-! DEFINITION. The read as a function of the environment, the way the spec gives it for a reader who prefers big steps:
a whole level wait (40_level_wait.md R86), the sampling of a frame (41_protocol_engine.md R100) and the whole read
(42_checksum_validate.md R115). The machine does not call these; they are what its steps add up to. -/

namespace Sys2Proof
namespace Machine

/-- The rest of a level wait: at most `fuel` polls more, `tick` having not matched so far (R86). -/
def levelWaitFrom (p : Config.Platform) (wt : Wait) : Nat → Nat → World → Except Failure Nat × World
  | 0, _, w => (.error wt.failure, w)
  | fuel + 1, tick, w =>
    match answerRead p w with
    | .err e => (.error (.pinError e), w.pinRead p)
    | .ok l =>
      if l = wt.target then (.ok tick, w.pinRead p)
      else levelWaitFrom p wt fuel (tick + 1) ((w.pinRead p).delay p.pollPeriodUs)

/-- `LevelWait(target, bound, E)` (R86): at most `bound` + 1 polls. -/
def levelWait (p : Config.Platform) (wt : Wait) (w : World) : Except Failure Nat × World :=
  levelWaitFrom p wt (wt.bound + 1) 0 w

/-- The cells from index `i` on, `n` of them: each timed and stored (R96, R100). -/
def sampleCells (p : Config.Platform) : Nat → Nat → Frame → World → Except Failure Frame × World
  | 0, _, f, w => (.ok f, w)
  | n + 1, i, f, w =>
    match levelWait p (bithWait p) w with
    | (.error x, w1) => (.error x, w1)
    | (.ok _, w1) =>
      match levelWait p (bitlWait p) w1 with
      | (.error x, w2) => (.error x, w2)
      | (.ok k, w2) => sampleCells p n (i + 1) (f.putCell i (bitOfCount p k)) w2

/-- The acknowledgment and the forty cells, after the request pulse (R100). -/
def acknowledgeAndSample (p : Config.Platform) (w : World) : Except Failure Frame × World :=
  match levelWait p (ackhWait p) w with
  | (.error x, w1) => (.error x, w1)
  | (.ok _, w1) =>
    match levelWait p (acklWait p) w1 with
    | (.error x, w2) => (.error x, w2)
    | (.ok _, w2) => sampleCells p p.nBits 0 Frame.zero w2

/-- `ReadRaw()` (R100). -/
def readRaw (p : Config.Platform) (w : World) : Except Failure Frame × World :=
  match answerSet p w with
  | .err e => (.error (.pinError e), w.pinSet p .low)
  | .ok =>
    let w1 := (w.pinSet p .low).delay p.tWakeUs
    match answerSet p w1 with
    | .err e => (.error (.pinError e), w1.pinSet p .high)
    | .ok => acknowledgeAndSample p ((w1.pinSet p .high).delay p.tReqUs)

/-- What is made of a sampled frame: checksum, decode, range check, in that order (R114, R115). -/
def validateFrame (p : Config.Platform) (v : Variant) (f : Frame) : Except Failure (Word × Word) :=
  if f.checksum p ≠ f.transmitted p then .error (.checksumMismatch (f.transmitted p) (f.checksum p))
  else if humidityOutOfRange p (decodeFrame p v f).1 then .error .invalidData
  else .ok (decodeFrame p v f)

/-- `Read(var)` (R115): the guard is resumed on every path, exactly once. -/
def readAll (p : Config.Platform) (v : Variant) (w : World) : Except Failure (Word × Word) × World :=
  match readRaw p w.suspend with
  | (.error x, w1) => (.error x, w1.resume)
  | (.ok f, w1) => (validateFrame p v f, w1.resume)

end Machine
end Sys2Proof
end

