-- ==== Sys2Proof/Machine/Script.lean ====
section
/-! DEFINITION. The notation of host scripts and environment scripts (30_encoding.md R77, R78), as turns and as
oracles. -/

namespace Sys2Proof
namespace Machine

/-- `READ.A` or `READ.B`: the host's write of the command word (R77). -/
def scriptRead (v : Variant) : Turn :=
  match v with
  | .a => .host (.regWrite 0 0x00000001)
  | .b => .host (.regWrite 0 0x00000003)

/-- `NOP` (R77). -/
def scriptNop : Turn := .host (.regWrite 0 0x00000000)

/-- `FETCH`: `RD STATUS`, `RD HUM`, `RD TEMP`, `RD ERRINFO`, `RD PINERR` (R77). -/
def scriptFetch : List Turn :=
  [.host (.regRead 1), .host (.regRead 2), .host (.regRead 3), .host (.regRead 4), .host (.regRead 5)]

/-- `READ! A` or `READ! B`: the source's blocking `read()` (R77, 45_host_commands.md R150). -/
def scriptBlockingRead (v : Variant) : List Turn := scriptRead v :: .host .waitDone :: scriptFetch

/-- The bits of a byte, the most significant first. -/
def bitsOfByte (b : Byte) : List Bool :=
  [b.getLsbD 7, b.getLsbD 6, b.getLsbD 5, b.getLsbD 4, b.getLsbD 3, b.getLsbD 2, b.getLsbD 1, b.getLsbD 0]

/-- The two segments of one cell: the Low gap, then the High pulse whose length is the bit (R78). -/
def cellSegments (gap short long : Nat) (b : Bool) : List (Level × Nat) :=
  [(.low, gap), (.high, if b then long else short)]

/-- `CELLS(b0 b1 b2 b3 b4; gap g, zero z, one o)` (R78): `short` is the pulse of a 0, `long` that of a 1. -/
def cells (f : Frame) (gap short long : Nat) : List (Level × Nat) :=
  ([f.b0, f.b1, f.b2, f.b3, f.b4].flatMap bitsOfByte).flatMap (cellSegments gap short long)

end Machine
end Sys2Proof
end

