-- ==== Sys2Proof/Safety.lean ====
section
/-! DEFINITION. What a safe run of SWSPE is, in the terms the claims use: the invariants of 10_state.md R36, the guard
bracket (44_interrupt_guard.md R137), the line (70_reset_and_hazards.md R190), nominal time (R194), where a published
reading comes from (42_checksum_validate.md R114), and the shape of a read's trace (20_memory.md R51). -/

namespace Sys2Proof
namespace Machine

/-- The phases in which the guard is held (R36(c)). -/
def guardHeld : Phase → Bool
  | .wake => true
  | .req => true
  | .ackh => true
  | .ackl => true
  | .bith => true
  | .bitl => true
  | .store => true
  | .gres => true
  | .idle => false
  | .gsus => false
  | .csum => false
  | .dec => false
  | .rchk => false
  | .pub => false

/-- The configuration has the values of R3 wherever R3 gives one; `PEW`, `REG_BASE`, the stride and
`SAME_INSTANT_POLLS_AGREE` are open. -/
structure R3Values (p : Config.Platform) : Prop where
  pollPeriodUs : p.pollPeriodUs = 1
  tWakeUs : p.tWakeUs = 3000
  tReqUs : p.tReqUs = 25
  toAckHigh : p.toAckHigh = 85
  toAckLow : p.toAckLow = 85
  toBitHigh : p.toBitHigh = 55
  toBitLow : p.toBitLow = 70
  bitThreshold : p.bitThreshold = 30
  nBits : p.nBits = 40
  frameBytes : p.frameBytes = 5
  humMin : p.humMin = 0x00000000
  humMax : p.humMax = 0x42C80000
  bScale : p.bScale = 10
  bSignMask : p.bSignMask = 0x80
  bMagMask : p.bMagMask = 0x7F

/-- The largest bound of a wait. -/
def maxBound (p : Config.Platform) : Nat := max (max p.toAckHigh p.toAckLow) (max p.toBitHigh p.toBitLow)

/-- The largest `tick` a phase is entered or repeated with: a wait's bound; elsewhere the one tick more that a failed
wait leaves (10_state.md R16). -/
def tickLimit (p : Config.Platform) : Phase → Nat
  | .ackh => p.toAckHigh
  | .ackl => p.toAckLow
  | .bith => p.toBitHigh
  | .bitl => p.toBitLow
  | .idle => maxBound p + 1
  | .gsus => maxBound p + 1
  | .wake => maxBound p + 1
  | .req => maxBound p + 1
  | .store => maxBound p + 1
  | .gres => maxBound p + 1
  | .csum => maxBound p + 1
  | .dec => maxBound p + 1
  | .rchk => maxBound p + 1
  | .pub => maxBound p + 1

/-- R36, items (a) to (g); item (h) holds by the type of `ph`. -/
structure R36 (s : State) : Prop where
  busy : s.BUSY = true ↔ s.ph ≠ .idle
  busyOrDone : ¬(s.BUSY = true ∧ s.DONE = true)
  guard : s.g = true ↔ s.ph ∈ [.wake, .req, .ackh, .ackl, .bith, .bitl, .store, .gres]
  errDone : s.ERR ≠ .none → s.DONE = true
  reading : s.HUM ≠ 0 ∨ s.TEMP ≠ 0 → s.DONE = true ∧ s.ERR = .none
  errinfo : s.ERRINFO ≠ 0 → s.ERR = .checksumMismatch
  pinerr : s.PINERR ≠ 0 → s.ERR = .pinError
  counters : s.bit.toNat ≤ 39 ∧ s.tick.toNat ≤ 86 ∧ s.el.toNat ≤ 85

/-- The invariant of the registers: R36 with what makes it inductive, under any configuration the rules work for. -/
structure RegInv (s : State) : Prop where
  config : s.platform.wf = true
  busy : s.BUSY = true ↔ s.ph ≠ .idle
  busyNotDone : s.BUSY = true → s.DONE = false
  guard : s.g = guardHeld s.ph
  errDone : s.ERR ≠ .none → s.DONE = true
  reading : s.HUM ≠ 0 ∨ s.TEMP ≠ 0 → s.DONE = true ∧ s.ERR = .none
  errinfo : s.ERRINFO ≠ 0 → s.ERR = .checksumMismatch
  pinerr : s.PINERR ≠ 0 → s.ERR = .pinError
  bitLimit : s.bit.toNat ≤ 39
  tickLimit : s.tick.toNat ≤ tickLimit s.platform s.ph
  elLimit : s.el.toNat ≤ maxBound s.platform
  /-- A failure is pending only on its way to the host and after (60_exceptions.md R161). -/
  pending : s.err.tag ≠ .none → s.ph = .gres ∨ s.ph = .pub ∨ s.ph = .idle
  /-- The failures of validation are raised after the guard was resumed (R161). -/
  resumeBeforeValidation : s.ph = .gres → s.err.tag ≠ .checksumMismatch ∧ s.err.tag ≠ .invalidData

/-- Is the event one of the guard port's? -/
def isGuardEvent : Event → Bool
  | .guardSuspend => true
  | .guardResume => true
  | .pinSet _ _ => false
  | .pinRead _ => false
  | .delay _ => false

/-- The trace, newest event first, of a read whose guard is held: one SUSPEND, before everything else. -/
def openTrace : List Event → Bool
  | [] => false
  | [e] => e == .guardSuspend
  | e :: es => !isGuardEvent e && openTrace es

/-- The trace, newest event first, of a read whose guard was resumed: RESUME after everything else. -/
def closedTrace : List Event → Bool
  | .guardResume :: es => openTrace es
  | _ => false

/-- The guard bracket (R137): before GSUS no event; while the guard is held one SUSPEND, first; after GRES one
SUSPEND, first, and one RESUME, last. -/
structure BracketInv (s : State) : Prop where
  before : s.ph = .gsus → s.world.trace = []
  held : guardHeld s.ph = true → openTrace s.world.trace = true
  after : s.ph = .csum ∨ s.ph = .dec ∨ s.ph = .rchk ∨ s.ph = .pub → closedTrace s.world.trace = true
  finished : s.ph = .idle → s.DONE = true → closedTrace s.world.trace = true

/-- The level the last accepted `PinSet` of a trace, newest event first, asked for (10_state.md R33). -/
def lastAccepted : List Event → Option Level
  | [] => none
  | .pinSet l .ok :: _ => some l
  | .pinSet _ (.err _) :: es => lastAccepted es
  | .guardSuspend :: es => lastAccepted es
  | .guardResume :: es => lastAccepted es
  | .pinRead _ :: es => lastAccepted es
  | .delay _ :: es => lastAccepted es

/-- Every `PinRead` of a trace, newest event first, came while the pin was asked to output High
(20_memory.md R54). -/
def pollsAfterRelease : List Event → Bool
  | [] => true
  | .pinRead _ :: es => lastAccepted es == some .high && pollsAfterRelease es
  | .pinSet _ _ :: es => pollsAfterRelease es
  | .guardSuspend :: es => pollsAfterRelease es
  | .guardResume :: es => pollsAfterRelease es
  | .delay _ :: es => pollsAfterRelease es

/-- The line (R54, R190): after a successful REQ the pin is asked to output High to the end of the read and beyond;
a failure that was not a PinError of WAKE or REQ leaves it so. -/
structure LineInv (s : State) : Prop where
  polls : pollsAfterRelease s.world.trace = true
  noPollYet : s.ph = .gsus ∨ s.ph = .wake ∨ s.ph = .req → s.world.reads = 0
  sampling : s.ph ∈ [.ackh, .ackl, .bith, .bitl, .store, .csum, .dec, .rchk] →
    lastAccepted s.world.trace = some .high
  failing : s.ph = .gres ∨ s.ph = .pub → (s.err.tag ≠ .pinError ∨ s.world.reads ≠ 0) →
    lastAccepted s.world.trace = some .high
  finished : s.ph = .idle → s.DONE = true → (s.ERR ≠ .pinError ∨ s.world.reads ≠ 0) →
    lastAccepted s.world.trace = some .high

/-- `Delay` events in a trace. -/
def delayCount (es : List Event) : Nat :=
  es.countP (fun e => match e with | .delay _ => true | .pinSet _ _ => false | .pinRead _ => false
                                   | .guardSuspend => false | .guardResume => false)

/-- `PinSet` events in a trace. -/
def setCount (es : List Event) : Nat :=
  es.countP (fun e => match e with | .pinSet _ _ => true | .delay _ => false | .pinRead _ => false
                                   | .guardSuspend => false | .guardResume => false)

/-- `PinRead` events in a trace. -/
def readCount (es : List Event) : Nat :=
  es.countP (fun e => match e with | .pinRead _ => true | .delay _ => false | .pinSet _ _ => false
                                   | .guardSuspend => false | .guardResume => false)

/-- The world `w` is `w0` with the events `es`, the newest first, recorded, counted and their time passed (R50, R53, R55).
The turns to come, the values the host has read and the liveness budget are as before. -/
structure Gained (w0 : World) (es : List Event) (w : World) : Prop where
  trace : w.trace = es ++ w0.trace
  tau : w.tau = w0.tau + delaySum es
  sets : w.sets = w0.sets + setCount es
  reads : w.reads = w0.reads + readCount es
  sched : w.sched = w0.sched
  seen : w.seen = w0.seen
  answers : w.answers = w0.answers

/-- Nominal time is the sum of the trace's delays (R55), and the ordinals the reference oracle uses count the trace's
pin transactions (R53). -/
structure ClockInv (s : State) : Prop where
  tau : s.world.tau = delaySum s.world.trace
  sets : s.world.sets = setCount s.world.trace
  reads : s.world.reads = readCount s.world.trace

/-- The nominal times at which an outcome can be published (R194). -/
def outcomeTime (tag : ErrTag) (tau : Nat) : Prop :=
  match tag with
  | .none => 3025 ≤ tau ∧ tau ≤ 8195
  | .notPresent => 3111 ≤ tau ∧ tau ≤ 3196
  | .checksumMismatch => 3025 ≤ tau ∧ tau ≤ 8195
  | .invalidData => 3025 ≤ tau ∧ tau ≤ 8195
  | .timeout => 3081 ≤ tau ∧ tau ≤ 8196
  | .pinError => tau = 0 ∨ tau = 3000 ∨ (3025 ≤ tau ∧ tau ≤ 8195)

/-- Where nominal time and the counts of transactions can be in each phase (R194, R195; 41_protocol_engine.md R101). -/
def timeOfPhase (s : State) : Prop :=
  match s.ph with
  | .gsus => s.world.tau = 0 ∧ s.world.sets = 0 ∧ s.world.reads = 0
  | .wake => s.world.tau = 0 ∧ s.world.sets = 0 ∧ s.world.reads = 0
  | .req => s.world.tau = 3000 ∧ s.world.sets = 1 ∧ s.world.reads = 0
  | .ackh => s.world.tau = 3025 + s.tick.toNat ∧ s.world.reads = s.tick.toNat
  | .ackl => 3025 + s.tick.toNat ≤ s.world.tau ∧ s.world.tau ≤ 3110 + s.tick.toNat ∧
      s.world.reads ≤ 86 + s.tick.toNat
  | .bith => 3025 + s.tick.toNat ≤ s.world.tau ∧
      s.world.tau ≤ 3195 + 125 * s.bit.toNat + s.tick.toNat ∧
      s.world.reads ≤ 172 + 127 * s.bit.toNat + s.tick.toNat
  | .bitl => 3025 + s.tick.toNat ≤ s.world.tau ∧
      s.world.tau ≤ 3250 + 125 * s.bit.toNat + s.tick.toNat ∧
      s.world.reads ≤ 228 + 127 * s.bit.toNat + s.tick.toNat
  | .store => 3025 ≤ s.world.tau ∧ s.world.tau ≤ 3320 + 125 * s.bit.toNat ∧
      s.world.reads ≤ 299 + 127 * s.bit.toNat
  | .gres => outcomeTime s.err.tag s.world.tau
  | .csum => 3025 ≤ s.world.tau ∧ s.world.tau ≤ 8195
  | .dec => 3025 ≤ s.world.tau ∧ s.world.tau ≤ 8195
  | .rchk => 3025 ≤ s.world.tau ∧ s.world.tau ≤ 8195
  | .pub => outcomeTime s.err.tag s.world.tau
  | .idle => s.DONE = true → outcomeTime s.ERR s.world.tau

/-- Nominal time (R194) and the bounds on a read's transactions (R101): at most 2 `PinSet`, 5252 `PinRead` and
5173 `Delay`. -/
structure TimeInv (s : State) : Prop where
  phase : timeOfPhase s
  sets : s.world.sets ≤ 2
  reads : s.world.reads ≤ 5252
  delays : (s.world.tau = 0 ∧ delayCount s.world.trace = 0) ∨
    (s.world.tau = 3000 ∧ delayCount s.world.trace = 1) ∨
    (3025 ≤ s.world.tau ∧ s.world.tau ≤ 8196 ∧ s.world.tau = 3023 + delayCount s.world.trace)

/-- What a failure's tag, or none, says of the frame that was sampled (R112, R114, R158, R159). -/
def frameOutcome (p : Config.Platform) (tag : ErrTag) (v : Variant) (f : Frame) : Prop :=
  match tag with
  | .none => f.checksum p = f.b4 ∧ humidityOutOfRange p (decodeFrame p v f).1 = false
  | .checksumMismatch => f.checksum p ≠ f.b4
  | .invalidData => f.checksum p = f.b4 ∧ humidityOutOfRange p (decodeFrame p v f).1 = true
  | .notPresent => True
  | .timeout => True
  | .pinError => True

/-- Where validation stands in each phase, and where a published outcome came from (R114, 45_host_commands.md
R149(d)). -/
structure DataInv (s : State) : Prop where
  summed : s.ph = .dec ∨ s.ph = .rchk → s.f.checksum s.platform = s.f.b4
  decoded : s.ph = .rchk → (s.hum, s.temp) = decodeFrame s.platform s.var s.f
  validated : s.ph = .pub → frameOutcome s.platform s.err.tag s.var s.f ∧
    (s.err.tag = .none → (s.hum, s.temp) = decodeFrame s.platform s.var s.f) ∧
    (s.err.tag = .checksumMismatch → s.err.t = s.f.b4 ∧ s.err.c = s.f.checksum s.platform)
  published : s.ph = .idle → s.DONE = true → frameOutcome s.platform s.ERR s.var s.f ∧
    (s.ERR = .none → (s.HUM, s.TEMP) = decodeFrame s.platform s.var s.f) ∧
    (s.ERR = .checksumMismatch → s.ERRINFO = s.f.checksum s.platform ++ s.f.b4)

/-- The world after `k` non-matching polls of a wait, each with its delay (40_level_wait.md R82). -/
def afterPolls (p : Config.Platform) : Nat → World → World
  | 0, w => w
  | k + 1, w => afterPolls p k ((w.pinRead p).delay p.pollPeriodUs)

/-- The answers to the polls of one wait that returns `k` (R82). -/
def waitAnswers (target : Level) (k : Nat) : List ReadAnswer :=
  List.replicate k (.ok (otherLevel target)) ++ [.ok target]

/-- The answers to the polls of the cells from index `i` on, `n` of them: each a gap and a pulse (30_encoding.md R67). -/
def cellAnswers (gap count : Nat → Nat) : Nat → Nat → List ReadAnswer
  | 0, _ => []
  | n + 1, i => waitAnswers .high (gap i) ++ (waitAnswers .low (count i) ++ cellAnswers gap count n (i + 1))

/-- The answers by which the pin spells an acknowledgment and forty cells (R67). -/
def spelling (p : Config.Platform) (ackHigh ackLow : Nat) (gap count : Nat → Nat) : List ReadAnswer :=
  waitAnswers .high ackHigh ++ (waitAnswers .low ackLow ++ cellAnswers gap count p.nBits 0)

/-- What a read's result leaves in the result registers (42_checksum_validate.md R113). -/
def publishes (r : Except Failure (Word × Word)) (s : State) : Prop :=
  match r with
  | .ok (h, t) => s.ERR = .none ∧ s.HUM = h ∧ s.TEMP = t ∧ s.ERRINFO = 0 ∧ s.PINERR = 0
  | .error (.checksumMismatch t c) =>
      s.ERR = .checksumMismatch ∧ s.HUM = 0 ∧ s.TEMP = 0 ∧ s.ERRINFO = c ++ t ∧ s.PINERR = 0
  | .error (.pinError e) =>
      s.ERR = .pinError ∧ s.HUM = 0 ∧ s.TEMP = 0 ∧ s.ERRINFO = 0 ∧ s.PINERR = e
  | .error .notPresent => s.ERR = .notPresent ∧ s.HUM = 0 ∧ s.TEMP = 0 ∧ s.ERRINFO = 0 ∧ s.PINERR = 0
  | .error .timeout => s.ERR = .timeout ∧ s.HUM = 0 ∧ s.TEMP = 0 ∧ s.ERRINFO = 0 ∧ s.PINERR = 0
  | .error .invalidData => s.ERR = .invalidData ∧ s.HUM = 0 ∧ s.TEMP = 0 ∧ s.ERRINFO = 0 ∧ s.PINERR = 0

/-- The liveness premise of 70_reset_and_hazards.md R192: every transaction is answered. -/
def Live (s : State) : Prop := s.world.answers = none

/-- No host step is to come: the engine runs alone. -/
def EngineAlone (s : State) : Prop := s.world.sched = []

/-- The phases `ph` can move to in one step from each phase (10_state.md R17, 41_protocol_engine.md R90). -/
def nextPhases : Phase → List Phase
  | .idle => [.idle, .gsus]
  | .gsus => [.wake]
  | .wake => [.req, .gres]
  | .req => [.ackh, .gres]
  | .ackh => [.ackh, .ackl, .gres]
  | .ackl => [.ackl, .bith, .gres]
  | .bith => [.bith, .bitl, .gres]
  | .bitl => [.bitl, .store, .gres]
  | .store => [.bith, .gres]
  | .gres => [.csum, .pub]
  | .csum => [.dec, .pub]
  | .dec => [.rchk]
  | .rchk => [.pub]
  | .pub => [.idle]

/-- Everything but `err.e` of two states is the same, and `err.e` too where it means something (R19). -/
structure SameButErrE (s t : State) : Prop where
  rest : { s with err := { s.err with e := 0 } } = { t with err := { t.err with e := 0 } }
  meaning : s.err.tag = .pinError → s.err.e = t.err.e

/-- Two outcomes of a run that agree: both states, equal but for `err.e`, or the same refusal. -/
def sameOutcome : Host.Outcome State Fault Refusal → Host.Outcome State Fault Refusal → Prop
  | .next s, .next t => SameButErrE s t
  | .refused r, .refused q => r = q
  | .fault r, .fault q => r = q
  | .next _, .refused _ => False
  | .next _, .fault _ => False
  | .refused _, .next _ => False
  | .refused _, .fault _ => False
  | .fault _, .next _ => False
  | .fault _, .refused _ => False

/-- The waits of a read, in order: target and bound (R51). -/
def readWaits : List (Level × Nat) :=
  (.high, 85) :: (.low, 85) :: (List.replicate 40 [(Level.high, 55), (Level.low, 70)]).flatten

/-- The part of a trace, in issue order, from the waits on (R51): the waits still to come, the first of them `k` polls
in. Every wait but the last is a matching one; the read ends at a failed poll, at an exceeded bound, or after the last
wait; then comes RESUME and nothing more. -/
def waitsShape : List (Level × Nat) → Nat → List Event → Bool
  | [], _, es => es == [.guardResume]
  | (_, b) :: _, k, [.guardResume] => k == b + 1
  | (t, b) :: ws, k, .pinRead (.ok l) :: es =>
      decide (k ≤ b) &&
        (if l = t then waitsShape ws 0 es
         else match es with
          | .delay 1 :: es' => waitsShape ((t, b) :: ws) (k + 1) es'
          | _ => false)
  | (_, b) :: _, k, .pinRead (.err _) :: es => decide (k ≤ b) && es == [.guardResume]
  | _ :: _, _, _ => false

/-- The shape of every trace of one read, in issue order (20_memory.md R51). -/
def traceShape : List Event → Bool
  | [.guardSuspend, .pinSet .low (.err _), .guardResume] => true
  | [.guardSuspend, .pinSet .low .ok, .delay 3000, .pinSet .high (.err _), .guardResume] => true
  | .guardSuspend :: .pinSet .low .ok :: .delay 3000 :: .pinSet .high .ok :: .delay 25 :: es =>
      waitsShape readWaits 0 es
  | _ => false

end Machine
end Sys2Proof
end

