-- ==== Sys2Proof/Certificates/Slice0/Obligations.lean ====
section
/-! DEFINITION. The statements about the model, for the provers. A statement about `exec` gives the whole next state, so it
is at once the instruction's result, its completion and its frame: a field it does not name is unchanged. SWSPE has no
memory (10_state.md R32), so no frame speaks of one. The field `world` holds what is outside the hardware and the
record of the run; a statement says which events it gains. -/

open Sys2Proof Sys2Proof.Machine

/-! ## The configuration -/

/-- R3: the parameters are one record carried in State; after reset it has the table's values, the open ones being the
model's choice (log entry 1) and not stated; no step changes any of them; and the table's values are ones the rules
work for, whatever the open ones within R3's range. -/
def Obligations.ConfigurationHasTheValuesOfR3 : Prop :=
  R3Values State.reset.platform ∧
  (∀ s t : State, step s = .next t → t.platform = s.platform) ∧
  (∀ p : Config.Platform, R3Values p → 1 ≤ p.pew → p.pew ≤ 32 → 4 ≤ p.regStride → p.wf = true)

/-! ## Encoding -/

/-- R61, R62: the command word decodes to exactly three commands; a word with any of bits 31:2 set is reserved. -/
def Obligations.CommandWordsDecodeToThreeCommands : Prop :=
  ∀ w : Word,
    (decodeCommand w = .ok .readA ↔ w = 0x00000001) ∧
    (decodeCommand w = .ok .readB ↔ w = 0x00000003) ∧
    ((∃ v, decodeCommand w = .ok (.nop v)) ↔ w &&& 0xFFFFFFFD = 0x00000000) ∧
    (decodeCommand w = .error .reservedCommand ↔ 4 ≤ w.toNat) ∧
    (∀ i, decodeCommand w = .ok i → i = .readA ∨ i = .readB ∨ ∃ v, i = .nop v)

/-- R64: the micro-operation of each selector, by the table's match and mask; nothing for IDLE, and nothing for the
codes 14 and 15. -/
def Obligations.SelectorsDecodeByTheTable : Prop :=
  ∀ (sel : BitVec 5) (v : Variant), v = Variant.ofBool (sel.getLsbD 0) →
    (decodeSelector sel = .error .idleSelector ↔ sel &&& 0x1E = 0x00) ∧
    (decodeSelector sel = .ok (.gsus v) ↔ sel &&& 0x1E = 0x02) ∧
    (decodeSelector sel = .ok (.wake v) ↔ sel &&& 0x1E = 0x04) ∧
    (decodeSelector sel = .ok (.req v) ↔ sel &&& 0x1E = 0x06) ∧
    (decodeSelector sel = .ok (.ackh v) ↔ sel &&& 0x1E = 0x08) ∧
    (decodeSelector sel = .ok (.ackl v) ↔ sel &&& 0x1E = 0x0A) ∧
    (decodeSelector sel = .ok (.bith v) ↔ sel &&& 0x1E = 0x0C) ∧
    (decodeSelector sel = .ok (.bitl v) ↔ sel &&& 0x1E = 0x0E) ∧
    (decodeSelector sel = .ok (.store v) ↔ sel &&& 0x1E = 0x10) ∧
    (decodeSelector sel = .ok (.gres v) ↔ sel &&& 0x1E = 0x12) ∧
    (decodeSelector sel = .ok (.csum v) ↔ sel &&& 0x1E = 0x14) ∧
    (decodeSelector sel = .ok .decA ↔ sel &&& 0x1F = 0x16) ∧
    (decodeSelector sel = .ok .decB ↔ sel &&& 0x1F = 0x17) ∧
    (decodeSelector sel = .ok (.rchk v) ↔ sel &&& 0x1E = 0x18) ∧
    (decodeSelector sel = .ok (.pub v) ↔ sel &&& 0x1E = 0x1A) ∧
    (decodeSelector sel = .error .noSuchPhase ↔ 0x1C ≤ sel.toNat)

/-- A few words written out from the spec's tables, read through the table's numbering (95_test_vectors.md V-E5,
V-E6). -/
def Obligations.WrittenOutWordsDecode : Prop :=
  decodeTableWord 32 0b00000000000000000000000000000001 = some .readA ∧
  decodeTableWord 32 0b00000000000000000000000000000011 = some .readB ∧
  decodeTableWord 32 0b00000000000000000000000000000010 = some (.nop .b) ∧
  decodeTableWord 32 0b00000000000000000000000000000101 = none ∧
  decodeTableWord 8 0b00010 = some (.gsus .a) ∧
  decodeTableWord 8 0b01001 = some (.ackh .b) ∧
  decodeTableWord 8 0b10000 = some (.store .a) ∧
  decodeTableWord 8 0b10110 = some .decA ∧
  decodeTableWord 8 0b10111 = some .decB ∧
  decodeTableWord 8 0b11010 = some (.pub .a) ∧
  decodeTableWord 8 0b00001 = none

/-- Decoding and encoding agree both ways: the decoder reads every instruction back from its own encoding, with every
operand bit, and accepts no other bytes for it. -/
def Obligations.DecodeAndEncodeAgree : Prop :=
  ∀ (bs : List Byte) (i : Instr), decode bs = .ok i ↔ bs = encode i

/-! ## The step -/

/-- R6, R64: an engine turn runs the instruction its selector decodes to. The turn is taken off the schedule, and where
the environment answers only so many micro-operations more, a pin phase uses one up (the model's own rendering of
R192, log entry 7). -/
def Obligations.EngineStepRunsTheSelectedInstruction : Prop :=
  ∀ (s : State) (i : Instr) (rest : List Turn),
    s.world.sched = .engine :: rest → decodeSelector (selector s) = .ok i →
      (s.world.answers = none →
        step s = exec i (s.setWorld { s.world with sched := rest })) ∧
      (∀ n, s.world.answers = some (n + 1) → usesPin s.ph = true →
        step s = exec i (s.setWorld { s.world with sched := rest, answers := some n })) ∧
      (usesPin s.ph = false → step s = exec i (s.setWorld { s.world with sched := rest }))

/-- R49, R64: with no turn listed the engine runs; in IDLE no micro-operation executes and nothing changes. -/
def Obligations.EngineRunsAloneAndIdlesInIdle : Prop :=
  ∀ s : State, EngineAlone s →
    (s.ph = .idle → step s = .next s) ∧
    (∀ i, Live s → decodeSelector (selector s) = .ok i → step s = exec i s)

/-- R140: the host's write to CMD executes the command its word decodes to, by register number and through the bus. -/
def Obligations.CommandWriteRunsTheDecodedCommand : Prop :=
  ∀ (s : State) (w : Word) (i : Instr) (rest : List Turn), decodeCommand w = .ok i →
    (s.world.sched = .host (.regWrite 0 w) :: rest →
      step s = exec i (s.setWorld { s.world with sched := rest })) ∧
    (s.world.sched = .host (.busWrite s.platform.regBase 4 w) :: rest →
      step s = exec i (s.setWorld { s.world with sched := rest }))

/-- R192, U7: where a transaction is never answered the read never ends: `BUSY` stays 1 and the guard stays held,
for any number of steps. The model's rendering, log entry 7. -/
def Obligations.UnansweredTransactionHangsTheRead : Prop :=
  ∀ (s : State) (n : Nat), RegInv s → EngineAlone s → s.world.answers = some 0 → usesPin s.ph = true →
    Sys2Proof.core.run n s = .next s ∧ s.BUSY = true ∧ s.g = true

/-! ## Host commands and register access -/

/-- R141: a READ in IDLE is accepted. Every register is written but `g`, and `err.e`, which is left as it is. -/
def Obligations.ReadInIdleIsAccepted : Prop :=
  ∀ s : State, s.ph = .idle →
    ∀ (i : Instr) (v : Variant), (i = .readA ∧ v = .a) ∨ (i = .readB ∧ v = .b) →
    exec i s = .next
      { f := ⟨0x00, 0x00, 0x00, 0x00, 0x00⟩, el := 0, hum := 0, temp := 0, ph := .gsus, bit := 0, tick := 0,
        var := v, err := ⟨.none, 0, 0, s.err.e⟩, g := s.g, BUSY := true, DONE := false, ERR := .none,
        HUM := 0x00000000, TEMP := 0x00000000, ERRINFO := 0, PINERR := 0x00000000,
        platform := s.platform,
        world := { s.world with trace := [], sets := 0, reads := 0, tau := 0 } }

/-- R143: while a read is in progress every write to CMD is ignored; no register changes and nothing is queued. -/
def Obligations.CommandsDuringAReadAreIgnored : Prop :=
  ∀ s : State, s.ph ≠ .idle →
    exec .readA s = .next s ∧ exec .readB s = .next s ∧
    (∀ (w : Word) (rest : List Turn), s.world.sched = .host (.regWrite 0 w) :: rest →
      step s = .next { s with world := { s.world with sched := rest } })

/-- R142: a write to CMD with bits 31:2 and bit 0 zero is a NOP and changes nothing, whatever its VSEL bit and whatever
the state. -/
def Obligations.NopChangesNothing : Prop :=
  ∀ s : State,
    (∀ v : Variant, exec (.nop v) s = .next s) ∧
    (∀ (w : Word) (rest : List Turn), s.world.sched = .host (.regWrite 0 w) :: rest →
      w.extractLsb' 2 30 = 0 → w.getLsbD 0 = false →
        step s = .next { s with world := { s.world with sched := rest } })

/-- R144: a reserved command word is ignored in every state, whatever its bits 1:0. -/
def Obligations.ReservedCommandWordIsIgnored : Prop :=
  ∀ (s : State) (w : Word) (rest : List Turn),
    s.world.sched = .host (.regWrite 0 w) :: rest → w.extractLsb' 2 30 ≠ 0 →
      step s = .next { s with world := { s.world with sched := rest } }

/-- R145: what the host reads from each register, and that a read changes nothing but the record of what was read.
STATUS has `BUSY` in bit 0, `DONE` in bit 1, `ERR` in bits 6:4 and zeros elsewhere. Nothing but the host-visible
registers shows in what is read. -/
def Obligations.RegisterReadsReturnTheirValues : Prop :=
  ∀ (s : State) (idx : Nat) (rest : List Turn), s.world.sched = .host (.regRead idx) :: rest → idx ≤ 5 →
    ∃ v : Word,
      step s = .next { s with world := { s.world with sched := rest, seen := (idx, v) :: s.world.seen } } ∧
      (idx = 0 → v = 0x00000000) ∧
      (idx = 1 → v.toNat = s.BUSY.toNat + 2 * s.DONE.toNat + 16 * (errCode s.ERR).toNat) ∧
      (idx = 2 → v = s.HUM) ∧
      (idx = 3 → v = s.TEMP) ∧
      (idx = 4 → v.toNat = s.ERRINFO.toNat) ∧
      (idx = 5 → v.toNat = s.PINERR.toNat % 2 ^ s.platform.pew) ∧
      (∀ t : State, t.BUSY = s.BUSY → t.DONE = s.DONE → t.ERR = s.ERR → t.HUM = s.HUM → t.TEMP = s.TEMP →
        t.ERRINFO = s.ERRINFO → t.PINERR = s.PINERR → t.platform = s.platform → registerValue t idx = some v)

/-- R43(b), R30: a write to registers 1 to 5 has no effect; register 6 and above do not exist and an access to one is
refused. -/
def Obligations.OtherWritesHaveNoEffect : Prop :=
  ∀ (s : State) (idx : Nat) (v : Word) (rest : List Turn),
    (s.world.sched = .host (.regWrite idx v) :: rest → 1 ≤ idx → idx ≤ 5 →
      step s = .next { s with world := { s.world with sched := rest } }) ∧
    (s.world.sched = .host (.regWrite idx v) :: rest → 6 ≤ idx → step s = .refused (.noSuchRegister idx)) ∧
    (s.world.sched = .host (.regRead idx) :: rest → 6 ≤ idx → step s = .refused (.noSuchRegister idx))

/-- R40, R41: a bus access is of register `idx` exactly `idx` strides above `REG_BASE`, four bytes wide, `idx` in 0..5;
any other is refused. The stride, open in R3, is 4 in R41's notation. -/
def Obligations.BusAccessSelectsARegister : Prop :=
  ∀ (p : Config.Platform) (addr bytes idx : Nat), 1 ≤ p.regStride →
    (busRegister p addr bytes = .ok idx ↔ bytes = 4 ∧ idx ≤ 5 ∧ addr = p.regBase + p.regStride * idx) ∧
    (bytes ≠ 4 → busRegister p addr bytes = .error (.badAccessWidth bytes)) ∧
    (bytes = 4 → (¬∃ k, k ≤ 5 ∧ addr = p.regBase + p.regStride * k) →
      busRegister p addr bytes = .error (.noSuchAddress addr))

/-- R180, R182: reset in IDLE gives every register its value of R35 and issues no transaction; reset during a read is
refused (U6). The value of `err.e` is the model's own choice, log entry 4, and is not stated here. -/
def Obligations.ResetStepGivesTheResetValues : Prop :=
  ∀ (s : State) (rest : List Turn), s.world.sched = .host .reset :: rest →
    (s.BUSY = true → step s = .refused .resetWhileBusy) ∧
    (s.BUSY = false → ∃ t, step s = .next t ∧
      t.ph = .idle ∧ t.bit = 0 ∧ t.tick = 0 ∧ t.el = 0 ∧ t.f = ⟨0, 0, 0, 0, 0⟩ ∧ t.hum = 0 ∧ t.temp = 0 ∧
      t.var = .a ∧ t.err.tag = .none ∧ t.err.t = 0 ∧ t.err.c = 0 ∧ t.g = false ∧ t.BUSY = false ∧
      t.DONE = false ∧ t.ERR = .none ∧ t.HUM = 0 ∧ t.TEMP = 0 ∧ t.ERRINFO = 0 ∧ t.PINERR = 0 ∧
      statusWord t = 0x00000000 ∧ t.platform = s.platform ∧ t.world.trace = [] ∧ t.world.oracle = s.world.oracle)

/-- R35: the state after reset, the unspecified `err.e` left out. -/
def Obligations.ResetStateHasTheResetValues : Prop :=
  State.reset.ph = .idle ∧ State.reset.bit = 0 ∧ State.reset.tick = 0 ∧ State.reset.el = 0 ∧
  State.reset.f = ⟨0x00, 0x00, 0x00, 0x00, 0x00⟩ ∧ State.reset.hum = 0x00000000 ∧ State.reset.temp = 0x00000000 ∧
  State.reset.var = .a ∧ State.reset.err.tag = .none ∧ State.reset.err.t = 0 ∧ State.reset.err.c = 0 ∧
  State.reset.g = false ∧ State.reset.BUSY = false ∧ State.reset.DONE = false ∧ State.reset.ERR = .none ∧
  State.reset.HUM = 0x00000000 ∧ State.reset.TEMP = 0x00000000 ∧ State.reset.ERRINFO = 0 ∧
  State.reset.PINERR = 0x00000000 ∧ statusWord State.reset = 0x00000000 ∧ State.reset.world.trace = []

/-- R25: the STATUS values that can be read, and no others. -/
def Obligations.StatusTakesOnlyEightValues : Prop :=
  ∀ s : State, RegInv s →
    statusWord s ∈ [0x00000000, 0x00000001, 0x00000002, 0x00000012, 0x00000022, 0x00000032, 0x00000042,
      (0x00000052 : Word)]

/-- R49: what the host observes while a read is in progress is exactly STATUS = 1 and zeros. -/
def Obligations.ReadInProgressShowsNothingElse : Prop :=
  ∀ s : State, RegInv s → s.ph ≠ .idle →
    registerValue s 1 = some 0x00000001 ∧ registerValue s 2 = some 0x00000000 ∧
    registerValue s 3 = some 0x00000000 ∧ registerValue s 4 = some 0x00000000 ∧
    registerValue s 5 = some 0x00000000

/-- R77, R150: WAIT.DONE reads STATUS; with `DONE` set it is over, else an engine step comes and then the same wait
again. The schedule is the model's own (log entry 6). -/
def Obligations.WaitDoneReadsStatusUntilDone : Prop :=
  ∀ (s : State) (rest : List Turn), s.world.sched = .host .waitDone :: rest →
    (s.DONE = true → step s = .next { s with
      world := { s.world with sched := rest, seen := (1, statusWord s) :: s.world.seen } }) ∧
    (s.DONE = false → step s = .next { s with
      world := { s.world with
        sched := .engine :: .host .waitDone :: rest, seen := (1, statusWord s) :: s.world.seen } })

/-! ## The micro-operations -/

/-- R135: GSUS issues SUSPEND, holds the guard and goes on to WAKE. -/
def Obligations.GsusHoldsTheGuard : Prop :=
  ∀ (s : State) (v : Variant),
    exec (.gsus v) s = .next { s with
      g := true, ph := .wake, world := { s.world with trace := .guardSuspend :: s.world.trace } }

/-- R91: WAKE asks for Low and holds `T_WAKE_US`, R3's 3000 microseconds; a pin that fails is raised at once, with no
delay. -/
def Obligations.WakePullsLowOrRaisesPinError : Prop :=
  ∀ (s : State) (v : Variant), s.ph = .wake →
    (s.answerSet = .ok →
      ∃ w, exec (.wake v) s = .next { s with ph := .req, world := w } ∧
        (Gained s.world [.delay s.platform.tWakeUs, .pinSet .low .ok] w ∧
          (R3Values s.platform → s.platform.tWakeUs = 3000))) ∧
    (∀ e, s.answerSet = .err e →
      ∃ w, exec (.wake v) s = .next { s with
          ph := .gres, err := { s.err with tag := .pinError, e := e }, world := w } ∧
        Gained s.world [.pinSet .low (.err e)] w)

/-- R92, R93: REQ asks for High and holds `T_REQ_US`, R3's 25 microseconds; a pin that fails is raised at once.
Nothing else is done to release the line's direction. -/
def Obligations.ReqReleasesOrRaisesPinError : Prop :=
  ∀ (s : State) (v : Variant), s.ph = .req →
    (s.answerSet = .ok →
      ∃ w, exec (.req v) s = .next { s with ph := .ackh, tick := 0, world := w } ∧
        (Gained s.world [.delay s.platform.tReqUs, .pinSet .high .ok] w ∧
          (R3Values s.platform → s.platform.tReqUs = 25))) ∧
    (∀ e, s.answerSet = .err e →
      ∃ w, exec (.req v) s = .next { s with
          ph := .gres, err := { s.err with tag := .pinError, e := e }, world := w } ∧
        Gained s.world [.pinSet .high (.err e)] w)

/-- R94 with R81, R83, R84: one iteration of ACKH, for every answer of the pin; its bound is `TO_ACK_HIGH`, R3's 85,
and any bound the 7 bits of `tick` can pass. -/
def Obligations.AckhWaitsForHigh : Prop :=
  ∀ (s : State) (v : Variant), s.ph = .ackh → s.platform.toAckHigh ≤ 126 → s.tick.toNat ≤ s.platform.toAckHigh →
    (s.answerRead = .ok .high →
      ∃ w, exec (.ackh v) s = .next { s with el := s.tick, tick := 0, ph := .ackl, world := w } ∧
        Gained s.world [.pinRead (.ok .high)] w) ∧
    (s.answerRead = .ok .low → s.tick.toNat + 1 ≤ s.platform.toAckHigh →
      ∃ w, exec (.ackh v) s = .next { s with tick := s.tick + 1, world := w } ∧
        Gained s.world [.delay s.platform.pollPeriodUs, .pinRead (.ok .low)] w) ∧
    (s.answerRead = .ok .low → s.platform.toAckHigh < s.tick.toNat + 1 →
      ∃ w, exec (.ackh v) s = .next { s with
          tick := s.tick + 1, ph := .gres, err := { s.err with tag := .notPresent }, world := w } ∧
        Gained s.world [.delay s.platform.pollPeriodUs, .pinRead (.ok .low)] w) ∧
    (∀ e, s.answerRead = .err e →
      ∃ w, exec (.ackh v) s = .next { s with
          ph := .gres, err := { s.err with tag := .pinError, e := e }, world := w } ∧
        Gained s.world [.pinRead (.err e)] w) ∧
    (R3Values s.platform → s.platform.toAckHigh = 85 ∧ s.platform.pollPeriodUs = 1)

/-- R95 with R81, R83, R84: one iteration of ACKL, for every answer of the pin; its bound is `TO_ACK_LOW`, R3's 85,
and any bound the 7 bits of `tick` can pass. -/
def Obligations.AcklWaitsForLow : Prop :=
  ∀ (s : State) (v : Variant), s.ph = .ackl → s.platform.toAckLow ≤ 126 → s.tick.toNat ≤ s.platform.toAckLow →
    (s.answerRead = .ok .low →
      ∃ w, exec (.ackl v) s = .next { s with el := s.tick, tick := 0, ph := .bith, world := w } ∧
        Gained s.world [.pinRead (.ok .low)] w) ∧
    (s.answerRead = .ok .high → s.tick.toNat + 1 ≤ s.platform.toAckLow →
      ∃ w, exec (.ackl v) s = .next { s with tick := s.tick + 1, world := w } ∧
        Gained s.world [.delay s.platform.pollPeriodUs, .pinRead (.ok .high)] w) ∧
    (s.answerRead = .ok .high → s.platform.toAckLow < s.tick.toNat + 1 →
      ∃ w, exec (.ackl v) s = .next { s with
          tick := s.tick + 1, ph := .gres, err := { s.err with tag := .notPresent }, world := w } ∧
        Gained s.world [.delay s.platform.pollPeriodUs, .pinRead (.ok .high)] w) ∧
    (∀ e, s.answerRead = .err e →
      ∃ w, exec (.ackl v) s = .next { s with
          ph := .gres, err := { s.err with tag := .pinError, e := e }, world := w } ∧
        Gained s.world [.pinRead (.err e)] w) ∧
    (R3Values s.platform → s.platform.toAckLow = 85 ∧ s.platform.pollPeriodUs = 1)

/-- R97 with R81, R83, R84: one iteration of BITH, for every answer of the pin; its bound is `TO_BIT_HIGH`, R3's 55,
and any bound the 7 bits of `tick` can pass. -/
def Obligations.BithWaitsForHigh : Prop :=
  ∀ (s : State) (v : Variant), s.ph = .bith → s.platform.toBitHigh ≤ 126 → s.tick.toNat ≤ s.platform.toBitHigh →
    (s.answerRead = .ok .high →
      ∃ w, exec (.bith v) s = .next { s with el := s.tick, tick := 0, ph := .bitl, world := w } ∧
        Gained s.world [.pinRead (.ok .high)] w) ∧
    (s.answerRead = .ok .low → s.tick.toNat + 1 ≤ s.platform.toBitHigh →
      ∃ w, exec (.bith v) s = .next { s with tick := s.tick + 1, world := w } ∧
        Gained s.world [.delay s.platform.pollPeriodUs, .pinRead (.ok .low)] w) ∧
    (s.answerRead = .ok .low → s.platform.toBitHigh < s.tick.toNat + 1 →
      ∃ w, exec (.bith v) s = .next { s with
          tick := s.tick + 1, ph := .gres, err := { s.err with tag := .timeout }, world := w } ∧
        Gained s.world [.delay s.platform.pollPeriodUs, .pinRead (.ok .low)] w) ∧
    (∀ e, s.answerRead = .err e →
      ∃ w, exec (.bith v) s = .next { s with
          ph := .gres, err := { s.err with tag := .pinError, e := e }, world := w } ∧
        Gained s.world [.pinRead (.err e)] w) ∧
    (R3Values s.platform → s.platform.toBitHigh = 55 ∧ s.platform.pollPeriodUs = 1)

/-- R98 with R81, R83, R84: one iteration of BITL, for every answer of the pin; its bound is `TO_BIT_LOW`, R3's 70,
and any bound the 7 bits of `tick` can pass. -/
def Obligations.BitlWaitsForLow : Prop :=
  ∀ (s : State) (v : Variant), s.ph = .bitl → s.platform.toBitLow ≤ 126 → s.tick.toNat ≤ s.platform.toBitLow →
    (s.answerRead = .ok .low →
      ∃ w, exec (.bitl v) s = .next { s with el := s.tick, tick := 0, ph := .store, world := w } ∧
        Gained s.world [.pinRead (.ok .low)] w) ∧
    (s.answerRead = .ok .high → s.tick.toNat + 1 ≤ s.platform.toBitLow →
      ∃ w, exec (.bitl v) s = .next { s with tick := s.tick + 1, world := w } ∧
        Gained s.world [.delay s.platform.pollPeriodUs, .pinRead (.ok .high)] w) ∧
    (s.answerRead = .ok .high → s.platform.toBitLow < s.tick.toNat + 1 →
      ∃ w, exec (.bitl v) s = .next { s with
          tick := s.tick + 1, ph := .gres, err := { s.err with tag := .timeout }, world := w } ∧
        Gained s.world [.delay s.platform.pollPeriodUs, .pinRead (.ok .high)] w) ∧
    (∀ e, s.answerRead = .err e →
      ∃ w, exec (.bitl v) s = .next { s with
          ph := .gres, err := { s.err with tag := .pinError, e := e }, world := w } ∧
        Gained s.world [.pinRead (.err e)] w) ∧
    (R3Values s.platform → s.platform.toBitLow = 70 ∧ s.platform.pollPeriodUs = 1)

/-- R99, R70: STORE writes the cell's bit, 1 when the count is over `BIT_THRESHOLD`, R3's 30, at byte `bit div 8`,
shift `7 - bit mod 8`, and no other of the frame's 40 bits; then it begins the next cell or, after bit 39, leaves the
loop. -/
def Obligations.StorePlacesOneBit : Prop :=
  ∀ (s : State) (v : Variant), s.platform.nBits = 40 → s.bit.toNat ≤ 39 →
    ∃ g : Frame,
      (∀ byte shift : Nat, byte ≤ 4 → shift ≤ 7 →
        (g.get byte).getLsbD shift =
          if byte = s.bit.toNat / 8 ∧ shift = 7 - s.bit.toNat % 8 then decide (s.platform.bitThreshold < s.el.toNat)
          else (s.f.get byte).getLsbD shift) ∧
      (s.bit.toNat < 39 →
        exec (.store v) s = .next { s with f := g, bit := s.bit + 1, tick := 0, ph := .bith }) ∧
      (s.bit.toNat = 39 → exec (.store v) s = .next { s with f := g, ph := .gres }) ∧
      (R3Values s.platform → s.platform.bitThreshold = 30 ∧ s.platform.nBits = 40)

/-- R136: GRES issues RESUME and lets the guard go, then leads on to validation or, with a failure pending, to its
publication. -/
def Obligations.GresLetsTheGuardGo : Prop :=
  ∀ (s : State) (v : Variant),
    exec (.gres v) s = .next { s with
      g := false, ph := if s.err.tag = .none then .csum else .pub,
      world := { s.world with trace := .guardResume :: s.world.trace } }

/-- R110, R111: CSUM compares byte 4 with the sum of bytes 0 to 3 modulo 256; on a mismatch the failure carries the
transmitted byte first and the computed sum second. -/
def Obligations.CsumComparesTheModularSum : Prop :=
  ∀ (s : State) (v : Variant) (c : Byte), s.ph = .csum → s.platform.frameBytes = 5 →
    c.toNat = (s.f.b0.toNat + s.f.b1.toNat + s.f.b2.toNat + s.f.b3.toNat) % 256 →
    (c = s.f.b4 → exec (.csum v) s = .next { s with ph := .dec }) ∧
    (c ≠ s.f.b4 → exec (.csum v) s = .next { s with
      ph := .pub, err := { s.err with tag := .checksumMismatch, t := s.f.b4, c := c } })

/-- R120, R127: DEC.A stages bytes 0 and 2 as exact numbers; bytes 1 and 3 play no part (R121). -/
def Obligations.DecAStagesWholeNumbers : Prop :=
  ∀ s : State,
    exec .decA s = .next { s with
      hum := f32FromNat s.f.b0.toNat, temp := f32FromNat s.f.b2.toNat, ph := .rchk }

/-- R122: DEC.B stages the two fields as tenths, the temperature in sign and magnitude. -/
def Obligations.DecBStagesTenthsInSignAndMagnitude : Prop :=
  ∀ s : State, R3Values s.platform → ∃ t : Word,
    exec .decB s = .next { s with
      hum := f32Div10 (s.f.b0.toNat * 256 + s.f.b1.toNat), temp := t, ph := .rchk } ∧
    (s.f.b2.getLsbD 7 = false → t = f32Div10 (s.f.b2.toNat % 128 * 256 + s.f.b3.toNat)) ∧
    (s.f.b2.getLsbD 7 = true → t = f32Neg (f32Div10 (s.f.b2.toNat % 128 * 256 + s.f.b3.toNat)))

/-- R112, R75(c): RCHK rejects a humidity outside [`HUM_MIN`, `HUM_MAX`], R3's 0.0 and 100.0, both bounds accepted. On a
decoded frame that is byte 0 over 100 for variant A and the 16-bit field over 1000 for variant B, and no decoded
humidity is below 0.0. -/
def Obligations.RchkRejectsHumidityOutOfRange : Prop :=
  (∀ (s : State) (v : Variant), s.ph = .rchk →
    (f32Lt s.hum s.platform.humMin = true ∨ f32Lt s.platform.humMax s.hum = true →
      exec (.rchk v) s = .next { s with ph := .pub, err := { s.err with tag := .invalidData } }) ∧
    (f32Lt s.hum s.platform.humMin = false → f32Lt s.platform.humMax s.hum = false →
      exec (.rchk v) s = .next { s with ph := .pub })) ∧
  (∀ p : Config.Platform, R3Values p →
    p.humMin = 0x00000000 ∧ p.humMax = 0x42C80000 ∧
    (∀ (f : Frame) (v : Variant), f32Lt (decodeFrame p v f).1 0x00000000 = false) ∧
    (∀ f : Frame, f32Lt 0x42C80000 (decodeFrame p .a f).1 = true ↔ 100 < f.b0.toNat) ∧
    (∀ f : Frame, f32Lt 0x42C80000 (decodeFrame p .b f).1 = true ↔ 1000 < f.b0.toNat * 256 + f.b1.toNat))

/-- R113: PUB hands the outcome to the host and returns to IDLE, all in one step. -/
def Obligations.PubPublishesTheOutcome : Prop :=
  ∀ (s : State) (v : Variant),
    (s.err.tag = .none → exec (.pub v) s = .next { s with
      HUM := s.hum, TEMP := s.temp, ERR := .none, BUSY := false, DONE := true, ph := .idle }) ∧
    (s.err.tag = .checksumMismatch → exec (.pub v) s = .next { s with
      ERR := .checksumMismatch, ERRINFO := s.err.c ++ s.err.t, BUSY := false, DONE := true, ph := .idle }) ∧
    (s.err.tag = .pinError → exec (.pub v) s = .next { s with
      ERR := .pinError, PINERR := s.err.e, BUSY := false, DONE := true, ph := .idle }) ∧
    (s.err.tag = .notPresent ∨ s.err.tag = .invalidData ∨ s.err.tag = .timeout →
      exec (.pub v) s = .next { s with ERR := s.err.tag, BUSY := false, DONE := true, ph := .idle })

/-- R155, R161: what `raise` writes: the code, the values the failure carries, and the way out, by way of GRES from a
pin phase and straight to PUB from CSUM and RCHK. Nothing else is saved. -/
def Obligations.RaiseRecordsTheFailureAndLeaves : Prop :=
  ∀ (s : State) (x : Failure), ∃ (r : ErrReg) (p : Phase),
    raise x s = { s with err := r, ph := p } ∧
    (s.ph ∈ [.wake, .req, .ackh, .ackl, .bith, .bitl] → p = .gres) ∧
    (s.ph = .csum ∨ s.ph = .rchk → p = .pub) ∧
    (x = .notPresent → r = { s.err with tag := .notPresent } ∧ errCode r.tag = 1) ∧
    (∀ t c, x = .checksumMismatch t c →
      r = { s.err with tag := .checksumMismatch, t := t, c := c } ∧ errCode r.tag = 2) ∧
    (x = .invalidData → r = { s.err with tag := .invalidData } ∧ errCode r.tag = 3) ∧
    (x = .timeout → r = { s.err with tag := .timeout } ∧ errCode r.tag = 4) ∧
    (∀ e, x = .pinError e → r = { s.err with tag := .pinError, e := e } ∧ errCode r.tag = 5)

/-! ## Whole-machine rules -/

/-- R11, R13, R15, R18, R19, R20, R26 to R29: which instructions write which registers. Nothing else writes them. -/
def Obligations.EachRegisterHasItsOwnWriters : Prop :=
  ∀ (i : Instr) (s t : State), exec i s = .next t →
    t.platform = s.platform ∧
    (t.f ≠ s.f → i = .readA ∨ i = .readB ∨ ∃ v, i = .store v) ∧
    (t.bit ≠ s.bit → i = .readA ∨ i = .readB ∨ ∃ v, i = .store v) ∧
    (t.hum ≠ s.hum ∨ t.temp ≠ s.temp → i = .readA ∨ i = .readB ∨ i = .decA ∨ i = .decB) ∧
    (t.var ≠ s.var → i = .readA ∨ i = .readB) ∧
    (t.g ≠ s.g → ∃ v, i = .gsus v ∨ i = .gres v) ∧
    (t.el ≠ s.el → i = .readA ∨ i = .readB ∨ ∃ v, i = .ackh v ∨ i = .ackl v ∨ i = .bith v ∨ i = .bitl v) ∧
    (t.err.tag ≠ s.err.tag → i = .readA ∨ i = .readB ∨ ∃ v, i = .wake v ∨ i = .req v ∨ i = .ackh v ∨
      i = .ackl v ∨ i = .bith v ∨ i = .bitl v ∨ i = .csum v ∨ i = .rchk v) ∧
    (t.HUM ≠ s.HUM ∨ t.TEMP ≠ s.TEMP ∨ t.ERRINFO ≠ s.ERRINFO ∨ t.PINERR ≠ s.PINERR ∨ t.ERR ≠ s.ERR ∨
      t.BUSY ≠ s.BUSY ∨ t.DONE ≠ s.DONE → i = .readA ∨ i = .readB ∨ ∃ v, i = .pub v)

/-- R17, R90: `ph` moves only along the edges of the engine's sequence; STORE's is the only backward one and is taken
only before the last bit; in IDLE only an accepted READ moves it. -/
def Obligations.PhaseMovesAlongTheSequence : Prop :=
  ∀ s t : State, RegInv s → step s = .next t → t.ph ≠ s.ph →
    t.ph ∈ nextPhases s.ph ∧
    (s.ph = .store → t.ph = .bith → s.bit.toNat < 39) ∧
    (s.ph = .idle → exec .readA s.popTurn = .next t ∨ exec .readB s.popTurn = .next t)

/-- R162: a failure is raised at most once in a read: once one is pending, `err` does not change until the read is
over. -/
def Obligations.PendingFailureIsTheOnlyOne : Prop :=
  ∀ s t : State, RegInv s → step s = .next t → s.ph ≠ .idle → s.err.tag ≠ .none →
    t.err = s.err ∧ (t.ph = .idle → t.ERR = s.err.tag)

/-- R44 to R47, R6: which transactions each phase issues: at most two, and each only where the spec has it. -/
def Obligations.EachPhaseIssuesItsOwnTransactions : Prop :=
  ∀ s t : State, engineTurn s = .next t →
    ∃ es : List Event, t.world.trace = es ++ s.world.trace ∧ es.length ≤ 2 ∧
      (∀ n, Event.delay n ∈ es → (s.ph = .wake ∧ n = s.platform.tWakeUs) ∨ (s.ph = .req ∧ n = s.platform.tReqUs) ∨
        (s.ph ∈ [.ackh, .ackl, .bith, .bitl] ∧ n = s.platform.pollPeriodUs)) ∧
      (∀ l a, Event.pinSet l a ∈ es → (s.ph = .wake ∧ l = .low) ∨ (s.ph = .req ∧ l = .high)) ∧
      (∀ a, Event.pinRead a ∈ es → s.ph ∈ [.ackh, .ackl, .bith, .bitl]) ∧
      (Event.guardSuspend ∈ es → s.ph = .gsus) ∧
      (Event.guardResume ∈ es → s.ph = .gres)

/-! ## Invariants -/

/-- Every invariant stated here holds after reset, whatever the configuration the rules work for and whatever the world
outside, its record being empty. -/
def Obligations.ResetMeetsEveryInvariant : Prop :=
  ∀ (p : Config.Platform) (w : World), p.wf = true → w.trace = [] → w.tau = 0 → w.sets = 0 → w.reads = 0 →
    RegInv { State.reset with platform := p, world := w } ∧
    BracketInv { State.reset with platform := p, world := w } ∧
    LineInv { State.reset with platform := p, world := w } ∧
    ClockInv { State.reset with platform := p, world := w } ∧
    TimeInv { State.reset with platform := p, world := w } ∧
    DataInv { State.reset with platform := p, world := w }

/-- Every step of engine or host keeps the register invariant. -/
def Obligations.EveryStepKeepsTheRegisterInvariant : Prop :=
  ∀ s t : State, RegInv s → step s = .next t → RegInv t

/-- R36: with the values of R3, its items hold in every state a run from reset reaches, whatever the open parameters,
the environment's answers and the turns of host and engine (`w` holds them all), and in every state that meets the
register invariant and its next. Item (h) holds by the type of `ph`. -/
def Obligations.ReachedStatesMeetR36 : Prop :=
  (∀ (p : Config.Platform) (w : World) (n : Nat) (t : State), R3Values p → p.wf = true →
    Sys2Proof.core.run n { State.reset with platform := p, world := w } = .next t → R36 t) ∧
  (∀ s t : State, R3Values s.platform → RegInv s → step s = .next t → R36 s ∧ R36 t)

/-- R137: the guard bracket. In every read, on every path, SUSPEND is issued exactly once, before every other
transaction, and RESUME exactly once, after every other; and the guard is never held in IDLE. -/
def Obligations.EveryStepKeepsTheGuardBracket : Prop :=
  ∀ s t : State, RegInv s → BracketInv s → step s = .next t →
    BracketInv t ∧ (t.ph = .idle → t.g = false)

/-- R54, R190, R149(h): the engine polls only while its pin is asked to output High, and after every outcome but a
PinError of WAKE or REQ the pin was last accepted High. -/
def Obligations.EveryStepKeepsTheLineReleased : Prop :=
  ∀ s t : State, LineInv s → step s = .next t → LineInv t

/-- R55, R53: nominal time is the sum of the trace's delays, and the ordinals count its pin transactions. -/
def Obligations.EveryStepKeepsTheClock : Prop :=
  ∀ s t : State, ClockInv s → step s = .next t → ClockInv t

/-- R194, R101: with the values of R3, the nominal times at which each outcome is published, and the most transactions
a read can issue. -/
def Obligations.EveryStepKeepsNominalTimeInBounds : Prop :=
  ∀ s t : State, R3Values s.platform → RegInv s → TimeInv s → step s = .next t → TimeInv t

/-- R114, R149(d), R28: a reading is published only from a frame whose checksum matched and whose decoded humidity is
in range, and is that frame's decode; a mismatch shows both checksums, which differ; InvalidData implies that the
checksum matched. -/
def Obligations.EveryStepKeepsReadingsFromValidFrames : Prop :=
  ∀ s t : State, RegInv s → DataInv s → step s = .next t → DataInv t

/-! ## Whole reads -/

/-- R82: the three outcomes of a whole wait, by the answers to its polls: a match at poll `k` returns `k`; `bound` + 1
non-matching polls raise the wait's failure, NotPresent in the acknowledgment and Timeout in the bit loop (R156, R157);
a failing poll raises PinError. Each poll is one step, and each non-matching poll one poll period, R3's microsecond, of
nominal time. The bounds are any that the rules work for. -/
def Obligations.WholeWaitHasThreeOutcomes : Prop :=
  ∀ (s : State) (p : Config.Platform) (wt : Wait) (ph : Phase), s.platform = p → p.wf = true →
    (ph, wt) ∈ [(.ackh, ackhWait p), (.ackl, acklWait p), (.bith, bithWait p), (.bitl, bitlWait p)] →
    s.ph = ph → s.tick = 0 → EngineAlone s → Live s →
    (∀ k, k ≤ wt.bound →
      (∀ j, j < k → answerRead p (afterPolls p j s.world) = .ok (otherLevel wt.target)) →
      answerRead p (afterPolls p k s.world) = .ok wt.target →
      Sys2Proof.core.run (k + 1) s = .next { s with
        el := BitVec.ofNat 7 k, tick := 0, ph := wt.next, world := (afterPolls p k s.world).pinRead p }) ∧
    ((∀ j, j ≤ wt.bound → answerRead p (afterPolls p j s.world) = .ok (otherLevel wt.target)) →
      Sys2Proof.core.run (wt.bound + 1) s = .next { s with
        tick := BitVec.ofNat 7 (wt.bound + 1), ph := .gres,
        err := { s.err with tag := if ph = .ackh ∨ ph = .ackl then .notPresent else .timeout },
        world := afterPolls p (wt.bound + 1) s.world }) ∧
    (∀ k e, k ≤ wt.bound →
      (∀ j, j < k → answerRead p (afterPolls p j s.world) = .ok (otherLevel wt.target)) →
      answerRead p (afterPolls p k s.world) = .err e →
      Sys2Proof.core.run (k + 1) s = .next { s with
        tick := BitVec.ofNat 7 k, ph := .gres, err := { s.err with tag := .pinError, e := e },
        world := (afterPolls p k s.world).pinRead p }) ∧
    (∀ k, (afterPolls p k s.world).tau = s.world.tau + k * p.pollPeriodUs ∧
      (afterPolls p k s.world).reads = s.world.reads + k) ∧
    (R3Values p → p.pollPeriodUs = 1)

/-- R101, R149(a), (b), (g): every read ends: with the values of R3, within 5300 micro-operations the engine is in
IDLE with the outcome published, whatever the environment answers, provided it answers. -/
def Obligations.EveryReadEndsWithin5300Steps : Prop :=
  ∀ s : State, R3Values s.platform → RegInv s → EngineAlone s → Live s → s.ph ≠ .idle →
    ∃ (n : Nat) (t : State), n ≤ 5300 ∧ Sys2Proof.core.run n s = .next t ∧
      t.ph = .idle ∧ t.BUSY = false ∧ t.DONE = true ∧ t.g = false

/-- R115, R86, R100: running the engine from the acceptance of a READ gives exactly what the whole read gives as a
function of the variant and the environment: the same trace, the same nominal time and the same published outcome,
under any configuration the rules work for, and within 5300 steps with the values of R3. -/
def Obligations.EngineRefinesTheWholeRead : Prop :=
  ∀ (s : State) (v : Variant), s.platform.wf = true → s.ph = .idle → EngineAlone s → Live s →
    ∃ (n : Nat) (t : State), (R3Values s.platform → n ≤ 5300) ∧ Sys2Proof.core.run n (acceptRead v s) = .next t ∧
      t.ph = .idle ∧ t.BUSY = false ∧ t.DONE = true ∧
      t.world = (readAll s.platform v s.world.newRead).2 ∧
      publishes (readAll s.platform v s.world.newRead).1 t

/-- R51: with the values of R3, the trace of every finished read has the shape of the grammar and no other, whatever
the open parameters, the environment's answers and the turns of host and engine (`w` holds them all). -/
def Obligations.EveryTraceHasTheShapeOfARead : Prop :=
  ∀ (p : Config.Platform) (w : World) (n : Nat) (t : State), R3Values p →
    Sys2Proof.core.run n { State.reset with platform := p, world := w } = .next t →
    t.ph = .idle → t.DONE = true → traceShape t.world.events = true

/-- R115's first testable property (95_test_vectors.md S1), with R67, R68, R70: whatever the counts, within the bounds,
by which the pin spells a frame, the read samples that frame and publishes its decode, or what validation makes of it.
The pin's answers are listed; a platform whose back-to-back polls must agree is left out, since there a wait's first
poll cannot be listed freely. -/
def Obligations.SpelledFrameIsReadBack : Prop :=
  ∀ (s : State) (v : Variant) (f : Frame) (ackHigh ackLow : Nat) (gap count : Nat → Nat) (reads : List ReadAnswer),
    s.platform.wf = true → s.ph = .idle → EngineAlone s → Live s → s.platform.sameInstantPollsAgree = false →
    ackHigh ≤ s.platform.toAckHigh → ackLow ≤ s.platform.toAckLow →
    (∀ i, i < 40 → gap i ≤ s.platform.toBitHigh ∧ count i ≤ s.platform.toBitLow ∧
      bitOfCount s.platform (count i) = f.cell i) →
    s.world.oracle = .general [.ok, .ok] (spelling s.platform ackHigh ackLow gap count ++ reads) →
    ∃ (n : Nat) (t : State), (R3Values s.platform → n ≤ 5300) ∧ Sys2Proof.core.run n (acceptRead v s) = .next t ∧
      t.ph = .idle ∧ t.DONE = true ∧ t.f = f ∧ publishes (validateFrame s.platform v f) t ∧
      t.world.oracle = .general [] reads

/-- R34, R147, R141(b): a read depends on nothing an earlier one left. Two idle states with the same world outside, the
same configuration and the same guard flag give, from the acceptance of the same READ on, the same run, however
host and engine interleave: only `err.e` can differ, and only while it means nothing. -/
def Obligations.ReadDependsOnNothingLeftBehind : Prop :=
  ∀ (s t : State) (v : Variant) (n : Nat), s.ph = .idle → t.ph = .idle → s.world = t.world →
    s.platform = t.platform → s.g = t.g →
    sameOutcome (Sys2Proof.core.run n (acceptRead v s)) (Sys2Proof.core.run n (acceptRead v t))

/-! ## The environment and the arithmetic -/

/-- R53: what the reference oracle answers: the `i`-th `PinSet` fails where `sf` names `i`, the `j`-th `PinRead` fails
where `rf` names `j` and else sees the waveform at nominal time. Two polls at one instant agree, under either value of
SAME_INSTANT_POLLS_AGREE. Where that is set and another script answered the poll just before, that poll's level is seen
(R52; log entry 12). -/
def Obligations.ReferenceOracleAnswers : Prop :=
  ∀ (p : Config.Platform) (w : World) (wave : Waveform) (sf rf : List (Nat × PinErr)),
    w.oracle = .reference wave sf rf →
    (sf.lookup (w.sets + 1) = none → answerSet p w = .ok) ∧
    (∀ e, sf.lookup (w.sets + 1) = some e → ∃ e', answerSet p w = .err e' ∧ e'.toNat = e.toNat % 2 ^ p.pew) ∧
    (rf.lookup (w.reads + 1) = none →
      (p.sameInstantPollsAgree = false ∨ sameInstantLevel w = none → answerRead p w = .ok (waveAt wave w.tau)) ∧
      (∀ l, p.sameInstantPollsAgree = true → sameInstantLevel w = some l → answerRead p w = .ok l)) ∧
    (∀ e, rf.lookup (w.reads + 1) = some e → ∃ e', answerRead p w = .err e' ∧ e'.toNat = e.toNat % 2 ^ p.pew) ∧
    (∀ l, answerRead p w = .ok l → rf.lookup (w.reads + 2) = none → answerRead p (w.pinRead p) = .ok l) ∧
    (w.pinSet p .low).oracle = w.oracle ∧ (w.pinRead p).oracle = w.oracle

/-- R52, D7: with SAME_INSTANT_POLLS_AGREE, two polls with no delay between them see the same level, whoever answers and
even if the environment's script changes in between: after an iteration of a wait that matched, the next wait's first
poll repeats its level or fails, so it cannot match. -/
def Obligations.SameInstantPollsAgreeWhenSet : Prop :=
  ∀ (s t : State) (p : Config.Platform) (i : Instr) (wt : Wait), s.platform = p → p.sameInstantPollsAgree = true →
    (i, wt) ∈ [(.ackh s.var, ackhWait p), (.ackl s.var, acklWait p), (.bith s.var, bithWait p),
      (.bitl s.var, bitlWait p)] →
    s.answerRead = .ok wt.target → exec i s = .next t →
    t.ph = wt.next ∧
    ∀ o : Oracle, answerRead p { t.world with oracle := o } = .ok wt.target ∨
      ∃ e, answerRead p { t.world with oracle := o } = .err e

/-- R126, R127: `F32FromNat` is exact: its pattern denotes `n` (2^149 is the unit the value is given in). -/
def Obligations.F32FromNatIsExact : Prop :=
  f32FromNat 0 = 0x00000000 ∧
  ∀ n : Nat, n < 2 ^ 24 → f32Value (f32FromNat n) = (n : Int) * 2 ^ 149 ∧ f32IsNaN (f32FromNat n) = false

/-- R126, R128: `F32Div10` is `n`/10 rounded to the nearest representable value: no other finite pattern's value is as
near, so there is never a tie (2^149 is the unit values are given in). -/
def Obligations.F32Div10IsCorrectlyRounded : Prop :=
  f32Div10 0 = 0x00000000 ∧
  ∀ n : Nat, 1 ≤ n → n ≤ 65535 →
    f32Exponent (f32Div10 n) ≤ 254 ∧
    ∀ b : Word, f32Exponent b ≤ 254 → f32Value b ≠ f32Value (f32Div10 n) →
      (10 * f32Value (f32Div10 n) - (n : Int) * 2 ^ 149).natAbs < (10 * f32Value b - (n : Int) * 2 ^ 149).natAbs

/-- R129, R125, R124: negation flips bit 31 and nothing else, so it denotes the negated number; a zero magnitude with
the sign bit gives the pattern of -0.0. -/
def Obligations.F32NegFlipsTheSign : Prop :=
  (∀ b : Word, f32Value (f32Neg b) = -f32Value b ∧
    ∀ j, j < 32 → (f32Neg b).getLsbD j = if j = 31 then !b.getLsbD 31 else b.getLsbD j) ∧
  (∀ (p : Config.Platform) (f : Frame), R3Values p → f.b2 = 0x80 → f.b3 = 0x00 →
    (decodeFrame p .b f).2 = 0x80000000)

/-- R130: the comparisons compare the values of patterns that denote numbers, -0.0 equal to +0.0; on non-negative finite
patterns their order is the order of the patterns read as unsigned integers. -/
def Obligations.F32OrderIsPatternOrder : Prop :=
  (∀ a b : Word, f32Exponent a ≤ 254 → f32Exponent b ≤ 254 →
    (f32Lt a b = true ↔ f32Value a < f32Value b) ∧ (f32Le a b = true ↔ f32Value a ≤ f32Value b)) ∧
  f32Lt 0x80000000 0x00000000 = false ∧ f32Lt 0x00000000 0x80000000 = false ∧
  f32Le 0x80000000 0x00000000 = true ∧ f32Le 0x00000000 0x80000000 = true ∧
  (∀ a b : Word, a.toNat < 0x7F800000 → b.toNat < 0x7F800000 →
    (f32Lt a b = true ↔ a.toNat < b.toNat) ∧ (f32Le a b = true ↔ a.toNat ≤ b.toNat))
end

