-- ==== Sys2Proof/Laws/State.lean ====
section
/-! SUPPORT. One lemma for each field of each update of the state and of the outside world, so that no proof unfolds a
record update. -/

namespace Sys2Proof
namespace Machine

variable (s : State) (w : World) (p : Config.Platform)

@[simp] theorem State.setPh_f (q : Phase) : (s.setPh q).f = s.f := rfl
@[simp] theorem State.setPh_el (q : Phase) : (s.setPh q).el = s.el := rfl
@[simp] theorem State.setPh_hum (q : Phase) : (s.setPh q).hum = s.hum := rfl
@[simp] theorem State.setPh_temp (q : Phase) : (s.setPh q).temp = s.temp := rfl
@[simp] theorem State.setPh_ph (q : Phase) : (s.setPh q).ph = q := rfl
@[simp] theorem State.setPh_bit (q : Phase) : (s.setPh q).bit = s.bit := rfl
@[simp] theorem State.setPh_tick (q : Phase) : (s.setPh q).tick = s.tick := rfl
@[simp] theorem State.setPh_var (q : Phase) : (s.setPh q).var = s.var := rfl
@[simp] theorem State.setPh_err (q : Phase) : (s.setPh q).err = s.err := rfl
@[simp] theorem State.setPh_g (q : Phase) : (s.setPh q).g = s.g := rfl
@[simp] theorem State.setPh_BUSY (q : Phase) : (s.setPh q).BUSY = s.BUSY := rfl
@[simp] theorem State.setPh_DONE (q : Phase) : (s.setPh q).DONE = s.DONE := rfl
@[simp] theorem State.setPh_ERR (q : Phase) : (s.setPh q).ERR = s.ERR := rfl
@[simp] theorem State.setPh_HUM (q : Phase) : (s.setPh q).HUM = s.HUM := rfl
@[simp] theorem State.setPh_TEMP (q : Phase) : (s.setPh q).TEMP = s.TEMP := rfl
@[simp] theorem State.setPh_ERRINFO (q : Phase) : (s.setPh q).ERRINFO = s.ERRINFO := rfl
@[simp] theorem State.setPh_PINERR (q : Phase) : (s.setPh q).PINERR = s.PINERR := rfl
@[simp] theorem State.setPh_platform (q : Phase) : (s.setPh q).platform = s.platform := rfl
@[simp] theorem State.setPh_world (q : Phase) : (s.setPh q).world = s.world := rfl

@[simp] theorem State.setTick_f (n : BitVec 7) : (s.setTick n).f = s.f := rfl
@[simp] theorem State.setTick_el (n : BitVec 7) : (s.setTick n).el = s.el := rfl
@[simp] theorem State.setTick_hum (n : BitVec 7) : (s.setTick n).hum = s.hum := rfl
@[simp] theorem State.setTick_temp (n : BitVec 7) : (s.setTick n).temp = s.temp := rfl
@[simp] theorem State.setTick_ph (n : BitVec 7) : (s.setTick n).ph = s.ph := rfl
@[simp] theorem State.setTick_bit (n : BitVec 7) : (s.setTick n).bit = s.bit := rfl
@[simp] theorem State.setTick_tick (n : BitVec 7) : (s.setTick n).tick = n := rfl
@[simp] theorem State.setTick_var (n : BitVec 7) : (s.setTick n).var = s.var := rfl
@[simp] theorem State.setTick_err (n : BitVec 7) : (s.setTick n).err = s.err := rfl
@[simp] theorem State.setTick_g (n : BitVec 7) : (s.setTick n).g = s.g := rfl
@[simp] theorem State.setTick_BUSY (n : BitVec 7) : (s.setTick n).BUSY = s.BUSY := rfl
@[simp] theorem State.setTick_DONE (n : BitVec 7) : (s.setTick n).DONE = s.DONE := rfl
@[simp] theorem State.setTick_ERR (n : BitVec 7) : (s.setTick n).ERR = s.ERR := rfl
@[simp] theorem State.setTick_HUM (n : BitVec 7) : (s.setTick n).HUM = s.HUM := rfl
@[simp] theorem State.setTick_TEMP (n : BitVec 7) : (s.setTick n).TEMP = s.TEMP := rfl
@[simp] theorem State.setTick_ERRINFO (n : BitVec 7) : (s.setTick n).ERRINFO = s.ERRINFO := rfl
@[simp] theorem State.setTick_PINERR (n : BitVec 7) : (s.setTick n).PINERR = s.PINERR := rfl
@[simp] theorem State.setTick_platform (n : BitVec 7) : (s.setTick n).platform = s.platform := rfl
@[simp] theorem State.setTick_world (n : BitVec 7) : (s.setTick n).world = s.world := rfl

@[simp] theorem State.setEl_f (n : BitVec 7) : (s.setEl n).f = s.f := rfl
@[simp] theorem State.setEl_el (n : BitVec 7) : (s.setEl n).el = n := rfl
@[simp] theorem State.setEl_hum (n : BitVec 7) : (s.setEl n).hum = s.hum := rfl
@[simp] theorem State.setEl_temp (n : BitVec 7) : (s.setEl n).temp = s.temp := rfl
@[simp] theorem State.setEl_ph (n : BitVec 7) : (s.setEl n).ph = s.ph := rfl
@[simp] theorem State.setEl_bit (n : BitVec 7) : (s.setEl n).bit = s.bit := rfl
@[simp] theorem State.setEl_tick (n : BitVec 7) : (s.setEl n).tick = s.tick := rfl
@[simp] theorem State.setEl_var (n : BitVec 7) : (s.setEl n).var = s.var := rfl
@[simp] theorem State.setEl_err (n : BitVec 7) : (s.setEl n).err = s.err := rfl
@[simp] theorem State.setEl_g (n : BitVec 7) : (s.setEl n).g = s.g := rfl
@[simp] theorem State.setEl_BUSY (n : BitVec 7) : (s.setEl n).BUSY = s.BUSY := rfl
@[simp] theorem State.setEl_DONE (n : BitVec 7) : (s.setEl n).DONE = s.DONE := rfl
@[simp] theorem State.setEl_ERR (n : BitVec 7) : (s.setEl n).ERR = s.ERR := rfl
@[simp] theorem State.setEl_HUM (n : BitVec 7) : (s.setEl n).HUM = s.HUM := rfl
@[simp] theorem State.setEl_TEMP (n : BitVec 7) : (s.setEl n).TEMP = s.TEMP := rfl
@[simp] theorem State.setEl_ERRINFO (n : BitVec 7) : (s.setEl n).ERRINFO = s.ERRINFO := rfl
@[simp] theorem State.setEl_PINERR (n : BitVec 7) : (s.setEl n).PINERR = s.PINERR := rfl
@[simp] theorem State.setEl_platform (n : BitVec 7) : (s.setEl n).platform = s.platform := rfl
@[simp] theorem State.setEl_world (n : BitVec 7) : (s.setEl n).world = s.world := rfl

@[simp] theorem State.setErr_f (r : ErrReg) : (s.setErr r).f = s.f := rfl
@[simp] theorem State.setErr_el (r : ErrReg) : (s.setErr r).el = s.el := rfl
@[simp] theorem State.setErr_hum (r : ErrReg) : (s.setErr r).hum = s.hum := rfl
@[simp] theorem State.setErr_temp (r : ErrReg) : (s.setErr r).temp = s.temp := rfl
@[simp] theorem State.setErr_ph (r : ErrReg) : (s.setErr r).ph = s.ph := rfl
@[simp] theorem State.setErr_bit (r : ErrReg) : (s.setErr r).bit = s.bit := rfl
@[simp] theorem State.setErr_tick (r : ErrReg) : (s.setErr r).tick = s.tick := rfl
@[simp] theorem State.setErr_var (r : ErrReg) : (s.setErr r).var = s.var := rfl
@[simp] theorem State.setErr_err (r : ErrReg) : (s.setErr r).err = r := rfl
@[simp] theorem State.setErr_g (r : ErrReg) : (s.setErr r).g = s.g := rfl
@[simp] theorem State.setErr_BUSY (r : ErrReg) : (s.setErr r).BUSY = s.BUSY := rfl
@[simp] theorem State.setErr_DONE (r : ErrReg) : (s.setErr r).DONE = s.DONE := rfl
@[simp] theorem State.setErr_ERR (r : ErrReg) : (s.setErr r).ERR = s.ERR := rfl
@[simp] theorem State.setErr_HUM (r : ErrReg) : (s.setErr r).HUM = s.HUM := rfl
@[simp] theorem State.setErr_TEMP (r : ErrReg) : (s.setErr r).TEMP = s.TEMP := rfl
@[simp] theorem State.setErr_ERRINFO (r : ErrReg) : (s.setErr r).ERRINFO = s.ERRINFO := rfl
@[simp] theorem State.setErr_PINERR (r : ErrReg) : (s.setErr r).PINERR = s.PINERR := rfl
@[simp] theorem State.setErr_platform (r : ErrReg) : (s.setErr r).platform = s.platform := rfl
@[simp] theorem State.setErr_world (r : ErrReg) : (s.setErr r).world = s.world := rfl

@[simp] theorem State.setWorld_f : (s.setWorld w).f = s.f := rfl
@[simp] theorem State.setWorld_el : (s.setWorld w).el = s.el := rfl
@[simp] theorem State.setWorld_hum : (s.setWorld w).hum = s.hum := rfl
@[simp] theorem State.setWorld_temp : (s.setWorld w).temp = s.temp := rfl
@[simp] theorem State.setWorld_ph : (s.setWorld w).ph = s.ph := rfl
@[simp] theorem State.setWorld_bit : (s.setWorld w).bit = s.bit := rfl
@[simp] theorem State.setWorld_tick : (s.setWorld w).tick = s.tick := rfl
@[simp] theorem State.setWorld_var : (s.setWorld w).var = s.var := rfl
@[simp] theorem State.setWorld_err : (s.setWorld w).err = s.err := rfl
@[simp] theorem State.setWorld_g : (s.setWorld w).g = s.g := rfl
@[simp] theorem State.setWorld_BUSY : (s.setWorld w).BUSY = s.BUSY := rfl
@[simp] theorem State.setWorld_DONE : (s.setWorld w).DONE = s.DONE := rfl
@[simp] theorem State.setWorld_ERR : (s.setWorld w).ERR = s.ERR := rfl
@[simp] theorem State.setWorld_HUM : (s.setWorld w).HUM = s.HUM := rfl
@[simp] theorem State.setWorld_TEMP : (s.setWorld w).TEMP = s.TEMP := rfl
@[simp] theorem State.setWorld_ERRINFO : (s.setWorld w).ERRINFO = s.ERRINFO := rfl
@[simp] theorem State.setWorld_PINERR : (s.setWorld w).PINERR = s.PINERR := rfl
@[simp] theorem State.setWorld_platform : (s.setWorld w).platform = s.platform := rfl
@[simp] theorem State.setWorld_world : (s.setWorld w).world = w := rfl

@[simp] theorem World.pinSet_oracle (l : Level) : (w.pinSet p l).oracle = Oracle.dropSet w.oracle := rfl
@[simp] theorem World.pinSet_answers (l : Level) : (w.pinSet p l).answers = w.answers := rfl
@[simp] theorem World.pinSet_draws (l : Level) : (w.pinSet p l).draws = w.draws + Oracle.setDraws w.oracle := rfl
@[simp] theorem World.pinSet_trace (l : Level) : (w.pinSet p l).trace = .pinSet l (answerSet p w) :: w.trace := rfl
@[simp] theorem World.pinSet_sets (l : Level) : (w.pinSet p l).sets = w.sets + 1 := rfl
@[simp] theorem World.pinSet_reads (l : Level) : (w.pinSet p l).reads = w.reads := rfl
@[simp] theorem World.pinSet_tau (l : Level) : (w.pinSet p l).tau = w.tau := rfl
@[simp] theorem World.pinSet_sched (l : Level) : (w.pinSet p l).sched = w.sched := rfl
@[simp] theorem World.pinSet_seen (l : Level) : (w.pinSet p l).seen = w.seen := rfl

@[simp] theorem World.pinRead_oracle : (w.pinRead p).oracle = Oracle.dropRead w.oracle := rfl
@[simp] theorem World.pinRead_answers : (w.pinRead p).answers = w.answers := rfl
@[simp] theorem World.pinRead_draws : (w.pinRead p).draws = w.draws + Oracle.readDraws w.oracle := rfl
@[simp] theorem World.pinRead_trace : (w.pinRead p).trace = .pinRead (answerRead p w) :: w.trace := rfl
@[simp] theorem World.pinRead_sets : (w.pinRead p).sets = w.sets := rfl
@[simp] theorem World.pinRead_reads : (w.pinRead p).reads = w.reads + 1 := rfl
@[simp] theorem World.pinRead_tau : (w.pinRead p).tau = w.tau := rfl
@[simp] theorem World.pinRead_sched : (w.pinRead p).sched = w.sched := rfl
@[simp] theorem World.pinRead_seen : (w.pinRead p).seen = w.seen := rfl

@[simp] theorem World.delay_oracle (n : Nat) : (w.delay n).oracle = w.oracle := rfl
@[simp] theorem World.delay_answers (n : Nat) : (w.delay n).answers = w.answers := rfl
@[simp] theorem World.delay_draws (n : Nat) : (w.delay n).draws = w.draws := rfl
@[simp] theorem World.delay_trace (n : Nat) : (w.delay n).trace = .delay n :: w.trace := rfl
@[simp] theorem World.delay_sets (n : Nat) : (w.delay n).sets = w.sets := rfl
@[simp] theorem World.delay_reads (n : Nat) : (w.delay n).reads = w.reads := rfl
@[simp] theorem World.delay_tau (n : Nat) : (w.delay n).tau = w.tau + n := rfl
@[simp] theorem World.delay_sched (n : Nat) : (w.delay n).sched = w.sched := rfl
@[simp] theorem World.delay_seen (n : Nat) : (w.delay n).seen = w.seen := rfl

@[simp] theorem World.suspend_oracle : w.suspend.oracle = w.oracle := rfl
@[simp] theorem World.suspend_answers : w.suspend.answers = w.answers := rfl
@[simp] theorem World.suspend_draws : w.suspend.draws = w.draws := rfl
@[simp] theorem World.suspend_trace : w.suspend.trace = .guardSuspend :: w.trace := rfl
@[simp] theorem World.suspend_sets : w.suspend.sets = w.sets := rfl
@[simp] theorem World.suspend_reads : w.suspend.reads = w.reads := rfl
@[simp] theorem World.suspend_tau : w.suspend.tau = w.tau := rfl
@[simp] theorem World.suspend_sched : w.suspend.sched = w.sched := rfl
@[simp] theorem World.suspend_seen : w.suspend.seen = w.seen := rfl

@[simp] theorem World.resume_oracle : w.resume.oracle = w.oracle := rfl
@[simp] theorem World.resume_answers : w.resume.answers = w.answers := rfl
@[simp] theorem World.resume_draws : w.resume.draws = w.draws := rfl
@[simp] theorem World.resume_trace : w.resume.trace = .guardResume :: w.trace := rfl
@[simp] theorem World.resume_sets : w.resume.sets = w.sets := rfl
@[simp] theorem World.resume_reads : w.resume.reads = w.reads := rfl
@[simp] theorem World.resume_tau : w.resume.tau = w.tau := rfl
@[simp] theorem World.resume_sched : w.resume.sched = w.sched := rfl
@[simp] theorem World.resume_seen : w.resume.seen = w.seen := rfl

@[simp] theorem World.newRead_oracle : w.newRead.oracle = w.oracle := rfl
@[simp] theorem World.newRead_answers : w.newRead.answers = w.answers := rfl
@[simp] theorem World.newRead_draws : w.newRead.draws = w.draws := rfl
@[simp] theorem World.newRead_trace : w.newRead.trace = [] := rfl
@[simp] theorem World.newRead_sets : w.newRead.sets = 0 := rfl
@[simp] theorem World.newRead_reads : w.newRead.reads = 0 := rfl
@[simp] theorem World.newRead_tau : w.newRead.tau = 0 := rfl
@[simp] theorem World.newRead_sched : w.newRead.sched = w.sched := rfl
@[simp] theorem World.newRead_seen : w.newRead.seen = w.seen := rfl

/-! The port transactions change only the world. -/

@[simp] theorem State.pinSet_f (l : Level) : (s.pinSet l).f = s.f := rfl
@[simp] theorem State.pinSet_el (l : Level) : (s.pinSet l).el = s.el := rfl
@[simp] theorem State.pinSet_hum (l : Level) : (s.pinSet l).hum = s.hum := rfl
@[simp] theorem State.pinSet_temp (l : Level) : (s.pinSet l).temp = s.temp := rfl
@[simp] theorem State.pinSet_ph (l : Level) : (s.pinSet l).ph = s.ph := rfl
@[simp] theorem State.pinSet_bit (l : Level) : (s.pinSet l).bit = s.bit := rfl
@[simp] theorem State.pinSet_tick (l : Level) : (s.pinSet l).tick = s.tick := rfl
@[simp] theorem State.pinSet_var (l : Level) : (s.pinSet l).var = s.var := rfl
@[simp] theorem State.pinSet_err (l : Level) : (s.pinSet l).err = s.err := rfl
@[simp] theorem State.pinSet_g (l : Level) : (s.pinSet l).g = s.g := rfl
@[simp] theorem State.pinSet_BUSY (l : Level) : (s.pinSet l).BUSY = s.BUSY := rfl
@[simp] theorem State.pinSet_DONE (l : Level) : (s.pinSet l).DONE = s.DONE := rfl
@[simp] theorem State.pinSet_ERR (l : Level) : (s.pinSet l).ERR = s.ERR := rfl
@[simp] theorem State.pinSet_HUM (l : Level) : (s.pinSet l).HUM = s.HUM := rfl
@[simp] theorem State.pinSet_TEMP (l : Level) : (s.pinSet l).TEMP = s.TEMP := rfl
@[simp] theorem State.pinSet_ERRINFO (l : Level) : (s.pinSet l).ERRINFO = s.ERRINFO := rfl
@[simp] theorem State.pinSet_PINERR (l : Level) : (s.pinSet l).PINERR = s.PINERR := rfl
@[simp] theorem State.pinSet_platform (l : Level) : (s.pinSet l).platform = s.platform := rfl
@[simp] theorem State.pinSet_world (l : Level) : (s.pinSet l).world = s.world.pinSet s.platform l := rfl

@[simp] theorem State.pinRead_f : (s.pinRead).f = s.f := rfl
@[simp] theorem State.pinRead_el : (s.pinRead).el = s.el := rfl
@[simp] theorem State.pinRead_hum : (s.pinRead).hum = s.hum := rfl
@[simp] theorem State.pinRead_temp : (s.pinRead).temp = s.temp := rfl
@[simp] theorem State.pinRead_ph : (s.pinRead).ph = s.ph := rfl
@[simp] theorem State.pinRead_bit : (s.pinRead).bit = s.bit := rfl
@[simp] theorem State.pinRead_tick : (s.pinRead).tick = s.tick := rfl
@[simp] theorem State.pinRead_var : (s.pinRead).var = s.var := rfl
@[simp] theorem State.pinRead_err : (s.pinRead).err = s.err := rfl
@[simp] theorem State.pinRead_g : (s.pinRead).g = s.g := rfl
@[simp] theorem State.pinRead_BUSY : (s.pinRead).BUSY = s.BUSY := rfl
@[simp] theorem State.pinRead_DONE : (s.pinRead).DONE = s.DONE := rfl
@[simp] theorem State.pinRead_ERR : (s.pinRead).ERR = s.ERR := rfl
@[simp] theorem State.pinRead_HUM : (s.pinRead).HUM = s.HUM := rfl
@[simp] theorem State.pinRead_TEMP : (s.pinRead).TEMP = s.TEMP := rfl
@[simp] theorem State.pinRead_ERRINFO : (s.pinRead).ERRINFO = s.ERRINFO := rfl
@[simp] theorem State.pinRead_PINERR : (s.pinRead).PINERR = s.PINERR := rfl
@[simp] theorem State.pinRead_platform : (s.pinRead).platform = s.platform := rfl
@[simp] theorem State.pinRead_world : (s.pinRead).world = s.world.pinRead s.platform := rfl

@[simp] theorem State.delay_f (n : Nat) : (s.delay n).f = s.f := rfl
@[simp] theorem State.delay_el (n : Nat) : (s.delay n).el = s.el := rfl
@[simp] theorem State.delay_hum (n : Nat) : (s.delay n).hum = s.hum := rfl
@[simp] theorem State.delay_temp (n : Nat) : (s.delay n).temp = s.temp := rfl
@[simp] theorem State.delay_ph (n : Nat) : (s.delay n).ph = s.ph := rfl
@[simp] theorem State.delay_bit (n : Nat) : (s.delay n).bit = s.bit := rfl
@[simp] theorem State.delay_tick (n : Nat) : (s.delay n).tick = s.tick := rfl
@[simp] theorem State.delay_var (n : Nat) : (s.delay n).var = s.var := rfl
@[simp] theorem State.delay_err (n : Nat) : (s.delay n).err = s.err := rfl
@[simp] theorem State.delay_g (n : Nat) : (s.delay n).g = s.g := rfl
@[simp] theorem State.delay_BUSY (n : Nat) : (s.delay n).BUSY = s.BUSY := rfl
@[simp] theorem State.delay_DONE (n : Nat) : (s.delay n).DONE = s.DONE := rfl
@[simp] theorem State.delay_ERR (n : Nat) : (s.delay n).ERR = s.ERR := rfl
@[simp] theorem State.delay_HUM (n : Nat) : (s.delay n).HUM = s.HUM := rfl
@[simp] theorem State.delay_TEMP (n : Nat) : (s.delay n).TEMP = s.TEMP := rfl
@[simp] theorem State.delay_ERRINFO (n : Nat) : (s.delay n).ERRINFO = s.ERRINFO := rfl
@[simp] theorem State.delay_PINERR (n : Nat) : (s.delay n).PINERR = s.PINERR := rfl
@[simp] theorem State.delay_platform (n : Nat) : (s.delay n).platform = s.platform := rfl
@[simp] theorem State.delay_world (n : Nat) : (s.delay n).world = s.world.delay n := rfl

@[simp] theorem State.suspend_f : (s.suspend).f = s.f := rfl
@[simp] theorem State.suspend_el : (s.suspend).el = s.el := rfl
@[simp] theorem State.suspend_hum : (s.suspend).hum = s.hum := rfl
@[simp] theorem State.suspend_temp : (s.suspend).temp = s.temp := rfl
@[simp] theorem State.suspend_ph : (s.suspend).ph = s.ph := rfl
@[simp] theorem State.suspend_bit : (s.suspend).bit = s.bit := rfl
@[simp] theorem State.suspend_tick : (s.suspend).tick = s.tick := rfl
@[simp] theorem State.suspend_var : (s.suspend).var = s.var := rfl
@[simp] theorem State.suspend_err : (s.suspend).err = s.err := rfl
@[simp] theorem State.suspend_g : (s.suspend).g = s.g := rfl
@[simp] theorem State.suspend_BUSY : (s.suspend).BUSY = s.BUSY := rfl
@[simp] theorem State.suspend_DONE : (s.suspend).DONE = s.DONE := rfl
@[simp] theorem State.suspend_ERR : (s.suspend).ERR = s.ERR := rfl
@[simp] theorem State.suspend_HUM : (s.suspend).HUM = s.HUM := rfl
@[simp] theorem State.suspend_TEMP : (s.suspend).TEMP = s.TEMP := rfl
@[simp] theorem State.suspend_ERRINFO : (s.suspend).ERRINFO = s.ERRINFO := rfl
@[simp] theorem State.suspend_PINERR : (s.suspend).PINERR = s.PINERR := rfl
@[simp] theorem State.suspend_platform : (s.suspend).platform = s.platform := rfl
@[simp] theorem State.suspend_world : (s.suspend).world = s.world.suspend := rfl

@[simp] theorem State.resume_f : (s.resume).f = s.f := rfl
@[simp] theorem State.resume_el : (s.resume).el = s.el := rfl
@[simp] theorem State.resume_hum : (s.resume).hum = s.hum := rfl
@[simp] theorem State.resume_temp : (s.resume).temp = s.temp := rfl
@[simp] theorem State.resume_ph : (s.resume).ph = s.ph := rfl
@[simp] theorem State.resume_bit : (s.resume).bit = s.bit := rfl
@[simp] theorem State.resume_tick : (s.resume).tick = s.tick := rfl
@[simp] theorem State.resume_var : (s.resume).var = s.var := rfl
@[simp] theorem State.resume_err : (s.resume).err = s.err := rfl
@[simp] theorem State.resume_g : (s.resume).g = s.g := rfl
@[simp] theorem State.resume_BUSY : (s.resume).BUSY = s.BUSY := rfl
@[simp] theorem State.resume_DONE : (s.resume).DONE = s.DONE := rfl
@[simp] theorem State.resume_ERR : (s.resume).ERR = s.ERR := rfl
@[simp] theorem State.resume_HUM : (s.resume).HUM = s.HUM := rfl
@[simp] theorem State.resume_TEMP : (s.resume).TEMP = s.TEMP := rfl
@[simp] theorem State.resume_ERRINFO : (s.resume).ERRINFO = s.ERRINFO := rfl
@[simp] theorem State.resume_PINERR : (s.resume).PINERR = s.PINERR := rfl
@[simp] theorem State.resume_platform : (s.resume).platform = s.platform := rfl
@[simp] theorem State.resume_world : (s.resume).world = s.world.resume := rfl

@[simp] theorem raise_err (x : Failure) : (raise x s).err = s.err.record x := rfl
@[simp] theorem raise_ph (x : Failure) : (raise x s).ph = failurePath s.ph := rfl
@[simp] theorem raise_f (x : Failure) : (raise x s).f = s.f := rfl
@[simp] theorem raise_el (x : Failure) : (raise x s).el = s.el := rfl
@[simp] theorem raise_hum (x : Failure) : (raise x s).hum = s.hum := rfl
@[simp] theorem raise_temp (x : Failure) : (raise x s).temp = s.temp := rfl
@[simp] theorem raise_bit (x : Failure) : (raise x s).bit = s.bit := rfl
@[simp] theorem raise_tick (x : Failure) : (raise x s).tick = s.tick := rfl
@[simp] theorem raise_var (x : Failure) : (raise x s).var = s.var := rfl
@[simp] theorem raise_g (x : Failure) : (raise x s).g = s.g := rfl
@[simp] theorem raise_BUSY (x : Failure) : (raise x s).BUSY = s.BUSY := rfl
@[simp] theorem raise_DONE (x : Failure) : (raise x s).DONE = s.DONE := rfl
@[simp] theorem raise_ERR (x : Failure) : (raise x s).ERR = s.ERR := rfl
@[simp] theorem raise_HUM (x : Failure) : (raise x s).HUM = s.HUM := rfl
@[simp] theorem raise_TEMP (x : Failure) : (raise x s).TEMP = s.TEMP := rfl
@[simp] theorem raise_ERRINFO (x : Failure) : (raise x s).ERRINFO = s.ERRINFO := rfl
@[simp] theorem raise_PINERR (x : Failure) : (raise x s).PINERR = s.PINERR := rfl
@[simp] theorem raise_platform (x : Failure) : (raise x s).platform = s.platform := rfl
@[simp] theorem raise_world (x : Failure) : (raise x s).world = s.world := rfl

end Machine
end Sys2Proof
end

