-- ==== Sys2Proof/Laws/Ops.lean ====
section
/-! SUPPORT. One lemma for each shared operation that says once everything it can do, for later proofs to cite instead of
unfolding it. -/

namespace Sys2Proof
namespace Machine

/-- What a set-and-hold micro-operation can do: the pin accepts and the hold follows, or the failure is raised. -/
theorem setAndHold_cases (l : Level) (hold : Nat) (after : State → State) (s : State) :
    (s.answerSet = .ok ∧ setAndHold l hold after s = after ((s.pinSet l).delay hold)) ∨
    (∃ e, s.answerSet = .err e ∧ setAndHold l hold after s = raise (.pinError e) (s.pinSet l)) := by
  unfold setAndHold
  cases h : s.answerSet with
  | ok => exact .inl ⟨rfl, rfl⟩
  | err e => exact .inr ⟨e, rfl, rfl⟩

/-- What one iteration of a level wait can do (40_level_wait.md R81): the poll fails; it matches; it does not match and
the wait goes on; it does not match and the bound is exceeded. -/
theorem lwIter_cases (wt : Wait) (s : State) :
    (∃ e, s.answerRead = .err e ∧ lwIter wt s = raise (.pinError e) s.pinRead) ∨
    (s.answerRead = .ok wt.target ∧
      lwIter wt s = ((s.pinRead.setEl s.tick).setTick 0).setPh wt.next) ∨
    (∃ l, s.answerRead = .ok l ∧ l ≠ wt.target ∧ (s.tick + 1).toNat ≤ wt.bound ∧
      lwIter wt s = (s.pinRead.delay s.platform.pollPeriodUs).setTick (s.tick + 1)) ∨
    (∃ l, s.answerRead = .ok l ∧ l ≠ wt.target ∧ wt.bound < (s.tick + 1).toNat ∧
      lwIter wt s = raise wt.failure ((s.pinRead.delay s.platform.pollPeriodUs).setTick (s.tick + 1))) := by
  unfold lwIter
  cases h : s.answerRead with
  | err e => exact .inl ⟨e, rfl, rfl⟩
  | ok l =>
    by_cases hl : l = wt.target
    · exact .inr (.inl ⟨by rw [hl], if_pos hl⟩)
    · by_cases hb : wt.bound < (s.tick + 1).toNat
      · exact .inr (.inr (.inr ⟨l, rfl, hl, hb, (if_neg hl).trans (if_pos hb)⟩))
      · exact .inr (.inr (.inl ⟨l, rfl, hl, Nat.le_of_not_lt hb, (if_neg hl).trans (if_neg hb)⟩))

/-- Every instruction completes: `exec` always answers a next state. -/
theorem exec_next (i : Instr) (s : State) : ∃ t, exec i s = .next t := by
  cases i <;> exact ⟨_, rfl⟩

/-- The instruction each phase's selector gives, and that only IDLE gives none. -/
theorem decodeSelector_selector (s : State) :
    decodeSelector (selector s) =
      match s.ph with
      | .idle => .error .idleSelector
      | .gsus => .ok (.gsus s.var)
      | .wake => .ok (.wake s.var)
      | .req => .ok (.req s.var)
      | .ackh => .ok (.ackh s.var)
      | .ackl => .ok (.ackl s.var)
      | .bith => .ok (.bith s.var)
      | .bitl => .ok (.bitl s.var)
      | .store => .ok (.store s.var)
      | .gres => .ok (.gres s.var)
      | .csum => .ok (.csum s.var)
      | .dec => .ok (match s.var with | .a => .decA | .b => .decB)
      | .rchk => .ok (.rchk s.var)
      | .pub => .ok (.pub s.var) := by
  unfold selector
  cases s.ph <;> cases s.var <;> rfl

/-- What running a micro-operation can do: the environment answers for ever; it answers this once more; it never
answers again and nothing happens; or the micro-operation needs no answer. -/
theorem runMicroOp_cases (i : Instr) (s : State) :
    (s.world.answers = none ∧ runMicroOp i s = exec i s) ∨
    (usesPin s.ph = true ∧ s.world.answers = some 0 ∧ runMicroOp i s = .next s) ∨
    (usesPin s.ph = true ∧ ∃ n, s.world.answers = some (n + 1) ∧
      runMicroOp i s = exec i (s.setWorld { s.world with answers := some n })) ∨
    (usesPin s.ph = false ∧ runMicroOp i s = exec i s) := by
  unfold runMicroOp
  cases hp : usesPin s.ph with
  | false => exact .inr (.inr (.inr ⟨rfl, by simp⟩))
  | true =>
    match h : s.world.answers with
    | none => exact .inl ⟨rfl, by simp⟩
    | some 0 => exact .inr (.inl ⟨rfl, rfl, by simp⟩)
    | some (n + 1) => exact .inr (.inr (.inl ⟨rfl, n, rfl, by simp⟩))

/-- In IDLE the engine's turn does nothing. -/
theorem engineTurn_idle (s : State) (h : s.ph = .idle) : engineTurn s = .next s := by
  unfold engineTurn
  rw [decodeSelector_selector, h]

/-- The engine's turn runs the instruction of the selector. -/
theorem engineTurn_of_decode (s : State) (i : Instr) (h : decodeSelector (selector s) = .ok i) :
    engineTurn s = runMicroOp i s := by
  unfold engineTurn
  rw [h]

/-- What an engine turn that answers a next state did: nothing, or the instruction of the selector, on a state in which
only the environment's count of answers may have changed. -/
theorem engineTurn_next (s t : State) (h : engineTurn s = .next t) :
    t = s ∨ ∃ i a, decodeSelector (selector s) = .ok i ∧
      exec i (s.setWorld { s.world with answers := a }) = .next t := by
  cases hd : decodeSelector (selector s) with
  | error r =>
    unfold engineTurn at h
    rw [hd] at h
    cases h
    exact .inl rfl
  | ok i =>
    rw [engineTurn_of_decode s i hd] at h
    rcases runMicroOp_cases i s with ⟨_, k⟩ | ⟨_, _, k⟩ | ⟨_, n, _, k⟩ | ⟨_, k⟩ <;> rw [k] at h
    · exact .inr ⟨i, s.world.answers, rfl, h⟩
    · cases h
      exact .inl rfl
    · exact .inr ⟨i, some n, rfl, h⟩
    · exact .inr ⟨i, s.world.answers, rfl, h⟩

/-- A command word's three readings and the reserved rest. -/
theorem decodeCommand_cases (w : Word) :
    decodeCommand w = .error .reservedCommand ∨ (∃ v, decodeCommand w = .ok (.nop v)) ∨
    decodeCommand w = .ok .readA ∨ decodeCommand w = .ok .readB := by
  unfold decodeCommand
  split
  · exact .inl rfl
  · split
    · exact .inr (.inl ⟨_, rfl⟩)
    · split
      · exact .inr (.inr (.inl rfl))
      · exact .inr (.inr (.inr rfl))

/-- What a register write can do: change nothing, be an accepted READ, or be refused. -/
theorem writeRegister_cases (idx : Nat) (v : Word) (s : State) :
    writeRegister idx v s = .next s ∨
    (∃ x, s.ph = .idle ∧ writeRegister idx v s = .next (acceptRead x s)) ∨
    (5 < idx ∧ writeRegister idx v s = .refused (.noSuchRegister idx)) := by
  unfold writeRegister
  split
  · unfold writeCommand
    have key : ∀ x, readCommand x s = s ∨ (s.ph = .idle ∧ readCommand x s = acceptRead x s) := by
      intro x
      unfold readCommand
      split
      · exact .inr ⟨‹_›, rfl⟩
      · exact .inl rfl
    rcases decodeCommand_cases v with h | ⟨x, h⟩ | h | h <;> rw [h]
    · exact .inl rfl
    · exact .inl rfl
    · rcases key .a with k | ⟨k, k'⟩
      · exact .inl (congrArg Host.Outcome.next k)
      · exact .inr (.inl ⟨.a, k, congrArg Host.Outcome.next k'⟩)
    · rcases key .b with k | ⟨k, k'⟩
      · exact .inl (congrArg Host.Outcome.next k)
      · exact .inr (.inl ⟨.b, k, congrArg Host.Outcome.next k'⟩)
  · split
    · exact .inl rfl
    · exact .inr (.inr ⟨by omega, rfl⟩)

/-- What a register read can do: record the value, or be refused. -/
theorem readRegister_cases (idx : Nat) (s : State) :
    (∃ v, registerValue s idx = some v ∧
      readRegister idx s = .next (s.setWorld { s.world with seen := (idx, v) :: s.world.seen })) ∨
    readRegister idx s = .refused (.noSuchRegister idx) := by
  unfold readRegister
  cases registerValue s idx with
  | none => exact .inr rfl
  | some v => exact .inl ⟨v, rfl, rfl⟩

/-- What a host step that answers a next state did: it touched only the schedule and the record of values read, it was
an accepted READ, or it was a reset in IDLE. -/
theorem hostTurn_next (h : HostStep) (s t : State) (ht : hostTurn h s = .next t) :
    (∃ sched seen, t = s.setWorld { s.world with sched := sched, seen := seen }) ∨
    (∃ x, s.ph = .idle ∧ t = acceptRead x s) ∨
    (s.BUSY = false ∧ t = resetRegisters s) := by
  have wr : ∀ idx v, writeRegister idx v s = .next t →
      (∃ sched seen, t = s.setWorld { s.world with sched := sched, seen := seen }) ∨
      (∃ x, s.ph = .idle ∧ t = acceptRead x s) := by
    intro idx v hw
    rcases writeRegister_cases idx v s with k | ⟨x, k, k'⟩ | ⟨_, k⟩
    · rw [k] at hw
      cases hw
      exact .inl ⟨s.world.sched, s.world.seen, rfl⟩
    · rw [k'] at hw
      cases hw
      exact .inr ⟨x, k, rfl⟩
    · rw [k] at hw
      cases hw
  have rd : ∀ idx, readRegister idx s = .next t →
      ∃ sched seen, t = s.setWorld { s.world with sched := sched, seen := seen } := by
    intro idx hr
    rcases readRegister_cases idx s with ⟨v, _, k⟩ | k
    · rw [k] at hr
      cases hr
      exact ⟨s.world.sched, _, rfl⟩
    · rw [k] at hr
      cases hr
  cases h with
  | regRead idx => exact .inl (rd idx ht)
  | regWrite idx v => exact (wr idx v ht).imp_right .inl
  | busRead addr bytes =>
    simp only [hostTurn] at ht
    split at ht
    · exact .inl (rd _ ht)
    · cases ht
  | busWrite addr bytes v =>
    simp only [hostTurn] at ht
    split at ht
    · exact (wr _ v ht).imp_right .inl
    · cases ht
  | waitDone =>
    cases ht
    exact .inl ⟨_, _, rfl⟩
  | reset =>
    simp only [hostTurn] at ht
    split at ht
    · cases ht
    · cases ht
      exact .inr (.inr ⟨by simpa using ‹¬s.BUSY = true›, rfl⟩)

/-- What a step that answers a next state did: an engine turn, a host step that touched only the schedule and the
record, an accepted READ, a reset in IDLE, or a change of the environment's script; in each case on a state whose
schedule alone may have changed. -/
theorem step_next (s t : State) (h : step s = .next t) :
    ∃ sched, (engineTurn (s.setWorld { s.world with sched := sched }) = .next t) ∨
      (∃ seen, t = s.setWorld { s.world with sched := sched, seen := seen }) ∨
      (∃ x, s.ph = .idle ∧ t = acceptRead x (s.setWorld { s.world with sched := sched })) ∨
      (s.BUSY = false ∧ t = resetRegisters (s.setWorld { s.world with sched := sched })) ∨
      (∃ o, t = s.setWorld { s.world with sched := sched, oracle := o }) := by
  unfold step nextTurn at h
  split at h
  · next hs => exact ⟨s.world.sched, .inl h⟩
  · exact ⟨s.world.sched.tail, .inl h⟩
  · rcases hostTurn_next _ _ _ h with ⟨sched, seen, k⟩ | ⟨x, k, k'⟩ | ⟨k, k'⟩
    · exact ⟨sched, .inr (.inl ⟨seen, k⟩)⟩
    · exact ⟨s.world.sched.tail, .inr (.inr (.inl ⟨x, k, k'⟩))⟩
    · exact ⟨s.world.sched.tail, .inr (.inr (.inr (.inl ⟨k, k'⟩)))⟩
  · cases h
    exact ⟨s.world.sched.tail, .inr (.inr (.inr (.inr ⟨_, rfl⟩)))⟩

/-- Where back-to-back polls need not agree, or no poll came just before, the oracle's own answer is the answer. -/
theorem answerRead_of_oracle (p : Config.Platform) (w : World)
    (h : p.sameInstantPollsAgree = false ∨ sameInstantLevel w = none) : answerRead p w = oracleRead p w := by
  unfold answerRead agree
  rcases h with h | h <;> rw [h] <;> split <;> simp_all

/-- Where back-to-back polls agree and a poll came just before, its level is the answer, or the pin fails, whoever
answers (20_memory.md R52). -/
theorem answerRead_repeats (p : Config.Platform) (w : World) (l : Level) (hp : p.sameInstantPollsAgree = true)
    (hl : sameInstantLevel w = some l) : answerRead p w = .ok l ∨ ∃ e, answerRead p w = .err e := by
  unfold answerRead agree
  rw [hp, hl]
  cases oracleRead p w with
  | ok k => exact .inl rfl
  | err e => exact .inr ⟨e, rfl⟩

/-- What a configuration the rules work for holds. -/
theorem wf_cases (p : Config.Platform) (h : p.wf = true) :
    (1 ≤ p.pew ∧ p.pew ≤ 32) ∧ 4 ≤ p.regStride ∧ p.nBits = 40 ∧ p.frameBytes = 5 ∧
    (p.toAckHigh ≤ 126 ∧ p.toAckLow ≤ 126 ∧ p.toBitHigh ≤ 126 ∧ p.toBitLow ≤ 126) ∧
    1 ≤ p.bScale ∧ p.bScale ≤ 2 ^ 32 := by
  simp only [Config.Platform.wf, Bool.and_eq_true, decide_eq_true_eq] at h
  omega

/-- A frame of five bytes carries its checksum in byte 4. -/
theorem transmitted_of_frameBytes (p : Config.Platform) (f : Frame) (h : p.frameBytes = 5) :
    f.transmitted p = f.b4 := by
  simp [Frame.transmitted, h, Frame.get]

/-- The computed checksum of a frame of five bytes is the sum of bytes 0 to 3 modulo 256 (R110). -/
theorem checksum_of_frameBytes (p : Config.Platform) (f : Frame) (h : p.frameBytes = 5) :
    f.checksum p = BitVec.ofNat 8 (f.b0.toNat + f.b1.toNat + f.b2.toNat + f.b3.toNat) := by
  simp [Frame.checksum, h, Frame.sum, Frame.get]

/-- Writing one bit of a byte changes that bit and no other. -/
theorem getLsbD_putBit (b : Byte) (shift j : Nat) (v : Bool) (hs : shift < 8) (hj : j < 8) :
    (putBit b shift v).getLsbD j = if j = shift then v else b.getLsbD j := by
  have h1 : ((1 : Byte) <<< shift).getLsbD j = decide (j = shift) := by
    rw [show (1 : Byte) = 1#8 from rfl, BitVec.getLsbD_shiftLeft, BitVec.getLsbD_one]
    by_cases h : j = shift
    · simp [h, hs]
    · by_cases h' : j < shift
      · simp [h, h']
      · have : j - shift ≠ 0 := by omega
        simp [h, h', this]
  cases v
  · simp only [putBit, Bool.false_eq_true, if_false, BitVec.getLsbD_and, BitVec.getLsbD_not, h1, hj]
    by_cases hjs : j = shift <;> simp [hjs]
  · simp only [putBit, if_true, BitVec.getLsbD_or, h1]
    by_cases hjs : j = shift <;> simp [hjs]

end Machine
end Sys2Proof
end

