-- ==== Sys2Proof/Laws/Moves.lean ====
section
/-! SUPPORT. The engine's moves as a relation, one rule for each row of the transition table (41_protocol_engine.md R90),
and the lemma that the engine makes no other: later proofs split on the moves instead of unfolding the meanings. -/

namespace Sys2Proof
namespace Machine

/-- The wait a phase runs. -/
inductive WaitPhase (p : Config.Platform) : Phase → Wait → Prop where
  | ackh : WaitPhase p .ackh (ackhWait p)
  | ackl : WaitPhase p .ackl (acklWait p)
  | bith : WaitPhase p .bith (bithWait p)
  | bitl : WaitPhase p .bitl (bitlWait p)

/-- One move of the engine from `s`. -/
inductive EngineMove (s : State) : State → Prop where
  | gsus (h : s.ph = .gsus) : EngineMove s (State.setPh .wake { s.suspend with g := true })
  | wakeOk (h : s.ph = .wake) (a : s.answerSet = .ok) :
      EngineMove s (((s.pinSet .low).delay s.platform.tWakeUs).setPh .req)
  | wakeErr (h : s.ph = .wake) (e : PinErr) (a : s.answerSet = .err e) :
      EngineMove s (raise (.pinError e) (s.pinSet .low))
  | reqOk (h : s.ph = .req) (a : s.answerSet = .ok) :
      EngineMove s ((((s.pinSet .high).delay s.platform.tReqUs).setTick 0).setPh .ackh)
  | reqErr (h : s.ph = .req) (e : PinErr) (a : s.answerSet = .err e) :
      EngineMove s (raise (.pinError e) (s.pinSet .high))
  | pollErr (wt : Wait) (h : WaitPhase s.platform s.ph wt) (e : PinErr) (a : s.answerRead = .err e) :
      EngineMove s (raise (.pinError e) s.pinRead)
  | pollMatch (wt : Wait) (h : WaitPhase s.platform s.ph wt) (a : s.answerRead = .ok wt.target) :
      EngineMove s (((s.pinRead.setEl s.tick).setTick 0).setPh wt.next)
  | pollAgain (wt : Wait) (h : WaitPhase s.platform s.ph wt) (l : Level) (a : s.answerRead = .ok l) (hl : l ≠ wt.target)
      (hb : (s.tick + 1).toNat ≤ wt.bound) :
      EngineMove s ((s.pinRead.delay s.platform.pollPeriodUs).setTick (s.tick + 1))
  | pollBound (wt : Wait) (h : WaitPhase s.platform s.ph wt) (l : Level) (a : s.answerRead = .ok l) (hl : l ≠ wt.target)
      (hb : wt.bound < (s.tick + 1).toNat) :
      EngineMove s (raise wt.failure ((s.pinRead.delay s.platform.pollPeriodUs).setTick (s.tick + 1)))
  | storeLast (h : s.ph = .store) (hb : s.bit.toNat = s.platform.nBits - 1) :
      EngineMove s ((storeCell s).setPh .gres)
  | storeNext (h : s.ph = .store) (hb : s.bit.toNat ≠ s.platform.nBits - 1) :
      EngineMove s { storeCell s with bit := s.bit + 1, tick := 0, ph := .bith }
  | gresOk (h : s.ph = .gres) (e : s.err.tag = .none) :
      EngineMove s (State.setPh .csum { s.resume with g := false })
  | gresFailed (h : s.ph = .gres) (e : s.err.tag ≠ .none) :
      EngineMove s (State.setPh .pub { s.resume with g := false })
  | csumOk (h : s.ph = .csum) (c : s.f.checksum s.platform = s.f.transmitted s.platform) : EngineMove s (s.setPh .dec)
  | csumFailed (h : s.ph = .csum) (c : s.f.checksum s.platform ≠ s.f.transmitted s.platform) :
      EngineMove s (raise (.checksumMismatch (s.f.transmitted s.platform) (s.f.checksum s.platform)) s)
  | dec (h : s.ph = .dec) : EngineMove s (stageReading (decodeFrame s.platform s.var s.f) s)
  | rchkOk (h : s.ph = .rchk) (r : humidityOutOfRange s.platform s.hum = false) : EngineMove s (s.setPh .pub)
  | rchkFailed (h : s.ph = .rchk) (r : humidityOutOfRange s.platform s.hum = true) : EngineMove s (raise .invalidData s)
  | pub (h : s.ph = .pub) : EngineMove s { publishOutcome s with BUSY := false, DONE := true, ph := .idle }

theorem lwIter_move (s : State) (wt : Wait) (h : WaitPhase s.platform s.ph wt) : EngineMove s (lwIter wt s) := by
  rcases lwIter_cases wt s with ⟨e, a, k⟩ | ⟨a, k⟩ | ⟨l, a, hl, hb, k⟩ | ⟨l, a, hl, hb, k⟩ <;> rw [k]
  · exact .pollErr wt h e a
  · exact .pollMatch wt h a
  · exact .pollAgain wt h l a hl hb
  · exact .pollBound wt h l a hl hb

/-- The instruction the selector gives makes one of the engine's moves. -/
theorem exec_move (s t : State) (i : Instr) (hd : decodeSelector (selector s) = .ok i) (h : exec i s = .next t) :
    EngineMove s t := by
  rw [decodeSelector_selector] at hd
  cases hp : s.ph <;> rw [hp] at hd
  case idle => cases hd
  case gsus => cases hd; cases h; exact .gsus hp
  case wake =>
    cases hd; cases h
    rcases setAndHold_cases .low s.platform.tWakeUs (State.setPh .req) s with ⟨a, k⟩ | ⟨e, a, k⟩ <;> rw [k]
    · exact .wakeOk hp a
    · exact .wakeErr hp e a
  case req =>
    cases hd; cases h
    rcases setAndHold_cases .high s.platform.tReqUs (fun t => (t.setTick 0).setPh .ackh) s with ⟨a, k⟩ | ⟨e, a, k⟩ <;> rw [k]
    · exact .reqOk hp a
    · exact .reqErr hp e a
  case ackh => cases hd; cases h; exact lwIter_move s _ (hp ▸ .ackh)
  case ackl => cases hd; cases h; exact lwIter_move s _ (hp ▸ .ackl)
  case bith => cases hd; cases h; exact lwIter_move s _ (hp ▸ .bith)
  case bitl => cases hd; cases h; exact lwIter_move s _ (hp ▸ .bitl)
  case store =>
    cases hd; cases h
    by_cases hb : s.bit.toNat = s.platform.nBits - 1
    · rw [if_pos hb]; exact .storeLast hp hb
    · rw [if_neg hb]; exact .storeNext hp hb
  case gres =>
    cases hd; cases h
    by_cases he : s.err.tag = .none
    · rw [if_pos he]; exact .gresOk hp he
    · rw [if_neg he]; exact .gresFailed hp he
  case csum =>
    cases hd; cases h
    by_cases hc : s.f.checksum s.platform = s.f.transmitted s.platform
    · rw [if_pos hc]; exact .csumOk hp hc
    · rw [if_neg hc]; exact .csumFailed hp hc
  case dec =>
    have hm : EngineMove s (stageReading (decodeFrame s.platform s.var s.f) s) := .dec hp
    cases hv : s.var <;> rw [hv] at hd hm <;> cases hd <;> cases h <;> exact hm
  case rchk =>
    cases hd; cases h
    cases hr : humidityOutOfRange s.platform s.hum
    · exact .rchkOk hp hr
    · exact .rchkFailed hp hr
  case pub => cases hd; cases h; exact .pub hp

/-- What a step that answers a next state can do, whole: for a property of states that the schedule, the script, the
count of answers and the record of values read do not touch, it is enough to look at an accepted READ, a reset in
IDLE and the engine's moves. -/
theorem step_keeps {P : State → Prop} (s t : State) (h : step s = .next t)
    (outside : ∀ o a sc se,
      P (s.setWorld { s.world with oracle := o, answers := a, sched := sc, seen := se }))
    (accepted : ∀ u x, P u → u.ph = .idle → P (acceptRead x u))
    (reset : ∀ u, P u → u.BUSY = false → P (resetRegisters u))
    (moved : ∀ u, P u → EngineMove u t → P t) : P t := by
  obtain ⟨sched, h | ⟨seen, rfl⟩ | ⟨x, hi, rfl⟩ | ⟨hb, rfl⟩ | ⟨o, rfl⟩⟩ := step_next s t h
  · rcases engineTurn_next _ t h with rfl | ⟨i, a, hd, he⟩
    · exact outside s.world.oracle s.world.answers sched s.world.seen
    · refine moved _ (outside s.world.oracle a sched s.world.seen) (exec_move _ t i ?_ he)
      exact hd
  · exact outside s.world.oracle s.world.answers sched seen
  · exact accepted _ x (outside s.world.oracle s.world.answers sched s.world.seen) hi
  · exact reset _ (outside s.world.oracle s.world.answers sched s.world.seen) hb
  · exact outside o s.world.answers sched s.world.seen

end Machine
end Sys2Proof
end

