-- ==== Sys2Proof/Laws/PerInstr.lean ====
section
/-! SUPPORT. The family OpcodeTable: each instruction's encoding has the bits its row of spec/opcode_table.json fixes, in
the row's width, and leaves open only the bits the row leaves open. -/

namespace Sys2Proof
namespace Laws

/-- A row of spec/opcode_table.json: format width in bytes, match, mask. -/
def opcodeRow : Instr → Nat × Nat × Nat
  | .readA => (4, 0x00000001, 0xFFFFFFFF)
  | .readB => (4, 0x00000003, 0xFFFFFFFF)
  | .nop _ => (4, 0x00000000, 0xFFFFFFFD)
  | .gsus _ => (1, 0x02, 0x1E)
  | .wake _ => (1, 0x04, 0x1E)
  | .req _ => (1, 0x06, 0x1E)
  | .ackh _ => (1, 0x08, 0x1E)
  | .ackl _ => (1, 0x0A, 0x1E)
  | .bith _ => (1, 0x0C, 0x1E)
  | .bitl _ => (1, 0x0E, 0x1E)
  | .store _ => (1, 0x10, 0x1E)
  | .gres _ => (1, 0x12, 0x1E)
  | .csum _ => (1, 0x14, 0x1E)
  | .decA => (1, 0x16, 0x1F)
  | .decB => (1, 0x17, 0x1F)
  | .rchk _ => (1, 0x18, 0x1E)
  | .pub _ => (1, 0x1A, 0x1E)

/-- The encoding has the row's width, matches the row under its mask, and decodes back to the instruction. -/
def OpcodeTable.Statement (i : Instr) : Prop :=
  (encodeNumber i).1 = (opcodeRow i).1 ∧ (encodeNumber i).2 &&& (opcodeRow i).2.2 = (opcodeRow i).2.1 ∧
    decode (encode i) = .ok i

theorem OpcodeTable.readA : OpcodeTable.Statement .readA := ⟨by decide, by decide, rfl⟩

theorem OpcodeTable.readB : OpcodeTable.Statement .readB := ⟨by decide, by decide, rfl⟩

theorem OpcodeTable.nop (v : Variant) : OpcodeTable.Statement (.nop v) := by
  cases v <;> exact ⟨by decide, by decide, rfl⟩

theorem OpcodeTable.gsus (v : Variant) : OpcodeTable.Statement (.gsus v) := by
  cases v <;> exact ⟨by decide, by decide, rfl⟩

theorem OpcodeTable.wake (v : Variant) : OpcodeTable.Statement (.wake v) := by
  cases v <;> exact ⟨by decide, by decide, rfl⟩

theorem OpcodeTable.req (v : Variant) : OpcodeTable.Statement (.req v) := by
  cases v <;> exact ⟨by decide, by decide, rfl⟩

theorem OpcodeTable.ackh (v : Variant) : OpcodeTable.Statement (.ackh v) := by
  cases v <;> exact ⟨by decide, by decide, rfl⟩

theorem OpcodeTable.ackl (v : Variant) : OpcodeTable.Statement (.ackl v) := by
  cases v <;> exact ⟨by decide, by decide, rfl⟩

theorem OpcodeTable.bith (v : Variant) : OpcodeTable.Statement (.bith v) := by
  cases v <;> exact ⟨by decide, by decide, rfl⟩

theorem OpcodeTable.bitl (v : Variant) : OpcodeTable.Statement (.bitl v) := by
  cases v <;> exact ⟨by decide, by decide, rfl⟩

theorem OpcodeTable.store (v : Variant) : OpcodeTable.Statement (.store v) := by
  cases v <;> exact ⟨by decide, by decide, rfl⟩

theorem OpcodeTable.gres (v : Variant) : OpcodeTable.Statement (.gres v) := by
  cases v <;> exact ⟨by decide, by decide, rfl⟩

theorem OpcodeTable.csum (v : Variant) : OpcodeTable.Statement (.csum v) := by
  cases v <;> exact ⟨by decide, by decide, rfl⟩

theorem OpcodeTable.decA : OpcodeTable.Statement .decA := ⟨by decide, by decide, rfl⟩

theorem OpcodeTable.decB : OpcodeTable.Statement .decB := ⟨by decide, by decide, rfl⟩

theorem OpcodeTable.rchk (v : Variant) : OpcodeTable.Statement (.rchk v) := by
  cases v <;> exact ⟨by decide, by decide, rfl⟩

theorem OpcodeTable.pub (v : Variant) : OpcodeTable.Statement (.pub v) := by
  cases v <;> exact ⟨by decide, by decide, rfl⟩

end Laws
end Sys2Proof
end

