-- ==== Sys2Proof/Laws/Safety.lean ====
section
/-! SUPPORT. The small lemmas of the terms of Safety.lean: what each transaction adds to the record, and what a row of
non-matching polls leaves as it was. -/

namespace Sys2Proof
namespace Machine

variable (p : Config.Platform) (w : World)

theorem Gained.refl : Gained w [] w := ⟨rfl, rfl, rfl, rfl, rfl, rfl, rfl⟩

theorem delaySum_append (es fs : List Event) : delaySum (es ++ fs) = delaySum es + delaySum fs := by
  induction es with
  | nil => simp [delaySum]
  | cons e es ih => cases e <;> simp [delaySum, ih, Nat.add_assoc]

/-- The record after two gains is the record after the second on top of the first. -/
theorem Gained.trans {w0 w1 w2 : World} {es fs : List Event} (h : Gained w0 es w1) (k : Gained w1 fs w2) :
    Gained w0 (fs ++ es) w2 := by
  refine ⟨?_, ?_, ?_, ?_, ?_, ?_, ?_⟩
  · rw [k.trace, h.trace, List.append_assoc]
  · rw [k.tau, h.tau, delaySum_append]; omega
  · rw [k.sets, h.sets, setCount, setCount, setCount, List.countP_append]; omega
  · rw [k.reads, h.reads, readCount, readCount, readCount, List.countP_append]; omega
  · rw [k.sched, h.sched]
  · rw [k.seen, h.seen]
  · rw [k.answers, h.answers]

/-- A `PinSet` adds its event and nothing else. -/
theorem gained_pinSet (l : Level) : Gained w [.pinSet l (answerSet p w)] (w.pinSet p l) :=
  ⟨rfl, rfl, rfl, rfl, rfl, rfl, rfl⟩

/-- A `PinRead` adds its event and nothing else. -/
theorem gained_pinRead : Gained w [.pinRead (answerRead p w)] (w.pinRead p) := ⟨rfl, rfl, rfl, rfl, rfl, rfl, rfl⟩

/-- A `Delay` adds its event and its time and nothing else. -/
theorem gained_delay (n : Nat) : Gained w [.delay n] (w.delay n) := ⟨rfl, rfl, rfl, rfl, rfl, rfl, rfl⟩

@[simp] theorem afterPolls_zero : afterPolls p 0 w = w := rfl

@[simp] theorem afterPolls_succ (k : Nat) :
    afterPolls p (k + 1) w = afterPolls p k ((w.pinRead p).delay p.pollPeriodUs) := rfl

/-- The last of `k` + 1 polls comes after the first `k`. -/
theorem afterPolls_succ_last (k : Nat) (w : World) :
    afterPolls p (k + 1) w = ((afterPolls p k w).pinRead p).delay p.pollPeriodUs := by
  induction k generalizing w with
  | zero => rfl
  | succ k ih => exact ih ((w.pinRead p).delay p.pollPeriodUs)

theorem afterPolls_sched (k : Nat) (w : World) : (afterPolls p k w).sched = w.sched := by
  induction k generalizing w with
  | zero => rfl
  | succ k ih => exact ih ((w.pinRead p).delay p.pollPeriodUs)

theorem afterPolls_answers (k : Nat) (w : World) : (afterPolls p k w).answers = w.answers := by
  induction k generalizing w with
  | zero => rfl
  | succ k ih => exact ih ((w.pinRead p).delay p.pollPeriodUs)

end Machine
end Sys2Proof
end

