-- ==== Sys2Proof/Tests/Slice0.lean ====
section
/-! SUPPORT. The tests: what well-formedness refuses, words written out from the spec's encodings, one-step checks with
results taken from spec/95_test_vectors.md and the worked examples of the rules, and a witness for every statement that
has hypotheses. -/

namespace Sys2Proof
namespace Tests

open Sys2Proof.Machine

/-- A world whose pin answers as listed. -/
def answering (sets : List SetAnswer) (reads : List ReadAnswer) : World :=
  { World.initial with oracle := .general sets reads }

/-- A read in progress in a phase, its pin answering as listed. -/
def reading (ph : Phase) (sets : List SetAnswer) (reads : List ReadAnswer) : State :=
  { State.reset with ph := ph, BUSY := true, g := guardHeld ph, world := answering sets reads }

/-- The state with its next turns listed. -/
def scheduled (turns : List Turn) (s : State) : State := s.setWorld { s.world with sched := turns }

/-- Validation in progress on a frame. -/
def framed (ph : Phase) (f : Frame) : State := { reading ph [] [] with f := f }

/-- The frame of the spec's variant B example (S3). -/
def frameB : Frame := ⟨0x02, 0x58, 0x01, 0x0A, 0x65⟩

/-- The state after a finished read: vector V-C1, a checksum mismatch. -/
def mismatched : State :=
  { State.reset with DONE := true, ERR := .checksumMismatch, ERRINFO := 0x6564 }

/-- The next state of an outcome, if it is one. -/
def after : Host.Outcome State Fault Refusal → Option State
  | .next s => some s
  | .fault _ => none
  | .refused _ => none

/-- The refusal of an outcome, if it is one. -/
def refusalOf : Host.Outcome State Fault Refusal → Option Refusal
  | .next _ => none
  | .fault _ => none
  | .refused r => some r

/-! ## Well-formedness refuses -/

theorem test_wf_refuses_pew_0 : Config.Platform.wf { Config.swspe with pew := 0 } = false := by decide
theorem test_wf_refuses_pew_33 : Config.Platform.wf { Config.swspe with pew := 33 } = false := by decide
theorem test_wf_refuses_overlapping_registers : Config.Platform.wf { Config.swspe with regStride := 3 } = false := by
  decide
theorem test_wf_refuses_nBits_39 : Config.Platform.wf { Config.swspe with nBits := 39 } = false := by decide
theorem test_wf_refuses_frame_of_6 :
    Config.Platform.wf { Config.swspe with nBits := 48, frameBytes := 6 } = false := by decide
theorem test_wf_refuses_bound_tick_cannot_pass : Config.Platform.wf { Config.swspe with toBitLow := 127 } = false := by
  decide
theorem test_wf_refuses_division_by_0 : Config.Platform.wf { Config.swspe with bScale := 0 } = false := by decide
theorem test_wf_accepts_pew_32 : Config.Platform.wf { Config.swspe with pew := 32 } = true := by decide
theorem test_wf_refuses_read_of_register_6 : HostStep.wf Config.swspe (.regRead 6) = false := by decide
theorem test_wf_refuses_write_of_register_6 : HostStep.wf Config.swspe (.regWrite 6 0) = false := by decide
theorem test_wf_refuses_byte_access : HostStep.wf Config.swspe (.busRead 4 1) = false := by decide
theorem test_wf_refuses_address_below_base : HostStep.wf { Config.swspe with regBase := 0x100 } (.busRead 0xFC 4) = false := by decide
theorem test_wf_refuses_misaligned_address : HostStep.wf Config.swspe (.busWrite 0x02 4 1) = false := by decide
theorem test_wf_refuses_address_past_registers : HostStep.wf Config.swspe (.busRead 0x18 4) = false := by decide
theorem test_wf_refuses_turn_of_ill_formed_step : Turn.wf Config.swspe (.host (.regRead 6)) = false := by decide
theorem test_wf_accepts_last_register : HostStep.wf { Config.swspe with regBase := 0x100 } (.busRead 0x114 4) = true := by decide

/-! ## Words written out from 30_encoding.md R60 to R64 -/

-- Command words: bits 31:2 RSV, bit 1 VSEL, bit 0 GO (R60, R61).
theorem test_decode_readA : decodeTableWord 32 0b00000000000000000000000000000001 = some .readA := by decide
theorem test_decode_readB : decodeTableWord 32 0b00000000000000000000000000000011 = some .readB := by decide
theorem test_decode_nop_a : decodeTableWord 32 0b00000000000000000000000000000000 = some (.nop .a) := by decide
theorem test_decode_nop_b : decodeTableWord 32 0b00000000000000000000000000000010 = some (.nop .b) := by decide
theorem test_decode_reserved_low : decodeTableWord 32 0b00000000000000000000000000000101 = none := by decide
theorem test_decode_reserved_high : decodeTableWord 32 0b10000000000000000000000000000001 = none := by decide

-- Selectors: bits 4:1 ph, bit 0 var (R64).
theorem test_decode_gsus : decodeTableWord 8 0b00010 = some (.gsus .a) := by decide
theorem test_decode_wake : decodeTableWord 8 0b00100 = some (.wake .a) := by decide
theorem test_decode_req : decodeTableWord 8 0b00111 = some (.req .b) := by decide
theorem test_decode_ackh : decodeTableWord 8 0b01000 = some (.ackh .a) := by decide
theorem test_decode_ackl : decodeTableWord 8 0b01011 = some (.ackl .b) := by decide
theorem test_decode_bith : decodeTableWord 8 0b01100 = some (.bith .a) := by decide
theorem test_decode_bitl : decodeTableWord 8 0b01111 = some (.bitl .b) := by decide
theorem test_decode_store : decodeTableWord 8 0b10000 = some (.store .a) := by decide
theorem test_decode_gres : decodeTableWord 8 0b10011 = some (.gres .b) := by decide
theorem test_decode_csum : decodeTableWord 8 0b10100 = some (.csum .a) := by decide
theorem test_decode_decA : decodeTableWord 8 0b10110 = some .decA := by decide
theorem test_decode_decB : decodeTableWord 8 0b10111 = some .decB := by decide
theorem test_decode_rchk : decodeTableWord 8 0b11001 = some (.rchk .b) := by decide
theorem test_decode_pub : decodeTableWord 8 0b11010 = some (.pub .a) := by decide
theorem test_decode_idle : decodeSelector 0b00001 = .error .idleSelector := rfl
theorem test_decode_phase_14 : decodeSelector 0b11100 = .error .noSuchPhase := rfl
theorem test_decode_phase_15 : decodeSelector 0b11111 = .error .noSuchPhase := rfl
theorem test_decode_stray_bits : decodeTableWord 8 0b100010 = none := by decide
theorem test_decode_two_bytes : decode [0x01, 0x00] = .error .badLength := rfl

/-! ## One step each -/

-- V-H6, V-H7, V-H11: the acceptance clears what the last read left.
theorem test_readA_accepted :
    (after (exec .readA State.reset)).map (fun t => (statusWord t, t.var, t.ph, t.world.trace)) =
      some (0x00000001, .a, .gsus, []) := by decide
theorem test_readB_discards_last_result :
    (after (exec .readB mismatched)).map (fun t => (statusWord t, t.ERRINFO, t.var)) =
      some (0x00000001, 0x0000, .b) := by decide
-- V-H8: a READ.A during a read leaves the variant.
theorem test_readA_ignored_while_busy :
    (after (exec .readA { reading .ackh [] [] with var := .b })).map (fun t => (t.var, t.ph)) =
      some (.b, .ackh) := by decide
-- R142's example.
theorem test_nop_keeps_result :
    (after (exec (.nop .a) mismatched)).map (fun t => (statusWord t, t.ERRINFO)) = some (0x00000022, 0x6564) := by
  decide
-- V-H4: a reserved word in IDLE starts no read.
theorem test_reserved_word_starts_nothing :
    (after (step (scheduled [.host (.regWrite 0 0x00000005)] State.reset))).map (fun t => (t.ph, t.BUSY)) =
      some (.idle, false) := by decide
-- R135's example.
theorem test_gsus_raises_guard :
    (after (exec (.gsus .a) (reading .gsus [] []))).map (fun t => (t.g, t.ph, t.world.trace)) =
      some (true, .wake, [.guardSuspend]) := by decide
-- R91's example and V-X1.
theorem test_wake_pulse :
    (after (exec (.wake .a) (reading .wake [.ok] []))).map (fun t => (t.ph, t.world.tau, t.world.events)) =
      some (.req, 3000, [.pinSet .low .ok, .delay 3000]) := by decide
theorem test_wake_pin_error :
    (after (exec (.wake .a) (reading .wake [.err 0xA5] []))).map (fun t => (t.ph, t.err.tag, t.err.e, t.world.tau)) =
      some (.gres, .pinError, 0xA5, 0) := by decide
-- R92's example and P4.
theorem test_req_pulse :
    (after (exec (.req .b) (reading .req [.ok] []))).map (fun t => (t.ph, t.tick, t.world.events)) =
      some (.ackh, 0, [.pinSet .high .ok, .delay 25]) := by decide
theorem test_req_pin_error :
    (after (exec (.req .b) (reading .req [.err 0x3C] []))).map (fun t => (t.ph, t.err.e, t.world.events)) =
      some (.gres, 0x3C, [.pinSet .high (.err 0x3C)]) := by decide
-- V-L3 and V-L13 at their last poll.
theorem test_ackh_matches_at_bound :
    (after (exec (.ackh .a) { reading .ackh [] [.ok .high] with tick := 85 })).map (fun t => (t.ph, t.el, t.tick)) =
      some (.ackl, 85, 0) := by decide
theorem test_ackh_pin_error_beats_bound :
    (after (exec (.ackh .a) { reading .ackh [] [.err 0x7E] with tick := 85 })).map
        (fun t => (t.ph, t.err.tag, t.err.e, t.tick, t.world.tau)) =
      some (.gres, .pinError, 0x7E, 85, 0) := by decide
-- V-P1 at ACKL's last poll; R95's example at its last poll.
theorem test_ackl_not_present :
    (after (exec (.ackl .a) { reading .ackl [] [.ok .high] with tick := 85 })).map
        (fun t => (t.ph, t.err.tag, t.tick, t.world.tau)) =
      some (.gres, .notPresent, 86, 1) := by decide
theorem test_ackl_returns :
    (after (exec (.ackl .a) { reading .ackl [] [.ok .low] with tick := 80 })).map (fun t => (t.ph, t.el, t.tick)) =
      some (.bith, 80, 0) := by decide
-- V-L9, V-L10 at their last polls.
theorem test_bith_matches_at_bound :
    (after (exec (.bith .a) { reading .bith [] [.ok .high] with tick := 55 })).map (fun t => (t.ph, t.el)) =
      some (.bitl, 55) := by decide
theorem test_bith_timeout :
    (after (exec (.bith .a) { reading .bith [] [.ok .low] with tick := 55 })).map
        (fun t => (t.ph, t.err.tag, t.tick)) =
      some (.gres, .timeout, 56) := by decide
-- V-L7, V-L8 at their last polls.
theorem test_bitl_matches_at_bound :
    (after (exec (.bitl .a) { reading .bitl [] [.ok .low] with tick := 70 })).map (fun t => (t.ph, t.el)) =
      some (.store, 70) := by decide
theorem test_bitl_timeout :
    (after (exec (.bitl .a) { reading .bitl [] [.ok .high] with tick := 70 })).map
        (fun t => (t.ph, t.err.tag, t.tick)) =
      some (.gres, .timeout, 71) := by decide
-- R99's example, and the threshold at the last cell: a count of 30 clears bit 0 of byte 4.
theorem test_store_bit_9 :
    (after (exec (.store .a) { reading .store [] [] with bit := 9, el := 70 })).map (fun t => (t.f, t.bit, t.ph)) =
      some (⟨0x00, 0x40, 0x00, 0x00, 0x00⟩, 10, .bith) := by decide
theorem test_store_last_bit_at_threshold :
    (after (exec (.store .a) { framed .store ⟨0, 0, 0, 0, 0xFF⟩ with bit := 39, el := 30 })).map
        (fun t => (t.f.b4, t.bit, t.ph)) =
      some (0xFE, 39, .gres) := by decide
-- R136's example.
theorem test_gres_after_failure :
    (after (exec (.gres .a) { reading .gres [] [] with err := ⟨.notPresent, 0, 0, 0⟩ })).map
        (fun t => (t.g, t.ph, t.world.trace)) =
      some (false, .pub, [.guardResume]) := by decide
theorem test_gres_after_sampling :
    (after (exec (.gres .a) (reading .gres [] []))).map (fun t => (t.g, t.ph)) = some (false, .csum) := by decide
-- S3, V-C1.
theorem test_csum_matches : (after (exec (.csum .b) (framed .csum frameB))).map State.ph = some .dec := by decide
theorem test_csum_mismatch :
    (after (exec (.csum .b) (framed .csum ⟨0x02, 0x58, 0x01, 0x0A, 0x64⟩))).map
        (fun t => (t.ph, t.err.tag, t.err.t, t.err.c)) =
      some (.pub, .checksumMismatch, 0x64, 0x65) := by decide
-- S5, V-A2.
theorem test_decA_example :
    (after (exec .decA (framed .dec ⟨45, 0, 26, 0, 71⟩))).map (fun t => (t.hum, t.temp, t.ph)) =
      some (0x42340000, 0x41D00000, .rchk) := by decide
theorem test_decA_ignores_fractions :
    (after (exec .decA (framed .dec ⟨0x64, 0xFF, 0xFF, 0xFF, 0x61⟩))).map (fun t => (t.hum, t.temp)) =
      some (0x42C80000, 0x437F0000) := by decide
-- S4, V-B8.
theorem test_decB_negative :
    (after (exec .decB (framed .dec ⟨0x02, 0x58, 0x81, 0x0A, 0xE5⟩))).map (fun t => (t.hum, t.temp, t.ph)) =
      some (0x42700000, 0xC1D4CCCD, .rchk) := by decide
theorem test_decB_sign_magnitude :
    (after (exec .decB (framed .dec ⟨0xFF, 0xFF, 0xFF, 0xFF, 0xFC⟩))).map (fun t => (t.hum, t.temp)) =
      some (0x45CCCC00, 0xC54CCB33) := by decide
-- R112's example: 100.0 is accepted, 100.1 is not.
theorem test_rchk_accepts_100 :
    (after (exec (.rchk .b) { reading .rchk [] [] with hum := 0x42C80000 })).map (fun t => (t.ph, t.err.tag)) =
      some (.pub, .none) := by decide
theorem test_rchk_rejects_100_1 :
    (after (exec (.rchk .b) { reading .rchk [] [] with hum := 0x42C83333 })).map (fun t => (t.ph, t.err.tag)) =
      some (.pub, .invalidData) := by decide
-- R113's example; V-X1.
theorem test_pub_mismatch :
    (after (exec (.pub .b) { reading .pub [] [] with err := ⟨.checksumMismatch, 0x64, 0x65, 0⟩ })).map
        (fun t => (statusWord t, registerValue t 4, t.ph)) =
      some (0x00000022, some 0x00006564, .idle) := by decide
theorem test_pub_pin_error :
    (after (exec (.pub .b) { reading .pub [] [] with err := ⟨.pinError, 0, 0, 0xA5⟩ })).map
        (fun t => (statusWord t, registerValue t 5)) =
      some (0x00000052, some 0x000000A5) := by decide

-- The host's side: V-H10, V-H13, V-R2, R182.
theorem test_write_of_status_ignored :
    (after (step (scheduled [.host (.regWrite 1 0xFFFFFFFF)] mismatched))).map
        (fun t => (statusWord t, t.ERRINFO)) = some (0x00000022, 0x6564) := by decide
theorem test_read_of_register_6_refused :
    refusalOf (step (scheduled [.host (.regRead 6)] State.reset)) = some (.noSuchRegister 6) := by decide
theorem test_byte_access_refused :
    refusalOf (step (scheduled [.host (.busRead 4 1)] State.reset)) = some (.badAccessWidth 1) := by decide
theorem test_bus_read_of_status :
    (after (step (scheduled [.host (.busRead 4 4)] mismatched))).map (fun t => t.world.seen) =
      some [(1, 0x00000022)] := by decide
theorem test_reset_clears_result :
    (after (step (scheduled [.host .reset] mismatched))).map (fun t => (statusWord t, t.ERRINFO, t.world.trace)) =
      some (0x00000000, 0x0000, []) := by decide
theorem test_reset_while_busy_refused :
    refusalOf (step (scheduled [.host .reset] (reading .bith [] []))) = some .resetWhileBusy := by decide
-- V-E1's first cells; the reference oracle of R53 under the reference waveform's first segments.
theorem test_cells_of_a_byte :
    (cells frameB 50 26 70).take 16 = [(.low, 50), (.high, 26), (.low, 50), (.high, 26), (.low, 50), (.high, 26),
      (.low, 50), (.high, 26), (.low, 50), (.high, 26), (.low, 50), (.high, 26), (.low, 50), (.high, 70),
      (.low, 50), (.high, 26)] := by decide
theorem test_waveform_levels :
    [0, 2999, 3000, 3019, 3020, 3100].map (waveAt ⟨[(.low, 3000), (.high, 20), (.low, 80)], .high⟩) =
      [.low, .low, .high, .high, .low, .high] := by decide
-- F32Div10 and F32FromNat at the values of R127 and R128.
theorem test_div10_values :
    [0, 1, 9, 266, 1000, 1001, 12345, 32768, 65535].map f32Div10 =
      [0x00000000, 0x3DCCCCCD, 0x3F666666, 0x41D4CCCD, 0x42C80000, 0x42C83333, 0x449A5000, 0x454CCCCD,
        0x45CCCC00] := by decide
theorem test_fromNat_values :
    [0, 1, 2, 45, 127, 128, 255].map f32FromNat =
      [0x00000000, 0x3F800000, 0x40000000, 0x42340000, 0x42FE0000, 0x43000000, 0x437F0000] := by decide

-- The traces of V-X1, V-X2 and V-X3, and one with a poll after RESUME.
theorem test_shape_of_wake_failure : traceShape [.guardSuspend, .pinSet .low (.err 0xA5), .guardResume] = true := by
  decide
theorem test_shape_of_req_failure :
    traceShape [.guardSuspend, .pinSet .low .ok, .delay 3000, .pinSet .high (.err 0x3C), .guardResume] = true := by
  decide
theorem test_shape_of_poll_failure :
    traceShape [.guardSuspend, .pinSet .low .ok, .delay 3000, .pinSet .high .ok, .delay 25, .pinRead (.err 0x7E),
      .guardResume] = true := by decide
theorem test_shape_refuses_event_after_resume :
    traceShape [.guardSuspend, .pinSet .low (.err 0xA5), .guardResume, .delay 1] = false := by decide
theorem test_shape_refuses_no_poll :
    traceShape [.guardSuspend, .pinSet .low .ok, .delay 3000, .pinSet .high .ok, .delay 25, .guardResume] = false := by
  decide

-- The parameters are arguments (R3): another configuration's pulse, bound, threshold and divisor are used.
theorem test_wake_takes_its_parameter :
    (after (exec (.wake .a) { reading .wake [.ok] [] with platform := { Config.swspe with tWakeUs := 1000 } })).map
      (fun t => t.world.tau) = some 1000 := by decide
theorem test_bitl_takes_its_bound :
    (after (exec (.bitl .a) { reading .bitl [] [.ok .high] with
      tick := 60, platform := { Config.swspe with toBitLow := 60 } })).map (fun t => (t.ph, t.err.tag)) =
      some (.gres, .timeout) := by decide
theorem test_store_takes_its_threshold :
    (after (exec (.store .a) { reading .store [] [] with
      el := 30, platform := { Config.swspe with bitThreshold := 29 } })).map (fun t => t.f.b0) = some 0x80 := by decide
-- 1/2 and 6/4 are exact binary32 patterns; 60/7 = 8 + 4/7 by hand: exponent 3, significand 2^20 * 60/7 rounded.
theorem test_div_takes_its_divisor :
    [f32Div 2 1, f32Div 4 6, f32Div 7 60] = [0x3F000000, 0x3FC00000, 0x41092492] := by decide
-- R52: with the parameter set, a script swapped in between two polls at one instant does not part them.
theorem test_agreement_survives_a_new_script :
    (after (step { reading .bith [] [] with
      platform := { Config.swspe with sameInstantPollsAgree := true }
      world := { World.initial with
        trace := [.pinRead (.ok .high)], sched := [.environment (.reference ⟨[], .low⟩ [] [])] } })).map
      State.answerRead = some (.ok .high) := by decide

-- withFetchWord: the very next step after reset runs the instruction placed (log entry 6).
theorem test_placed_command_runs :
    (after (step (State.reset.withFetchWord 32 0x00000003))).map (fun t => (t.ph, t.var)) = some (.gsus, .b) := by
  decide
theorem test_placed_selector_runs :
    (after (step (State.reset.withFetchWord 8 0b10111))).map (fun t => (t.ph, t.var)) = some (.rchk, .b) := by decide

/-! ## Witnesses: states and operands that meet a statement's hypotheses together, one theorem for each clause -/

/-- The configuration of State.reset has R3's values. -/
theorem r3_swspe : R3Values Config.swspe := by constructor <;> rfl

theorem witness_ConfigurationHasTheValuesOfR3_wf : ∃ p : Config.Platform,
    R3Values p ∧ 1 ≤ p.pew ∧ p.pew ≤ 32 ∧ 4 ≤ p.regStride := ⟨Config.swspe, r3_swspe, by decide⟩
theorem witness_ConfigurationHasTheValuesOfR3_step : ∃ s t : State, step s = .next t :=
  ⟨scheduled [.host .reset] State.reset, _, rfl⟩

theorem witness_SelectorsDecodeByTheTable_dec : ∃ (sel : BitVec 5) (v : Variant),
    v = Variant.ofBool (sel.getLsbD 0) ∧ sel &&& 0x1F = 0x17 := ⟨0x17, .b, by decide⟩
theorem witness_SelectorsDecodeByTheTable_last : ∃ (sel : BitVec 5) (v : Variant),
    v = Variant.ofBool (sel.getLsbD 0) ∧ sel &&& 0x1E = 0x1A := ⟨0x1B, .b, by decide⟩
theorem witness_SelectorsDecodeByTheTable_none : ∃ (sel : BitVec 5) (v : Variant),
    v = Variant.ofBool (sel.getLsbD 0) ∧ 0x1C ≤ sel.toNat := ⟨0x1C, .a, by decide⟩

theorem witness_EngineStepRunsTheSelectedInstruction_live : ∃ (s : State) (i : Instr) (rest : List Turn),
    s.world.sched = .engine :: rest ∧ decodeSelector (selector s) = .ok i ∧ s.world.answers = none :=
  ⟨scheduled [.engine] (reading .ackh [] [.ok .high]), .ackh .a, [], rfl, rfl, rfl⟩
theorem witness_EngineStepRunsTheSelectedInstruction_budget : ∃ (s : State) (i : Instr) (rest : List Turn) (n : Nat),
    s.world.sched = .engine :: rest ∧ decodeSelector (selector s) = .ok i ∧ s.world.answers = some (n + 1) ∧
      usesPin s.ph = true :=
  ⟨{ reading .wake [.ok] [] with world := { answering [.ok] [] with sched := [.engine], answers := some 1 } },
    .wake .a, [], 0, rfl, rfl, rfl, rfl⟩
theorem witness_EngineStepRunsTheSelectedInstruction_noPin : ∃ (s : State) (i : Instr) (rest : List Turn),
    s.world.sched = .engine :: rest ∧ decodeSelector (selector s) = .ok i ∧ usesPin s.ph = false :=
  ⟨scheduled [.engine, .engine] (framed .csum frameB), .csum .a, [.engine], rfl, rfl, rfl⟩

theorem witness_EngineRunsAloneAndIdlesInIdle_idle : ∃ s : State, EngineAlone s ∧ s.ph = .idle :=
  ⟨State.reset, rfl, rfl⟩
theorem witness_EngineRunsAloneAndIdlesInIdle_runs : ∃ (s : State) (i : Instr),
    EngineAlone s ∧ Live s ∧ decodeSelector (selector s) = .ok i :=
  ⟨reading .gsus [] [], .gsus .a, rfl, rfl, rfl⟩

theorem witness_CommandWriteRunsTheDecodedCommand_write : ∃ (s : State) (w : Word) (i : Instr) (rest : List Turn),
    decodeCommand w = .ok i ∧ s.world.sched = .host (.regWrite 0 w) :: rest :=
  ⟨scheduled [.host (.regWrite 0 3)] State.reset, 3, .readB, [], rfl, rfl⟩
theorem witness_CommandWriteRunsTheDecodedCommand_bus : ∃ (s : State) (w : Word) (i : Instr) (rest : List Turn),
    decodeCommand w = .ok i ∧ s.world.sched = .host (.busWrite s.platform.regBase 4 w) :: rest :=
  ⟨scheduled [.host (.busWrite 0 4 1)] State.reset, 1, .readA, [], rfl, rfl⟩

/-- A register invariant of a concrete state is a row of closed facts. -/
theorem regInv_reset : RegInv State.reset := by constructor <;> decide
theorem regInv_wake : RegInv (reading .wake [.ok] []) := by constructor <;> decide
theorem regInv_ackh_bound : RegInv { reading .ackh [] [.ok .low] with tick := 85 } := by constructor <;> decide
theorem regInv_mismatched : RegInv { mismatched with err := ⟨.checksumMismatch, 0x64, 0x65, 0⟩ } := by
  constructor <;> decide

theorem witness_UnansweredTransactionHangsTheRead : ∃ s : State,
    RegInv s ∧ EngineAlone s ∧ s.world.answers = some 0 ∧ usesPin s.ph = true :=
  ⟨{ reading .wake [.ok] [] with world := { answering [.ok] [] with answers := some 0 } },
    by constructor <;> decide, rfl, rfl, rfl⟩

theorem witness_ReadInIdleIsAccepted_a : ∃ (s : State) (i : Instr) (v : Variant),
    s.ph = .idle ∧ ((i = .readA ∧ v = .a) ∨ (i = .readB ∧ v = .b)) := ⟨mismatched, .readA, .a, by decide⟩
theorem witness_ReadInIdleIsAccepted_b : ∃ (s : State) (i : Instr) (v : Variant),
    s.ph = .idle ∧ ((i = .readA ∧ v = .a) ∨ (i = .readB ∧ v = .b)) := ⟨State.reset, .readB, .b, by decide⟩

theorem witness_CommandsDuringAReadAreIgnored : ∃ (s : State) (w : Word) (rest : List Turn),
    s.ph ≠ .idle ∧ s.world.sched = .host (.regWrite 0 w) :: rest :=
  ⟨scheduled [.host (.regWrite 0 1)] (reading .pub [] []), 1, [], by decide⟩

theorem witness_ReservedCommandWordIsIgnored_low : ∃ (s : State) (w : Word) (rest : List Turn),
    s.world.sched = .host (.regWrite 0 w) :: rest ∧ w.extractLsb' 2 30 ≠ 0 :=
  ⟨scheduled [.host (.regWrite 0 4)] State.reset, 4, [], by decide⟩
theorem witness_ReservedCommandWordIsIgnored_high : ∃ (s : State) (w : Word) (rest : List Turn),
    s.world.sched = .host (.regWrite 0 w) :: rest ∧ w.extractLsb' 2 30 ≠ 0 :=
  ⟨scheduled [.host (.regWrite 0 0x80000001)] State.reset, 0x80000001, [], by decide⟩

theorem witness_NopChangesNothing : ∃ (s : State) (w : Word) (rest : List Turn),
    s.world.sched = .host (.regWrite 0 w) :: rest ∧ w.extractLsb' 2 30 = 0 ∧ w.getLsbD 0 = false :=
  ⟨scheduled [.host (.regWrite 0 2)] (reading .bith [] []), 2, [], by decide⟩

theorem witness_RegisterReadsReturnTheirValues_cmd : ∃ (s : State) (rest : List Turn),
    s.world.sched = .host (.regRead 0) :: rest := ⟨scheduled [.host (.regRead 0)] mismatched, [], rfl⟩
theorem witness_RegisterReadsReturnTheirValues_status : ∃ (s : State) (rest : List Turn),
    s.world.sched = .host (.regRead 1) :: rest := ⟨scheduled [.host (.regRead 1)] mismatched, [], rfl⟩
theorem witness_RegisterReadsReturnTheirValues_hum : ∃ (s : State) (rest : List Turn),
    s.world.sched = .host (.regRead 2) :: rest := ⟨scheduled [.host (.regRead 2)] mismatched, [], rfl⟩
theorem witness_RegisterReadsReturnTheirValues_temp : ∃ (s : State) (rest : List Turn),
    s.world.sched = .host (.regRead 3) :: rest := ⟨scheduled [.host (.regRead 3)] mismatched, [], rfl⟩
theorem witness_RegisterReadsReturnTheirValues_errinfo : ∃ (s : State) (rest : List Turn),
    s.world.sched = .host (.regRead 4) :: rest := ⟨scheduled [.host (.regRead 4)] mismatched, [], rfl⟩
theorem witness_RegisterReadsReturnTheirValues_pinerr : ∃ (s : State) (rest : List Turn),
    s.world.sched = .host (.regRead 5) :: rest := ⟨scheduled [.host (.regRead 5)] mismatched, [], rfl⟩

theorem witness_OtherWritesHaveNoEffect_first : ∃ (s : State) (idx : Nat) (v : Word) (rest : List Turn),
    s.world.sched = .host (.regWrite idx v) :: rest ∧ 1 ≤ idx ∧ idx ≤ 5 :=
  ⟨scheduled [.host (.regWrite 1 0xFFFFFFFF)] mismatched, 1, 0xFFFFFFFF, [], by decide⟩
theorem witness_OtherWritesHaveNoEffect_last : ∃ (s : State) (idx : Nat) (v : Word) (rest : List Turn),
    s.world.sched = .host (.regWrite idx v) :: rest ∧ 1 ≤ idx ∧ idx ≤ 5 :=
  ⟨scheduled [.host (.regWrite 5 1)] mismatched, 5, 1, [], by decide⟩
theorem witness_OtherWritesHaveNoEffect_write6 : ∃ (s : State) (idx : Nat) (v : Word) (rest : List Turn),
    s.world.sched = .host (.regWrite idx v) :: rest ∧ 6 ≤ idx :=
  ⟨scheduled [.host (.regWrite 6 1)] State.reset, 6, 1, [], by decide⟩
theorem witness_OtherWritesHaveNoEffect_read6 : ∃ (s : State) (idx : Nat) (rest : List Turn),
    s.world.sched = .host (.regRead idx) :: rest ∧ 6 ≤ idx :=
  ⟨scheduled [.host (.regRead 6)] State.reset, 6, [], by decide⟩

theorem witness_BusAccessSelectsARegister_last : ∃ (p : Config.Platform) (addr bytes idx : Nat),
    1 ≤ p.regStride ∧ bytes = 4 ∧ idx ≤ 5 ∧ addr = p.regBase + p.regStride * idx := ⟨{ Config.swspe with regBase := 0x100 }, 0x114, 4, 5, by decide⟩
theorem witness_BusAccessSelectsARegister_width : ∃ (p : Config.Platform) (bytes : Nat),
    1 ≤ p.regStride ∧ bytes ≠ 4 := ⟨Config.swspe, 1, by decide⟩
theorem witness_BusAccessSelectsARegister_hole : ∃ (p : Config.Platform) (addr bytes : Nat),
    1 ≤ p.regStride ∧ bytes = 4 ∧ ¬∃ k, k ≤ 5 ∧ addr = p.regBase + p.regStride * k :=
  ⟨{ Config.swspe with regBase := 0x100 }, 0x118, 4, by decide, rfl, by rintro ⟨k, hk, h⟩; change 0x118 = 0x100 + 4 * k at h; omega⟩

theorem witness_ResetStepGivesTheResetValues_idle : ∃ (s : State) (rest : List Turn),
    s.world.sched = .host .reset :: rest ∧ s.BUSY = false :=
  ⟨scheduled [.host .reset] mismatched, [], by decide⟩
theorem witness_ResetStepGivesTheResetValues_busy : ∃ (s : State) (rest : List Turn),
    s.world.sched = .host .reset :: rest ∧ s.BUSY = true :=
  ⟨scheduled [.host .reset] (reading .wake [] []), [], by decide⟩

theorem witness_StatusTakesOnlyEightValues_busy : ∃ s : State, RegInv s ∧ s.BUSY = true :=
  ⟨_, regInv_wake, rfl⟩
theorem witness_StatusTakesOnlyEightValues_done : ∃ s : State, RegInv s ∧ s.ERR = .checksumMismatch :=
  ⟨_, regInv_mismatched, rfl⟩
theorem witness_ReadInProgressShowsNothingElse : ∃ s : State, RegInv s ∧ s.ph ≠ .idle :=
  ⟨_, regInv_ackh_bound, by decide⟩

theorem witness_WaitDoneReadsStatusUntilDone_done : ∃ (s : State) (rest : List Turn),
    s.world.sched = .host .waitDone :: rest ∧ s.DONE = true :=
  ⟨scheduled [.host .waitDone] mismatched, [], by decide⟩
theorem witness_WaitDoneReadsStatusUntilDone_waits : ∃ (s : State) (rest : List Turn),
    s.world.sched = .host .waitDone :: rest ∧ s.DONE = false :=
  ⟨scheduled [.host .waitDone] (reading .ackh [] []), [], by decide⟩

theorem witness_WakePullsLowOrRaisesPinError_ok : ∃ s : State, s.ph = .wake ∧ s.answerSet = .ok :=
  ⟨reading .wake [.ok] [], by decide⟩
theorem witness_WakePullsLowOrRaisesPinError_err : ∃ (s : State) (e : PinErr), s.ph = .wake ∧ s.answerSet = .err e :=
  ⟨reading .wake [.err 0xA5] [], 0xA5, by decide⟩
theorem witness_ReqReleasesOrRaisesPinError_ok : ∃ s : State, s.ph = .req ∧ s.answerSet = .ok :=
  ⟨reading .req [.ok] [], by decide⟩
theorem witness_ReqReleasesOrRaisesPinError_err : ∃ (s : State) (e : PinErr), s.ph = .req ∧ s.answerSet = .err e :=
  ⟨reading .req [.err 0] [], 0, by decide⟩

theorem witness_AckhWaitsForHigh_first : ∃ s : State, s.ph = .ackh ∧ s.platform.toAckHigh = 85 ∧ s.tick.toNat ≤ 85 ∧ s.answerRead = .ok .high :=
  ⟨reading .ackh [] [.ok .high], by decide⟩
theorem witness_AckhWaitsForHigh_match : ∃ s : State, s.ph = .ackh ∧ s.platform.toAckHigh = 85 ∧ s.tick.toNat = 85 ∧ s.answerRead = .ok .high :=
  ⟨{ reading .ackh [] [.ok .high] with tick := 85 }, by decide⟩
theorem witness_AckhWaitsForHigh_again : ∃ s : State, s.ph = .ackh ∧ s.platform.toAckHigh = 85 ∧ s.answerRead = .ok .low ∧ s.tick.toNat + 1 = 85 :=
  ⟨{ reading .ackh [] [.ok .low] with tick := 84 }, by decide⟩
theorem witness_AckhWaitsForHigh_exceeds : ∃ s : State,
    s.ph = .ackh ∧ s.platform.toAckHigh = 85 ∧ s.tick.toNat ≤ 85 ∧ s.answerRead = .ok .low ∧ 85 < s.tick.toNat + 1 :=
  ⟨{ reading .ackh [] [.ok .low] with tick := 85 }, by decide⟩
theorem witness_AckhWaitsForHigh_err : ∃ (s : State) (e : PinErr),
    s.ph = .ackh ∧ s.platform.toAckHigh = 85 ∧ s.tick.toNat ≤ 85 ∧ s.answerRead = .err e :=
  ⟨{ reading .ackh [] [.err 0x7E] with tick := 85 }, 0x7E, by decide⟩

theorem witness_AcklWaitsForLow_first : ∃ s : State, s.ph = .ackl ∧ s.platform.toAckLow = 85 ∧ s.tick.toNat ≤ 85 ∧ s.answerRead = .ok .low :=
  ⟨reading .ackl [] [.ok .low], by decide⟩
theorem witness_AcklWaitsForLow_match : ∃ s : State, s.ph = .ackl ∧ s.platform.toAckLow = 85 ∧ s.tick.toNat = 85 ∧ s.answerRead = .ok .low :=
  ⟨{ reading .ackl [] [.ok .low] with tick := 85 }, by decide⟩
theorem witness_AcklWaitsForLow_again : ∃ s : State, s.ph = .ackl ∧ s.platform.toAckLow = 85 ∧ s.answerRead = .ok .high ∧ s.tick.toNat + 1 = 85 :=
  ⟨{ reading .ackl [] [.ok .high] with tick := 84 }, by decide⟩
theorem witness_AcklWaitsForLow_exceeds : ∃ s : State,
    s.ph = .ackl ∧ s.platform.toAckLow = 85 ∧ s.tick.toNat ≤ 85 ∧ s.answerRead = .ok .high ∧ 85 < s.tick.toNat + 1 :=
  ⟨{ reading .ackl [] [.ok .high] with tick := 85 }, by decide⟩
theorem witness_AcklWaitsForLow_err : ∃ (s : State) (e : PinErr),
    s.ph = .ackl ∧ s.platform.toAckLow = 85 ∧ s.tick.toNat ≤ 85 ∧ s.answerRead = .err e :=
  ⟨{ reading .ackl [] [.err 0x7E] with tick := 85 }, 0x7E, by decide⟩

theorem witness_BithWaitsForHigh_first : ∃ s : State, s.ph = .bith ∧ s.platform.toBitHigh = 55 ∧ s.tick.toNat ≤ 55 ∧ s.answerRead = .ok .high :=
  ⟨reading .bith [] [.ok .high], by decide⟩
theorem witness_BithWaitsForHigh_match : ∃ s : State, s.ph = .bith ∧ s.platform.toBitHigh = 55 ∧ s.tick.toNat = 55 ∧ s.answerRead = .ok .high :=
  ⟨{ reading .bith [] [.ok .high] with tick := 55 }, by decide⟩
theorem witness_BithWaitsForHigh_again : ∃ s : State, s.ph = .bith ∧ s.platform.toBitHigh = 55 ∧ s.answerRead = .ok .low ∧ s.tick.toNat + 1 = 55 :=
  ⟨{ reading .bith [] [.ok .low] with tick := 54 }, by decide⟩
theorem witness_BithWaitsForHigh_exceeds : ∃ s : State,
    s.ph = .bith ∧ s.platform.toBitHigh = 55 ∧ s.tick.toNat ≤ 55 ∧ s.answerRead = .ok .low ∧ 55 < s.tick.toNat + 1 :=
  ⟨{ reading .bith [] [.ok .low] with tick := 55 }, by decide⟩
theorem witness_BithWaitsForHigh_err : ∃ (s : State) (e : PinErr),
    s.ph = .bith ∧ s.platform.toBitHigh = 55 ∧ s.tick.toNat ≤ 55 ∧ s.answerRead = .err e :=
  ⟨{ reading .bith [] [.err 0x7E] with tick := 55 }, 0x7E, by decide⟩

theorem witness_BitlWaitsForLow_first : ∃ s : State, s.ph = .bitl ∧ s.platform.toBitLow = 70 ∧ s.tick.toNat ≤ 70 ∧ s.answerRead = .ok .low :=
  ⟨reading .bitl [] [.ok .low], by decide⟩
theorem witness_BitlWaitsForLow_match : ∃ s : State, s.ph = .bitl ∧ s.platform.toBitLow = 70 ∧ s.tick.toNat = 70 ∧ s.answerRead = .ok .low :=
  ⟨{ reading .bitl [] [.ok .low] with tick := 70 }, by decide⟩
theorem witness_BitlWaitsForLow_again : ∃ s : State, s.ph = .bitl ∧ s.platform.toBitLow = 70 ∧ s.answerRead = .ok .high ∧ s.tick.toNat + 1 = 70 :=
  ⟨{ reading .bitl [] [.ok .high] with tick := 69 }, by decide⟩
theorem witness_BitlWaitsForLow_exceeds : ∃ s : State,
    s.ph = .bitl ∧ s.platform.toBitLow = 70 ∧ s.tick.toNat ≤ 70 ∧ s.answerRead = .ok .high ∧ 70 < s.tick.toNat + 1 :=
  ⟨{ reading .bitl [] [.ok .high] with tick := 70 }, by decide⟩
theorem witness_BitlWaitsForLow_err : ∃ (s : State) (e : PinErr),
    s.ph = .bitl ∧ s.platform.toBitLow = 70 ∧ s.tick.toNat ≤ 70 ∧ s.answerRead = .err e :=
  ⟨{ reading .bitl [] [.err 0x7E] with tick := 70 }, 0x7E, by decide⟩

theorem witness_StorePlacesOneBit_first : ∃ (s : State) (byte shift : Nat), s.platform.nBits = 40 ∧
    s.bit.toNat = 0 ∧ byte ≤ 4 ∧ shift ≤ 7 ∧
    byte = s.bit.toNat / 8 ∧ shift = 7 - s.bit.toNat % 8 := ⟨reading .store [] [], 0, 7, by decide⟩
theorem witness_StorePlacesOneBit_loops : ∃ s : State, s.platform.nBits = 40 ∧ s.bit.toNat ≤ 39 ∧ s.bit.toNat < 39 :=
  ⟨{ reading .store [] [] with bit := 38 }, by decide⟩
theorem witness_StorePlacesOneBit_last : ∃ s : State, s.platform.nBits = 40 ∧ s.bit.toNat ≤ 39 ∧ s.bit.toNat = 39 :=
  ⟨{ reading .store [] [] with bit := 39 }, by decide⟩

theorem witness_CsumComparesTheModularSum_equal : ∃ (s : State) (c : Byte), s.ph = .csum ∧
    s.platform.frameBytes = 5 ∧
    c.toNat = (s.f.b0.toNat + s.f.b1.toNat + s.f.b2.toNat + s.f.b3.toNat) % 256 ∧ c = s.f.b4 :=
  ⟨framed .csum ⟨0xFF, 0xFF, 0xFF, 0xFF, 0xFC⟩, 0xFC, by decide⟩
theorem witness_CsumComparesTheModularSum_differs : ∃ (s : State) (c : Byte), s.ph = .csum ∧
    s.platform.frameBytes = 5 ∧
    c.toNat = (s.f.b0.toNat + s.f.b1.toNat + s.f.b2.toNat + s.f.b3.toNat) % 256 ∧ c ≠ s.f.b4 :=
  ⟨framed .csum ⟨0xFF, 0xFF, 0xFF, 0xFF, 0xFF⟩, 0xFC, by decide⟩

theorem witness_DecBStagesTenthsInSignAndMagnitude_positive : ∃ s : State,
    R3Values s.platform ∧ s.f.b2.getLsbD 7 = false := ⟨framed .dec ⟨0x03, 0xE8, 0x7F, 0xFF, 0⟩, r3_swspe, by decide⟩
theorem witness_DecBStagesTenthsInSignAndMagnitude_negative : ∃ s : State,
    R3Values s.platform ∧ s.f.b2.getLsbD 7 = true := ⟨framed .dec ⟨0, 0, 0x80, 0, 0x80⟩, r3_swspe, by decide⟩

theorem witness_RchkRejectsHumidityOutOfRange_below : ∃ s : State,
    s.ph = .rchk ∧ f32Lt s.hum s.platform.humMin = true := ⟨{ reading .rchk [] [] with hum := 0xBF800000 }, by decide⟩
theorem witness_RchkRejectsHumidityOutOfRange_above : ∃ s : State,
    s.ph = .rchk ∧ f32Lt s.platform.humMax s.hum = true := ⟨{ reading .rchk [] [] with hum := 0x42C83333 }, by decide⟩
theorem witness_RchkRejectsHumidityOutOfRange_upper : ∃ s : State, s.ph = .rchk ∧
    f32Lt s.hum s.platform.humMin = false ∧ f32Lt s.platform.humMax s.hum = false :=
  ⟨{ reading .rchk [] [] with hum := 0x42C80000 }, by decide⟩
theorem witness_RchkRejectsHumidityOutOfRange_lower : ∃ s : State, s.ph = .rchk ∧
    f32Lt s.hum s.platform.humMin = false ∧ f32Lt s.platform.humMax s.hum = false := ⟨reading .rchk [] [], by decide⟩
theorem witness_RchkRejectsHumidityOutOfRange_frames :
    (100 < (⟨101, 0, 26, 0, 127⟩ : Frame).b0.toNat) ∧
    (1000 < (⟨0x03, 0xE9, 0, 0, 0xEC⟩ : Frame).b0.toNat * 256 + (⟨0x03, 0xE9, 0, 0, 0xEC⟩ : Frame).b1.toNat) := by
  decide

theorem witness_PubPublishesTheOutcome_success : ∃ s : State, s.err.tag = .none := ⟨reading .pub [] [], rfl⟩
theorem witness_PubPublishesTheOutcome_mismatch : ∃ s : State, s.err.tag = .checksumMismatch :=
  ⟨{ reading .pub [] [] with err := ⟨.checksumMismatch, 0x64, 0x65, 0⟩ }, rfl⟩
theorem witness_PubPublishesTheOutcome_pinError : ∃ s : State, s.err.tag = .pinError :=
  ⟨{ reading .pub [] [] with err := ⟨.pinError, 0, 0, 0xA5⟩ }, rfl⟩
theorem witness_PubPublishesTheOutcome_notPresent : ∃ s : State,
    s.err.tag = .notPresent ∨ s.err.tag = .invalidData ∨ s.err.tag = .timeout :=
  ⟨{ reading .pub [] [] with err := ⟨.notPresent, 0, 0, 0⟩ }, by decide⟩
theorem witness_PubPublishesTheOutcome_invalidData : ∃ s : State,
    s.err.tag = .notPresent ∨ s.err.tag = .invalidData ∨ s.err.tag = .timeout :=
  ⟨{ reading .pub [] [] with err := ⟨.invalidData, 0, 0, 0⟩ }, by decide⟩
theorem witness_PubPublishesTheOutcome_timeout : ∃ s : State,
    s.err.tag = .notPresent ∨ s.err.tag = .invalidData ∨ s.err.tag = .timeout :=
  ⟨{ reading .pub [] [] with err := ⟨.timeout, 0, 0, 0⟩ }, by decide⟩

theorem witness_RaiseRecordsTheFailureAndLeaves_pin : ∃ (s : State) (x : Failure) (e : PinErr),
    s.ph ∈ [.wake, .req, .ackh, .ackl, .bith, .bitl] ∧ x = .pinError e :=
  ⟨reading .wake [] [], .pinError 0xA5, 0xA5, by decide⟩
theorem witness_RaiseRecordsTheFailureAndLeaves_notPresent : ∃ (s : State) (x : Failure),
    s.ph ∈ [.wake, .req, .ackh, .ackl, .bith, .bitl] ∧ x = .notPresent := ⟨reading .ackl [] [], .notPresent, by decide⟩
theorem witness_RaiseRecordsTheFailureAndLeaves_timeout : ∃ (s : State) (x : Failure),
    s.ph ∈ [.wake, .req, .ackh, .ackl, .bith, .bitl] ∧ x = .timeout := ⟨reading .bitl [] [], .timeout, by decide⟩
theorem witness_RaiseRecordsTheFailureAndLeaves_mismatch : ∃ (s : State) (x : Failure) (t c : Byte),
    (s.ph = .csum ∨ s.ph = .rchk) ∧ x = .checksumMismatch t c :=
  ⟨framed .csum ⟨0x02, 0x58, 0x01, 0x0A, 0x64⟩, .checksumMismatch 0x64 0x65, 0x64, 0x65, by decide⟩
theorem witness_RaiseRecordsTheFailureAndLeaves_invalidData : ∃ (s : State) (x : Failure),
    (s.ph = .csum ∨ s.ph = .rchk) ∧ x = .invalidData := ⟨reading .rchk [] [], .invalidData, by decide⟩

theorem witness_EachRegisterHasItsOwnWriters_store : ∃ s t : State,
    exec (.store .a) s = .next t ∧ t.f ≠ s.f ∧ t.bit ≠ s.bit :=
  ⟨{ reading .store [] [] with el := 31 }, _, rfl, by decide⟩
theorem witness_EachRegisterHasItsOwnWriters_staging : ∃ s t : State,
    exec .decA s = .next t ∧ (t.hum ≠ s.hum ∨ t.temp ≠ s.temp) :=
  ⟨framed .dec frameB, _, rfl, by decide⟩
theorem witness_EachRegisterHasItsOwnWriters_var : ∃ s t : State, exec .readB s = .next t ∧ t.var ≠ s.var :=
  ⟨State.reset, _, rfl, by decide⟩
theorem witness_EachRegisterHasItsOwnWriters_guard : ∃ s t : State, exec (.gsus .a) s = .next t ∧ t.g ≠ s.g :=
  ⟨reading .gsus [] [], _, rfl, by decide⟩
theorem witness_EachRegisterHasItsOwnWriters_el : ∃ s t : State, exec (.ackh .a) s = .next t ∧ t.el ≠ s.el :=
  ⟨{ reading .ackh [] [.ok .high] with tick := 85 }, _, rfl, by decide⟩
theorem witness_EachRegisterHasItsOwnWriters_err : ∃ s t : State,
    exec (.rchk .a) s = .next t ∧ t.err.tag ≠ s.err.tag :=
  ⟨{ reading .rchk [] [] with hum := 0x42C83333 }, _, rfl, by decide⟩
theorem witness_EachRegisterHasItsOwnWriters_results : ∃ s t : State, exec (.pub .a) s = .next t ∧ t.HUM ≠ s.HUM ∧
    t.BUSY ≠ s.BUSY ∧ t.DONE ≠ s.DONE :=
  ⟨{ reading .pub [] [] with hum := 0x42700000 }, _, rfl, by decide⟩

theorem witness_PhaseMovesAlongTheSequence_store : ∃ s t : State,
    RegInv s ∧ step s = .next t ∧ t.ph ≠ s.ph ∧ s.ph = .store ∧ t.ph = .bith ∧ s.bit = 38 :=
  ⟨{ reading .store [] [] with bit := 38 }, _, by constructor <;> decide, rfl, by decide⟩
theorem witness_PhaseMovesAlongTheSequence_idle : ∃ s t : State,
    RegInv s ∧ step s = .next t ∧ t.ph ≠ s.ph ∧ s.ph = .idle :=
  ⟨scheduled [.host (.regWrite 0 3)] State.reset, _, by constructor <;> decide, rfl, by decide⟩

theorem witness_PendingFailureIsTheOnlyOne_resume : ∃ s t : State,
    RegInv s ∧ step s = .next t ∧ s.ph ≠ .idle ∧ s.err.tag ≠ .none ∧ t.ph = .pub :=
  ⟨{ reading .gres [] [] with err := ⟨.pinError, 0, 0, 0xA5⟩ }, _, by constructor <;> decide, rfl, by decide⟩
theorem witness_PendingFailureIsTheOnlyOne_publish : ∃ s t : State,
    RegInv s ∧ step s = .next t ∧ s.ph ≠ .idle ∧ s.err.tag ≠ .none ∧ t.ph = .idle :=
  ⟨{ reading .pub [] [] with err := ⟨.checksumMismatch, 0x64, 0x65, 0⟩ }, _, by constructor <;> decide, rfl,
    by decide⟩

theorem witness_EachPhaseIssuesItsOwnTransactions_wake : ∃ s t : State,
    engineTurn s = .next t ∧ t.world.trace = [.delay 3000, .pinSet .low .ok] ∧ s.world.trace = [] :=
  ⟨reading .wake [.ok] [], _, rfl, by decide⟩
theorem witness_EachPhaseIssuesItsOwnTransactions_req : ∃ s t : State,
    engineTurn s = .next t ∧ t.world.trace = [.delay 25, .pinSet .high .ok] ∧ s.world.trace = [] :=
  ⟨reading .req [.ok] [], _, rfl, by decide⟩
theorem witness_EachPhaseIssuesItsOwnTransactions_poll : ∃ s t : State,
    engineTurn s = .next t ∧ t.world.trace = [.delay 1, .pinRead (.ok .high)] ∧ s.world.trace = [] :=
  ⟨reading .bitl [] [.ok .high], _, rfl, by decide⟩
theorem witness_EachPhaseIssuesItsOwnTransactions_suspend : ∃ s t : State,
    engineTurn s = .next t ∧ t.world.trace = [.guardSuspend] ∧ s.world.trace = [] :=
  ⟨reading .gsus [] [], _, rfl, by decide⟩
theorem witness_EachPhaseIssuesItsOwnTransactions_resume : ∃ s t : State,
    engineTurn s = .next t ∧ t.world.trace = [.guardResume] ∧ s.world.trace = [] :=
  ⟨reading .gres [] [], _, rfl, by decide⟩

theorem witness_ResetMeetsEveryInvariant : ∃ (p : Config.Platform) (w : World),
    p.wf = true ∧ w.trace = [] ∧ w.tau = 0 ∧ w.sets = 0 ∧ w.reads = 0 := ⟨Config.swspe, World.initial, by decide⟩

theorem witness_EveryStepKeepsTheRegisterInvariant : ∃ s t : State, RegInv s ∧ step s = .next t ∧ t.ph = .gres :=
  ⟨_, _, regInv_ackh_bound, rfl, by decide⟩
theorem witness_ReachedStatesMeetR36_step : ∃ s t : State, R3Values s.platform ∧ RegInv s ∧ step s = .next t ∧ t.BUSY = true :=
  ⟨scheduled [.host (.regWrite 0 1)] State.reset, _, r3_swspe, by constructor <;> decide, rfl, by decide⟩
theorem witness_ReachedStatesMeetR36_run : ∃ (p : Config.Platform) (w : World) (n : Nat) (t : State),
    R3Values p ∧ p.wf = true ∧
    Sys2Proof.core.run n { State.reset with platform := p, world := w } = .next t ∧ t.ERR = .pinError :=
  ⟨Config.swspe, { answering [.err 0xA5] [] with sched := [.host (.regWrite 0 3)] }, 5, _, r3_swspe, by decide, rfl, rfl⟩

/-- The end of V-X1: PUB about to publish the PinError of WAKE. -/
def atPub : State :=
  { reading .pub [] [] with
    err := ⟨.pinError, 0, 0, 0xA5⟩
    world := { World.initial with
      trace := [.guardResume, .pinSet .low (.err 0xA5), .guardSuspend], sets := 1 } }

theorem witness_EveryStepKeepsTheGuardBracket : ∃ s t : State,
    RegInv s ∧ BracketInv s ∧ step s = .next t ∧ t.ph = .idle :=
  ⟨atPub, _, by constructor <;> decide, by constructor <;> decide, rfl, by decide⟩
theorem witness_EveryStepKeepsTheLineReleased : ∃ s t : State, LineInv s ∧ step s = .next t ∧ t.ph = .idle :=
  ⟨atPub, _, by constructor <;> decide, rfl, by decide⟩
theorem witness_EveryStepKeepsTheClock : ∃ s t : State, ClockInv s ∧ step s = .next t ∧ t.ph = .idle :=
  ⟨atPub, _, by constructor <;> decide, rfl, by decide⟩
theorem witness_EveryStepKeepsNominalTimeInBounds : ∃ s t : State,
    R3Values s.platform ∧ RegInv s ∧ TimeInv s ∧ step s = .next t ∧ t.ph = .idle :=
  ⟨atPub, _, r3_swspe, by constructor <;> decide,
    ⟨by simp [timeOfPhase, atPub, reading, outcomeTime, World.initial], by decide, by decide, by decide⟩, rfl,
    by decide⟩
theorem witness_EveryStepKeepsReadingsFromValidFrames : ∃ s t : State,
    RegInv s ∧ DataInv s ∧ step s = .next t ∧ t.ph = .idle ∧ t.ERR = .none ∧ t.HUM = 0x42700000 :=
  ⟨{ framed .pub frameB with var := .b, hum := 0x42700000, temp := 0x41D4CCCD }, _, by constructor <;> decide,
    ⟨by decide, by decide, fun _ => ⟨⟨by decide, by decide⟩, by decide, by decide⟩, fun h => absurd h (by decide)⟩, rfl, by decide⟩

/-- What the three clauses of WholeWaitHasThreeOutcomes ask of a state before the answers. -/
def waitsFrom (s : State) (ph : Phase) (wt : Wait) : Prop :=
  s.platform.wf = true ∧
  (ph, wt) ∈ [(.ackh, ackhWait s.platform), (.ackl, acklWait s.platform), (.bith, bithWait s.platform), (.bitl, bitlWait s.platform)] ∧
    s.ph = ph ∧ s.tick = 0 ∧ EngineAlone s ∧ Live s

theorem witness_WholeWaitHasThreeOutcomes_first : ∃ (s : State) (ph : Phase) (wt : Wait), waitsFrom s ph wt ∧
    answerRead s.platform (afterPolls s.platform 0 s.world) = .ok wt.target :=
  ⟨reading .ackh [] [.ok .high], .ackh, ackhWait Config.swspe, ⟨by decide, by decide, rfl, rfl, rfl, rfl⟩, by decide⟩
theorem witness_WholeWaitHasThreeOutcomes_bound : ∃ (s : State) (ph : Phase) (wt : Wait), waitsFrom s ph wt ∧
    (∀ j, j < 70 → answerRead s.platform (afterPolls s.platform j s.world) = .ok (otherLevel wt.target)) ∧
    answerRead s.platform (afterPolls s.platform 70 s.world) = .ok wt.target ∧ 70 = wt.bound :=
  ⟨reading .bitl [] (List.replicate 70 (.ok .high) ++ [.ok .low]), .bitl, bitlWait Config.swspe, ⟨by decide, by decide, rfl, rfl, rfl, rfl⟩,
    by decide, by decide, rfl⟩
theorem witness_WholeWaitHasThreeOutcomes_exceeds : ∃ (s : State) (ph : Phase) (wt : Wait), waitsFrom s ph wt ∧
    (∀ j, j < wt.bound + 1 →
      answerRead s.platform (afterPolls s.platform j s.world) = .ok (otherLevel wt.target)) :=
  ⟨reading .bith [] (List.replicate 56 (.ok .low)), .bith, bithWait Config.swspe, ⟨by decide, by decide, rfl, rfl, rfl, rfl⟩, by decide⟩
theorem witness_WholeWaitHasThreeOutcomes_err : ∃ (s : State) (ph : Phase) (wt : Wait) (e : PinErr),
    waitsFrom s ph wt ∧
    (∀ j, j < 2 → answerRead s.platform (afterPolls s.platform j s.world) = .ok (otherLevel wt.target)) ∧
    answerRead s.platform (afterPolls s.platform 2 s.world) = .err e :=
  ⟨reading .bith [] [.ok .low, .ok .low, .err 0x11], .bith, bithWait Config.swspe, 0x11, ⟨by decide, by decide, rfl, rfl, rfl, rfl⟩,
    by decide, by decide⟩

theorem witness_EveryReadEndsWithin5300Steps : ∃ s : State,
    R3Values s.platform ∧ RegInv s ∧ EngineAlone s ∧ Live s ∧ s.ph ≠ .idle :=
  ⟨_, r3_swspe, regInv_wake, rfl, rfl, by decide⟩
theorem witness_EngineRefinesTheWholeRead : ∃ s : State,
    s.platform.wf = true ∧ s.ph = .idle ∧ EngineAlone s ∧ Live s :=
  ⟨mismatched, by decide, rfl, rfl, rfl⟩
/-- V-X1's read: the READ and four steps. -/
theorem witness_EveryTraceHasTheShapeOfARead : ∃ (p : Config.Platform) (w : World) (n : Nat) (t : State), R3Values p ∧
    Sys2Proof.core.run n { State.reset with platform := p, world := w } = .next t ∧ t.ph = .idle ∧ t.DONE = true :=
  ⟨Config.swspe, { answering [.err 0xA5] [] with sched := [.host (.regWrite 0 3)] }, 5, _, r3_swspe, rfl, rfl, rfl⟩

theorem witness_SpelledFrameIsReadBack : ∃ (s : State) (f : Frame) (gap count : Nat → Nat), s.platform.wf = true ∧
    s.ph = .idle ∧ EngineAlone s ∧ Live s ∧ s.platform.sameInstantPollsAgree = false ∧
    85 = s.platform.toAckHigh ∧ 0 ≤ s.platform.toAckLow ∧
    (∀ i, i < 40 → gap i ≤ s.platform.toBitHigh ∧ count i ≤ s.platform.toBitLow ∧
      bitOfCount s.platform (count i) = f.cell i) ∧
    s.world.oracle = .general [.ok, .ok] (spelling s.platform 85 0 gap count ++ []) :=
  ⟨{ State.reset with
      world := answering [.ok, .ok]
        (spelling Config.swspe 85 0 (fun _ => 0) (fun i => if i = 0 then 31 else 30) ++ []) },
    ⟨0x80, 0, 0, 0, 0⟩, fun _ => 0, fun i => if i = 0 then 31 else 30, by decide, rfl, rfl, rfl, rfl, rfl, by decide,
    by decide, rfl⟩
theorem witness_ReadDependsOnNothingLeftBehind : ∃ s t : State, s.ph = .idle ∧ t.ph = .idle ∧ s.world = t.world ∧
    s.platform = t.platform ∧ s.g = t.g ∧ s ≠ t :=
  ⟨State.reset, { mismatched with f := frameB, err := ⟨.pinError, 0, 0, 7⟩ }, by decide⟩

/-- A world with the reference oracle of V-X4's form: the first `PinSet` and the second `PinRead` fail. -/
def referred : World :=
  { World.initial with oracle := .reference ⟨[(.low, 3000)], .high⟩ [(1, 0xA5)] [(2, 0x11)] }

theorem witness_ReferenceOracleAnswers_setErr : ∃ (w : World) (wave : Waveform) (sf rf : List (Nat × PinErr))
    (e : PinErr), w.oracle = .reference wave sf rf ∧ sf.lookup (w.sets + 1) = some e :=
  ⟨referred, _, _, _, 0xA5, rfl, rfl⟩
theorem witness_ReferenceOracleAnswers_setOk : ∃ (w : World) (wave : Waveform) (sf rf : List (Nat × PinErr)),
    w.oracle = .reference wave sf rf ∧ sf.lookup (w.sets + 1) = none :=
  ⟨{ referred with sets := 1 }, _, _, _, rfl, rfl⟩
theorem witness_ReferenceOracleAnswers_readOk : ∃ (p : Config.Platform) (w : World) (wave : Waveform)
    (sf rf : List (Nat × PinErr)), w.oracle = .reference wave sf rf ∧ rf.lookup (w.reads + 1) = none ∧
    (p.sameInstantPollsAgree = false ∨ sameInstantLevel w = none) := ⟨Config.swspe, referred, _, _, _, rfl, rfl, .inl rfl⟩
theorem witness_ReferenceOracleAnswers_readAgrees : ∃ (p : Config.Platform) (w : World) (wave : Waveform)
    (sf rf : List (Nat × PinErr)), w.oracle = .reference wave sf rf ∧ rf.lookup (w.reads + 1) = none ∧
    p.sameInstantPollsAgree = true ∧ sameInstantLevel w = some .high :=
  ⟨{ Config.swspe with sameInstantPollsAgree := true }, { referred with trace := [.pinRead (.ok .high)] }, _, _, _,
    rfl, rfl, rfl, rfl⟩
theorem witness_ReferenceOracleAnswers_sameInstant : ∃ (p : Config.Platform) (w : World) (wave : Waveform)
    (sf rf : List (Nat × PinErr)), w.oracle = .reference wave sf rf ∧ answerRead p w = .ok .low ∧
    rf.lookup (w.reads + 2) = none := ⟨Config.swspe, { referred with reads := 2 }, _, _, _, rfl, by decide, rfl⟩
theorem witness_ReferenceOracleAnswers_readErr : ∃ (w : World) (wave : Waveform) (sf rf : List (Nat × PinErr))
    (e : PinErr), w.oracle = .reference wave sf rf ∧ rf.lookup (w.reads + 1) = some e :=
  ⟨{ referred with reads := 1 }, _, _, _, 0x11, rfl, rfl⟩

/-- A read whose platform has SAME_INSTANT_POLLS_AGREE set. -/
def agreeing (ph : Phase) (l : Level) : State :=
  { reading ph [] [.ok l, .ok (otherLevel l)] with platform := { Config.swspe with sameInstantPollsAgree := true } }

theorem witness_SameInstantPollsAgreeWhenSet_ackh : ∃ (s t : State) (i : Instr) (wt : Wait),
    s.platform.sameInstantPollsAgree = true ∧
    (i, wt) ∈ [(.ackh s.var, ackhWait s.platform), (.ackl s.var, acklWait s.platform), (.bith s.var, bithWait s.platform), (.bitl s.var, bitlWait s.platform)] ∧
    s.answerRead = .ok wt.target ∧ exec i s = .next t :=
  ⟨agreeing .ackh .high, _, .ackh .a, ackhWait (agreeing .ackh .high).platform, rfl, by decide, by decide, rfl⟩
theorem witness_SameInstantPollsAgreeWhenSet_bitl : ∃ (s t : State) (i : Instr) (wt : Wait),
    s.platform.sameInstantPollsAgree = true ∧
    (i, wt) ∈ [(.ackh s.var, ackhWait s.platform), (.ackl s.var, acklWait s.platform), (.bith s.var, bithWait s.platform), (.bitl s.var, bitlWait s.platform)] ∧
    s.answerRead = .ok wt.target ∧ exec i s = .next t :=
  ⟨agreeing .bitl .low, _, .bitl .a, bitlWait (agreeing .bitl .low).platform, rfl, by decide, by decide, rfl⟩

theorem witness_F32FromNatIsExact : (0 : Nat) < 2 ^ 24 ∧ 2 ^ 24 - 1 < 2 ^ 24 := by decide
theorem witness_F32Div10IsCorrectlyRounded : ∃ (n m : Nat) (b : Word), n = 1 ∧ m = 65535 ∧ 1 ≤ n ∧ n ≤ 65535 ∧
    1 ≤ m ∧ m ≤ 65535 ∧ f32Exponent b ≤ 254 ∧ f32Value b ≠ f32Value (f32Div10 m) := ⟨1, 65535, 0x45CCCC01, by decide⟩
theorem witness_F32NegFlipsTheSign : ∃ (p : Config.Platform) (f : Frame) (j : Nat), R3Values p ∧ f.b2 = 0x80 ∧
    f.b3 = 0x00 ∧ j < 32 ∧ j = 31 := ⟨Config.swspe, ⟨0, 0, 0x80, 0, 0x80⟩, 31, r3_swspe, by decide⟩
theorem witness_F32OrderIsPatternOrder_values : ∃ a b : Word, f32Exponent a ≤ 254 ∧ f32Exponent b ≤ 254 ∧
    a = 0xFF7FFFFF ∧ b = 0x7F7FFFFF := ⟨0xFF7FFFFF, 0x7F7FFFFF, by decide⟩
theorem witness_F32OrderIsPatternOrder_patterns : ∃ a b : Word, a.toNat < 0x7F800000 ∧ b.toNat < 0x7F800000 ∧
    a = 0x7F7FFFFF ∧ b = 0 := ⟨0x7F7FFFFF, 0, by decide⟩

end Tests
end Sys2Proof
end

