-- ==== Sys2Proof/Proofs/Platform.lean ====
section
/-! The configuration record (00_scope.md R3): what it holds after reset, that no step writes it, and that R3's values are
ones the rules work for. -/

namespace Sys2Proof
namespace Machine

@[simp] theorem acceptRead_platform (v : Variant) (s : State) : (acceptRead v s).platform = s.platform := rfl

@[simp] theorem resetRegisters_platform (s : State) : (resetRegisters s).platform = s.platform := rfl

@[simp] theorem publishOutcome_platform (s : State) : (publishOutcome s).platform = s.platform := by
  unfold publishOutcome
  cases s.err.tag <;> rfl

/-- No move of the engine writes the configuration: all but PUB are made of updates that plainly keep it. -/
theorem EngineMove.platform_eq {s t : State} (h : EngineMove s t) : t.platform = s.platform := by
  cases h with
  | pub => exact publishOutcome_platform s
  | _ => rfl

/-- The configuration record is constant along every step (00_scope.md R3). -/
theorem step_platform {s t : State} (h : step s = .next t) : t.platform = s.platform :=
  step_keeps (P := fun u => u.platform = s.platform) s t h
    (outside := fun _ _ _ _ => rfl)
    (accepted := fun u x hu _ => (acceptRead_platform x u).trans hu)
    (reset := fun u hu _ => (resetRegisters_platform u).trans hu)
    (moved := fun _ hu hm => hm.platform_eq.trans hu)

/-- The parameters R3 fixes satisfy every condition of `wf`; the two open ones it constrains are the premises. -/
theorem R3Values.wf {p : Config.Platform} (h : R3Values p) (hlo : 1 ≤ p.pew) (hhi : p.pew ≤ 32)
    (hstride : 4 ≤ p.regStride) : p.wf = true := by
  simp [Config.Platform.wf, hlo, hhi, hstride, h.nBits, h.frameBytes, h.toAckHigh, h.toAckLow, h.toBitHigh, h.toBitLow,
    h.bScale]

theorem reset_platform_r3Values : R3Values State.reset.platform := by constructor <;> rfl

/-- Settles O1: the record is as R3 has it after reset, every step keeps it (`step_platform`), and R3's values are well
formed (`R3Values.wf`). -/
theorem configurationHasTheValuesOfR3 : Obligations.ConfigurationHasTheValuesOfR3 :=
  ⟨reset_platform_r3Values, fun _ _ => step_platform, fun _ => R3Values.wf⟩

end Machine
end Sys2Proof
end

