-- ==== Sys2Proof/Proofs/EngineStep.lean ====
section
/-! The engine's turn on the schedule: what `step` does with one, and what the liveness budget does to a
micro-operation, one equation for each case (20_memory.md R49; 70_reset_and_hazards.md R192). -/

namespace Sys2Proof
namespace Machine

/-- An engine turn at the head of the schedule is taken off and run. -/
theorem step_engine {s : State} {rest : List Turn} (h : s.world.sched = .engine :: rest) :
    step s = engineTurn (s.setWorld { s.world with sched := rest }) := by
  simp only [step, nextTurn, State.popTurn, h, List.tail_cons]

/-- Where every transaction is answered the micro-operation runs. -/
theorem runMicroOp_of_live (i : Instr) {s : State} (h : s.world.answers = none) : runMicroOp i s = exec i s := by
  simp [runMicroOp, h]

/-- A pin phase uses up one of the answers that are left. -/
theorem runMicroOp_of_budget (i : Instr) {s : State} {n : Nat} (hp : usesPin s.ph = true)
    (h : s.world.answers = some (n + 1)) :
    runMicroOp i s = exec i (s.setWorld { s.world with answers := some n }) := by
  simp [runMicroOp, hp, h]

/-- A phase that uses no pin needs no answer. -/
theorem runMicroOp_of_noPin (i : Instr) {s : State} (hp : usesPin s.ph = false) : runMicroOp i s = exec i s := by
  simp [runMicroOp, hp]

/-- An engine turn on the schedule runs the instruction of the selector, which the schedule does not touch. -/
theorem step_engine_of_decode {s : State} {i : Instr} {rest : List Turn} (h : s.world.sched = .engine :: rest)
    (hd : decodeSelector (selector s) = .ok i) :
    step s = runMicroOp i (s.setWorld { s.world with sched := rest }) :=
  (step_engine h).trans (engineTurn_of_decode _ i hd)

/-- Settles O6: the turn is taken off the schedule (`step_engine_of_decode`), and the three clauses are the three ways
the budget lets a micro-operation run. -/
theorem engineStepRunsTheSelectedInstruction : Obligations.EngineStepRunsTheSelectedInstruction := by
  intro s i rest hs hd
  rw [step_engine_of_decode hs hd]
  exact ⟨fun ha => runMicroOp_of_live i ha, fun _ ha hp => runMicroOp_of_budget i hp ha,
    fun hp => runMicroOp_of_noPin i hp⟩

end Machine
end Sys2Proof
end

