-- ==== Sys2Proof/Proofs/RegisterInvariant.lean ====
section
/-! The register invariant (10_state.md R36 with what makes it inductive): the engine's moves keep each of its fields,
an accepted READ and a reset establish it, and so every step keeps it. -/

namespace Sys2Proof
namespace Machine

/-! ## The waits, the limits of `tick`, and what PUB leaves alone -/

section
variable {p : Config.Platform} {ph : Phase} {wt : Wait}

theorem WaitPhase.ph_cases (h : WaitPhase p ph wt) : ph = .ackh ∨ ph = .ackl ∨ ph = .bith ∨ ph = .bitl := by
  cases h <;> simp

theorem WaitPhase.ph_ne_idle (h : WaitPhase p ph wt) : ph ≠ .idle := by cases h <;> decide

theorem WaitPhase.guardHeld_eq (h : WaitPhase p ph wt) : guardHeld ph = true := by cases h <;> rfl

theorem WaitPhase.guardHeld_next (h : WaitPhase p ph wt) : guardHeld wt.next = true := by cases h <;> rfl

theorem WaitPhase.next_ne_idle (h : WaitPhase p ph wt) : wt.next ≠ .idle := by
  cases h <;> simp [ackhWait, acklWait, bithWait, bitlWait]

theorem WaitPhase.next_ne_gres (h : WaitPhase p ph wt) : wt.next ≠ .gres := by
  cases h <;> simp [ackhWait, acklWait, bithWait, bitlWait]

/-- A failure raised in a wait leaves the guard to be resumed (60_exceptions.md R161). -/
theorem WaitPhase.failurePath_eq (h : WaitPhase p ph wt) : failurePath ph = .gres := by cases h <;> rfl

theorem WaitPhase.tickLimit_eq (h : WaitPhase p ph wt) : tickLimit p ph = wt.bound := by cases h <;> rfl

theorem WaitPhase.bound_le (h : WaitPhase p ph wt) : wt.bound ≤ maxBound p := by
  cases h <;> simp [maxBound, ackhWait, acklWait, bithWait, bitlWait]

/-- A wait's own failure is NotPresent or Timeout, never one of validation's. -/
theorem WaitPhase.failure_notOfValidation (h : WaitPhase p ph wt) (r : ErrReg) :
    (r.record wt.failure).tag ≠ .checksumMismatch ∧ (r.record wt.failure).tag ≠ .invalidData := by
  cases h <;> simp [ackhWait, acklWait, bithWait, bitlWait, ErrReg.record]

end

/-- No phase lets `tick` pass the largest bound by more than the one tick of a failed wait. -/
theorem tickLimit_le (p : Config.Platform) (ph : Phase) : tickLimit p ph ≤ maxBound p + 1 := by
  cases ph <;> simp only [tickLimit, maxBound] <;> omega

/-- A counter's next value is at most one more, whether or not it wraps. -/
theorem toNat_add_one_le {n : Nat} (x : BitVec n) : (x + 1).toNat ≤ x.toNat + 1 := by
  rw [BitVec.toNat_add]
  refine (Nat.mod_le _ _).trans (Nat.add_le_add_left ?_ _)
  exact Nat.mod_le 1 (2 ^ n)

/-- The outcome's publication writes the result registers and `ERR`, and no other. -/
theorem publishOutcome_eq (s : State) :
    publishOutcome s = { s with
      HUM := (publishOutcome s).HUM, TEMP := (publishOutcome s).TEMP, ERR := (publishOutcome s).ERR,
      ERRINFO := (publishOutcome s).ERRINFO, PINERR := (publishOutcome s).PINERR } := by
  unfold publishOutcome
  cases s.err.tag <;> rfl

@[simp] theorem publishOutcome_el (s : State) : (publishOutcome s).el = s.el := by rw [publishOutcome_eq]
@[simp] theorem publishOutcome_bit (s : State) : (publishOutcome s).bit = s.bit := by rw [publishOutcome_eq]
@[simp] theorem publishOutcome_tick (s : State) : (publishOutcome s).tick = s.tick := by rw [publishOutcome_eq]
@[simp] theorem publishOutcome_err (s : State) : (publishOutcome s).err = s.err := by rw [publishOutcome_eq]
@[simp] theorem publishOutcome_g (s : State) : (publishOutcome s).g = s.g := by rw [publishOutcome_eq]

theorem failurePath_ne_idle (ph : Phase) : failurePath ph ≠ .idle := by
  unfold failurePath
  split <;> decide

/-! ## The two halves of the invariant -/

/-- The fields of `RegInv` that speak of the registers the engine keeps to itself. -/
structure InsideInv (s : State) : Prop where
  config : s.platform.wf = true
  guard : s.g = guardHeld s.ph
  bitLimit : s.bit.toNat ≤ 39
  tickLimit : s.tick.toNat ≤ tickLimit s.platform s.ph
  elLimit : s.el.toNat ≤ maxBound s.platform
  pending : s.err.tag ≠ .none → s.ph = .gres ∨ s.ph = .pub ∨ s.ph = .idle
  resumeBeforeValidation : s.ph = .gres → s.err.tag ≠ .checksumMismatch ∧ s.err.tag ≠ .invalidData

/-- The fields of `RegInv` that speak of the registers the host sees. -/
structure ShownInv (s : State) : Prop where
  busy : s.BUSY = true ↔ s.ph ≠ .idle
  busyNotDone : s.BUSY = true → s.DONE = false
  errDone : s.ERR ≠ .none → s.DONE = true
  reading : s.HUM ≠ 0 ∨ s.TEMP ≠ 0 → s.DONE = true ∧ s.ERR = .none
  errinfo : s.ERRINFO ≠ 0 → s.ERR = .checksumMismatch
  pinerr : s.PINERR ≠ 0 → s.ERR = .pinError

theorem regInv_iff {s : State} : RegInv s ↔ InsideInv s ∧ ShownInv s where
  mp h := ⟨⟨h.config, h.guard, h.bitLimit, h.tickLimit, h.elLimit, h.pending, h.resumeBeforeValidation⟩,
    ⟨h.busy, h.busyNotDone, h.errDone, h.reading, h.errinfo, h.pinerr⟩⟩
  mpr := fun ⟨i, o⟩ => ⟨i.config, o.busy, o.busyNotDone, i.guard, o.errDone, o.reading, o.errinfo, o.pinerr, i.bitLimit,
    i.tickLimit, i.elLimit, i.pending, i.resumeBeforeValidation⟩

/-- The host-visible registers while a read is in progress: busy, and nothing else (20_memory.md R49). -/
structure Blank (s : State) : Prop where
  busy : s.BUSY = true
  done : s.DONE = false
  err : s.ERR = .none
  hum : s.HUM = 0
  temp : s.TEMP = 0
  errinfo : s.ERRINFO = 0
  pinerr : s.PINERR = 0

theorem Blank.shownInv {s : State} (h : Blank s) (hp : s.ph ≠ .idle) : ShownInv s where
  busy := iff_of_true h.busy hp
  busyNotDone _ := h.done
  errDone k := absurd h.err k
  reading k := absurd k (by simp [h.hum, h.temp])
  errinfo k := absurd h.errinfo k
  pinerr k := absurd h.pinerr k

/-- While a read is in progress `DONE` is 0, so no outcome, reading or detail of a failure can stand in a register. -/
theorem ShownInv.blank {s : State} (h : ShownInv s) (hp : s.ph ≠ .idle) : Blank s := by
  have hb : s.BUSY = true := h.busy.mpr hp
  have hd : s.DONE = false := h.busyNotDone hb
  have he : s.ERR = .none := not_not.mp fun k => by simpa [hd] using h.errDone k
  obtain ⟨hh, ht⟩ := not_or.mp fun k => by simpa [hd] using h.reading k
  exact ⟨hb, hd, he, not_not.mp hh, not_not.mp ht, not_not.mp fun k => by simpa [he] using h.errinfo k,
    not_not.mp fun k => by simpa [he] using h.pinerr k⟩

/-! ## The engine's moves -/

section
variable {s t : State}

/-- In IDLE the engine makes no move. -/
theorem EngineMove.ph_ne_idle (h : EngineMove s t) : s.ph ≠ .idle := by
  cases h with
  | pollErr _ hw | pollMatch _ hw | pollAgain _ hw | pollBound _ hw => exact hw.ph_ne_idle
  | _ => simp [*]

theorem EngineMove.keeps_guard (hi : InsideInv s) (h : EngineMove s t) : t.g = guardHeld t.ph := by
  have hg := hi.guard
  cases h with
  | pollErr _ hw | pollBound _ hw =>
    exact hg.trans (hw.guardHeld_eq.trans (congrArg guardHeld hw.failurePath_eq).symm)
  | pollMatch _ hw => simp [hg, hw.guardHeld_eq, hw.guardHeld_next]
  | pollAgain => exact hg
  | pub hp => simp [hg, hp, guardHeld]
  | _ => simp_all [guardHeld, failurePath, usesPin, storeCell, stageReading]

/-- STORE counts on only before bit 39; no other move writes `bit`. -/
theorem EngineMove.keeps_bitLimit (hi : InsideInv s) (h : EngineMove s t) : t.bit.toNat ≤ 39 := by
  have hb := hi.bitLimit
  cases h with
  | storeNext hp hne =>
    obtain ⟨-, -, hn, -⟩ := wf_cases _ hi.config
    have hle : (s.bit + 1).toNat ≤ s.bit.toNat + 1 := toNat_add_one_le _
    rw [hn] at hne
    change (s.bit + 1).toNat ≤ 39
    omega
  | pub => simpa using hb
  | _ => exact hb

/-- A wait that goes on has not passed its bound, and one that fails has passed it by one tick. -/
theorem EngineMove.keeps_tickLimit (hi : InsideInv s) (h : EngineMove s t) :
    t.tick.toNat ≤ tickLimit t.platform t.ph := by
  have ht := hi.tickLimit
  have hmax := ht.trans (tickLimit_le _ _)
  cases h with
  | pollErr _ hw => simpa [hw.failurePath_eq, tickLimit] using hmax
  | pollAgain _ hw _ _ _ hb => simpa [hw.tickLimit_eq] using hb
  | pollBound _ hw =>
    have hle : (s.tick + 1).toNat ≤ maxBound s.platform + 1 := by
      have := toNat_add_one_le s.tick
      have := hw.bound_le
      rw [hw.tickLimit_eq] at ht
      omega
    simpa [hw.failurePath_eq, tickLimit] using hle
  | pub => simpa [tickLimit] using hmax
  | _ => simp_all [tickLimit, failurePath, usesPin, storeCell, stageReading]

/-- Only a wait that matched writes `el`, and what it writes is its `tick`. -/
theorem EngineMove.keeps_elLimit (hi : InsideInv s) (h : EngineMove s t) : t.el.toNat ≤ maxBound t.platform := by
  have he := hi.elLimit
  cases h with
  | pollMatch _ hw => exact hi.tickLimit.trans (hw.tickLimit_eq ▸ hw.bound_le)
  | pub => simpa using he
  | _ => exact he

/-- A failure is raised into GRES or PUB, GRES leads a pending one on to PUB, and PUB to IDLE. -/
theorem EngineMove.keeps_pending (hi : InsideInv s) (h : EngineMove s t) (ht : t.err.tag ≠ .none) :
    t.ph = .gres ∨ t.ph = .pub ∨ t.ph = .idle := by
  have hp := hi.pending
  cases h with
  | pollErr _ hw | pollBound _ hw => exact .inl hw.failurePath_eq
  | pollMatch _ hw => exact absurd (hp ht) (by rcases hw.ph_cases with k | k | k | k <;> simp [k])
  | pollAgain _ hw => exact hp ht
  | pub => exact .inr (.inr rfl)
  | _ => simp_all [failurePath, usesPin, storeCell, stageReading]

/-- Only a pin phase's failure and the last STORE, with no failure pending, lead to GRES. -/
theorem EngineMove.keeps_resumeBeforeValidation (hi : InsideInv s) (h : EngineMove s t) (ht : t.ph = .gres) :
    t.err.tag ≠ .checksumMismatch ∧ t.err.tag ≠ .invalidData := by
  have hp := hi.pending
  cases h with
  | wakeErr | reqErr | pollErr => simp [ErrReg.record]
  | pollBound _ hw => exact hw.failure_notOfValidation s.err
  | pollMatch _ hw => exact absurd ht hw.next_ne_gres
  | pollAgain _ hw => exact hi.resumeBeforeValidation ht
  | storeLast hs =>
    have : s.err.tag = .none := not_not.mp fun k => absurd (hp k) (by simp [hs])
    simp [storeCell, this]
  | _ => simp_all [failurePath, usesPin, stageReading]

theorem EngineMove.keeps_insideInv (hi : InsideInv s) (h : EngineMove s t) : InsideInv t where
  config := h.platform_eq ▸ hi.config
  guard := h.keeps_guard hi
  bitLimit := h.keeps_bitLimit hi
  tickLimit := h.keeps_tickLimit hi
  elLimit := h.keeps_elLimit hi
  pending := h.keeps_pending hi
  resumeBeforeValidation := h.keeps_resumeBeforeValidation hi

/-- PUB shows a reading only with no failure, and a failure's detail only with its tag: what its branch does not write
was blank. -/
theorem Blank.shownInv_publish (h : Blank s) :
    ShownInv { publishOutcome s with BUSY := false, DONE := true, ph := .idle } where
  busy := by simp
  busyNotDone := nofun
  errDone _ := rfl
  reading k := by
    refine ⟨rfl, ?_⟩
    revert k
    unfold publishOutcome
    cases s.err.tag <;> simp [h.hum, h.temp]
  errinfo := by
    unfold publishOutcome
    cases s.err.tag <;> simp [h.errinfo]
  pinerr := by
    unfold publishOutcome
    cases s.err.tag <;> simp [h.pinerr]

/-- A move other than PUB leaves the host-visible registers as they are. -/
theorem EngineMove.keeps_blank (hb : Blank s) (h : EngineMove s t) (ht : t.ph ≠ .idle) : Blank t := by
  cases h with
  | pub => exact absurd rfl ht
  | _ => exact ⟨hb.busy, hb.done, hb.err, hb.hum, hb.temp, hb.errinfo, hb.pinerr⟩

/-- Only PUB leads to IDLE. -/
theorem EngineMove.eq_publish (h : EngineMove s t) (ht : t.ph = .idle) :
    t = { publishOutcome s with BUSY := false, DONE := true, ph := .idle } := by
  cases h with
  | pub => rfl
  | pollMatch _ hw => exact absurd ht hw.next_ne_idle
  | pollAgain _ hw => exact absurd ht hw.ph_ne_idle
  | pollErr | pollBound | wakeErr | reqErr | csumFailed | rchkFailed => exact absurd ht (failurePath_ne_idle _)
  | _ => cases ht

theorem EngineMove.keeps_shownInv (ho : ShownInv s) (h : EngineMove s t) : ShownInv t := by
  have hb := ho.blank h.ph_ne_idle
  by_cases ht : t.ph = .idle
  · rw [h.eq_publish ht]
    exact hb.shownInv_publish
  · exact (h.keeps_blank hb ht).shownInv ht

theorem EngineMove.keeps_regInv (hi : RegInv s) (h : EngineMove s t) : RegInv t :=
  have ⟨inside, shown⟩ := regInv_iff.mp hi
  regInv_iff.mpr ⟨h.keeps_insideInv inside, h.keeps_shownInv shown⟩

end

/-! ## Acceptance, reset and every step -/

/-- An accepted READ writes every register the invariant speaks of but `g`, which is 0 in IDLE. -/
theorem RegInv.accepted {s : State} (h : RegInv s) (hp : s.ph = .idle) (v : Variant) : RegInv (acceptRead v s) := by
  have hg : s.g = false := by rw [h.guard, hp, guardHeld]
  refine regInv_iff.mpr ⟨⟨h.config, hg, ?_, ?_, ?_, ?_, ?_⟩, Blank.shownInv ⟨rfl, rfl, rfl, rfl, rfl, rfl, rfl⟩ ?_⟩ <;>
    simp [acceptRead]

/-- The state after reset meets the invariant under any configuration the rules work for, whatever the world. -/
theorem regInv_reset {p : Config.Platform} (hp : p.wf = true) (w : World) :
    RegInv { State.reset with platform := p, world := w } := by
  constructor <;> simp [State.reset, hp, guardHeld]

/-- No field of the invariant speaks of the world outside. -/
theorem RegInv.setWorld {s : State} (h : RegInv s) (w : World) : RegInv (s.setWorld w) :=
  ⟨h.config, h.busy, h.busyNotDone, h.guard, h.errDone, h.reading, h.errinfo, h.pinerr, h.bitLimit, h.tickLimit,
    h.elLimit, h.pending, h.resumeBeforeValidation⟩

/-- Settles O42: each kind of step that writes a register keeps or establishes the invariant, and the others touch the
world outside alone. -/
theorem everyStepKeepsTheRegisterInvariant : Obligations.EveryStepKeepsTheRegisterInvariant := fun s t hi h =>
  step_keeps (P := RegInv) s t h
    (outside := fun _ _ _ _ => hi.setWorld _)
    (accepted := fun _ v hu hp => hu.accepted hp v)
    (reset := fun _ hu _ => regInv_reset hu.config _)
    (moved := fun _ hu hm => hm.keeps_regInv hu)

end Machine
end Sys2Proof
end

