-- ==== Sys2Proof/Proofs/ReachedStates.lean ====
section
/-! What the register invariant says: the values STATUS takes (10_state.md R25), the items of R36, and that they hold
along every run from reset. -/

namespace Sys2Proof
namespace Machine

/-- Settles O19: while a read is in progress STATUS is 1; in IDLE it is 0, or `DONE` with one of the six codes of
`ERR`. -/
theorem statusTakesOnlyEightValues : Obligations.StatusTakesOnlyEightValues := by
  intro s h
  by_cases hp : s.ph = .idle
  · have hb : s.BUSY = false := Bool.eq_false_iff.mpr fun k => h.busy.mp k hp
    cases hd : s.DONE with
    | false =>
      have he : s.ERR = .none := not_not.mp fun k => by simpa [hd] using h.errDone k
      simp [statusWord, hb, hd, he, errCode]
    | true => cases he : s.ERR <;> simp [statusWord, hb, hd, he, errCode]
  · obtain ⟨hb, hd, he, -⟩ := (regInv_iff.mp h).2.blank hp
    simp [statusWord, hb, hd, he, errCode]

/-- The phases of R36(c) are those in which the guard is held. -/
theorem guardHeld_iff (ph : Phase) :
    guardHeld ph = true ↔ ph ∈ [Phase.wake, .req, .ackh, .ackl, .bith, .bitl, .store, .gres] := by
  cases ph <;> decide

theorem R3Values.maxBound_eq {p : Config.Platform} (h : R3Values p) : maxBound p = 85 := by
  simp [maxBound, h.toAckHigh, h.toAckLow, h.toBitHigh, h.toBitLow]

/-- With the values of R3 the register invariant gives the items of R36. -/
theorem RegInv.r36 {s : State} (h : RegInv s) (hv : R3Values s.platform) : R36 s where
  busy := h.busy
  busyOrDone := fun ⟨hb, hd⟩ => by simp [h.busyNotDone hb] at hd
  guard := h.guard ▸ guardHeld_iff s.ph
  errDone := h.errDone
  reading := h.reading
  errinfo := h.errinfo
  pinerr := h.pinerr
  counters :=
    have ht : s.tick.toNat ≤ 85 + 1 := hv.maxBound_eq ▸ h.tickLimit.trans (tickLimit_le _ _)
    ⟨h.bitLimit, ht, hv.maxBound_eq ▸ h.elLimit⟩

theorem run_succ_of_next {s t : State} (h : step s = .next t) (n : Nat) : core.run (n + 1) s = core.run n t := by
  simp [Host.Core.run, core, h]

theorem run_succ_of_refused {s : State} {r : Refusal} (h : step s = .refused r) (n : Nat) :
    core.run (n + 1) s = .refused r := by
  simp [Host.Core.run, core, h]

/-- What every step keeps holds along every run. -/
theorem run_keeps {P : State → Prop} (hstep : ∀ s t, P s → step s = .next t → P t) (n : Nat) (s t : State) (hs : P s)
    (h : core.run n s = .next t) : P t := by
  induction n generalizing s with
  | zero =>
    cases h
    exact hs
  | succ n ih =>
    cases hu : step s with
    | next u => exact ih u (hstep s u hs hu) (run_succ_of_next hu n ▸ h)
    | fault r => cases r
    | refused r => cases (run_succ_of_refused hu n).symm.trans h

/-- Settles O43: the register invariant and R3's values hold after reset and are kept along the run, and give R36. -/
theorem reachedStatesMeetR36 : Obligations.ReachedStatesMeetR36 := by
  have keeps : ∀ s t, R3Values s.platform ∧ RegInv s → step s = .next t → R3Values t.platform ∧ RegInv t :=
    fun s t ⟨hv, hi⟩ h => ⟨step_platform h ▸ hv, everyStepKeepsTheRegisterInvariant s t hi h⟩
  constructor
  · intro p w n t hv hp h
    obtain ⟨hv', hi⟩ := run_keeps keeps n _ t ⟨hv, regInv_reset hp w⟩ h
    exact hi.r36 hv'
  · intro s t hv hi h
    obtain ⟨hv', hi'⟩ := keeps s t ⟨hv, hi⟩ h
    exact ⟨hi.r36 hv, hi'.r36 hv'⟩

end Machine
end Sys2Proof
end

