-- ==== Sys2Proof/Proofs/Reset.lean ====
section
/-! The state after reset (10_state.md R35): its values, and that it meets every invariant. -/

namespace Sys2Proof
namespace Machine

/-- Settles O18: the reset state is a closed term, and each value is read off it. -/
theorem resetStateHasTheResetValues : Obligations.ResetStateHasTheResetValues := by
  unfold Obligations.ResetStateHasTheResetValues
  decide

section
variable (p : Config.Platform) (w : World)

/-- In IDLE, with no outcome published, the guard bracket asks nothing of the trace. -/
theorem bracketInv_reset : BracketInv { State.reset with platform := p, world := w } := by
  constructor <;> simp [State.reset, guardHeld]

theorem lineInv_reset (h : w.trace = []) : LineInv { State.reset with platform := p, world := w } := by
  constructor <;> simp [State.reset, h, pollsAfterRelease]

theorem clockInv_reset (h : w.trace = []) (ht : w.tau = 0) (hs : w.sets = 0) (hr : w.reads = 0) :
    ClockInv { State.reset with platform := p, world := w } := by
  constructor <;> simp [h, ht, hs, hr, delaySum, setCount, readCount]

theorem timeInv_reset (h : w.trace = []) (ht : w.tau = 0) (hs : w.sets = 0) (hr : w.reads = 0) :
    TimeInv { State.reset with platform := p, world := w } := by
  constructor <;> simp [State.reset, timeOfPhase, h, ht, hs, hr, delayCount]

theorem dataInv_reset : DataInv { State.reset with platform := p, world := w } := by
  constructor <;> simp [State.reset]

end

/-- Settles O41: one lemma for each invariant. -/
theorem resetMeetsEveryInvariant : Obligations.ResetMeetsEveryInvariant := fun p w hp h ht hs hr =>
  ⟨regInv_reset hp w, bracketInv_reset p w, lineInv_reset p w h, clockInv_reset p w h ht hs hr,
    timeInv_reset p w h ht hs hr, dataInv_reset p w⟩

end Machine
end Sys2Proof
end

