-- ==== Sys2Proof/Proofs/PhaseSequence.lean ====
section
/-! The phase register (10_state.md R17, 41_protocol_engine.md R90): what a step that moves `ph` can have been, and the
edges it moves along. -/

namespace Sys2Proof
namespace Machine

section
variable {p : Config.Platform} {ph : Phase} {wt : Wait}

theorem WaitPhase.mem_nextPhases (h : WaitPhase p ph wt) :
    ph ∈ nextPhases ph ∧ wt.next ∈ nextPhases ph ∧ Phase.gres ∈ nextPhases ph := by
  cases h <;> simp [nextPhases, ackhWait, acklWait, bithWait, bitlWait]

end

section
variable {s t : State}

/-- The engine's moves go along the edges of the transition table. -/
theorem EngineMove.mem_nextPhases (h : EngineMove s t) : t.ph ∈ nextPhases s.ph := by
  cases h with
  | pollErr _ hw | pollBound _ hw =>
    have : failurePath s.ph ∈ nextPhases s.ph := hw.failurePath_eq ▸ hw.mem_nextPhases.2.2
    exact this
  | pollMatch _ hw => exact hw.mem_nextPhases.2.1
  | pollAgain _ hw => exact hw.mem_nextPhases.1
  | _ => simp_all [nextPhases, failurePath, usesPin, stageReading]

/-- STORE goes back to BITH only while a bit is left. -/
theorem EngineMove.bit_lt_of_store_to_bith (hi : RegInv s) (h : EngineMove s t) (hs : s.ph = .store)
    (ht : t.ph = .bith) : s.bit.toNat < 39 := by
  obtain ⟨-, -, hn, -⟩ := wf_cases _ hi.config
  have hb := hi.bitLimit
  cases h with
  | storeNext _ hne => omega
  | pollErr _ hw | pollMatch _ hw | pollAgain _ hw | pollBound _ hw =>
    exact absurd hw.ph_cases (by simp [hs])
  | _ => simp_all

/-- An engine turn that moves `ph` made one of the engine's moves; what it spent of the environment's answers is
outside. -/
theorem engineTurn_moves_ph (h : engineTurn s = .next t) (hp : t.ph ≠ s.ph) : ∃ w, EngineMove (s.setWorld w) t := by
  obtain rfl | ⟨i, a, hd, he⟩ := engineTurn_next s t h
  · exact absurd rfl hp
  · exact ⟨{ s.world with answers := a }, exec_move _ t i hd he⟩

/-- What a step that moves `ph` did: a move of the engine, an accepted READ, or a reset. -/
theorem step_moves_ph (h : step s = .next t) (hp : t.ph ≠ s.ph) :
    (∃ w, EngineMove (s.setWorld w) t) ∨ (∃ v, s.ph = .idle ∧ t = acceptRead v s.popTurn) ∨
      (s.BUSY = false ∧ t.ph = .idle) := by
  unfold step nextTurn at h
  split at h
  · exact .inl (engineTurn_moves_ph h hp)
  · exact .inl (engineTurn_moves_ph (s := s.popTurn) h hp)
  · obtain ⟨_, _, rfl⟩ | ⟨v, hi, rfl⟩ | ⟨hb, rfl⟩ := hostTurn_next _ _ _ h
    · exact absurd rfl hp
    · exact .inr (.inl ⟨v, hi, rfl⟩)
    · exact .inr (.inr ⟨hb, rfl⟩)
  · cases h
    exact absurd rfl hp

/-- A READ in IDLE is accepted (45_host_commands.md R141). -/
theorem exec_read_of_idle (hp : s.ph = .idle) (v : Variant) :
    exec .readA s = .next (acceptRead v s) ∨ exec .readB s = .next (acceptRead v s) := by
  have hr : readCommand v s = acceptRead v s := if_pos hp
  cases v with
  | a => exact .inl (congrArg Host.Outcome.next hr)
  | b => exact .inr (congrArg Host.Outcome.next hr)

end

/-- Settles O38, by what can move `ph` (`step_moves_ph`): the engine's moves keep to the edges and none starts in IDLE;
an acceptance goes from IDLE to GSUS; and a reset, which finds the engine in IDLE, moves nothing. -/
theorem phaseMovesAlongTheSequence : Obligations.PhaseMovesAlongTheSequence := by
  intro s t hi h hp
  obtain ⟨w, hm⟩ | ⟨v, hs, rfl⟩ | ⟨hb, ht⟩ := step_moves_ph h hp
  · exact ⟨hm.mem_nextPhases, hm.bit_lt_of_store_to_bith (s := s.setWorld w) (hi.setWorld w),
      fun hs => absurd hs hm.ph_ne_idle⟩
  · exact ⟨by simp [acceptRead, hs, nextPhases], fun k => by simp [hs] at k,
      fun _ => exec_read_of_idle (s := s.popTurn) hs v⟩
  · have hs : s.ph = .idle := not_not.mp fun k => by simp [hi.busy.mpr k] at hb
    exact absurd (ht.trans hs.symm) hp

end Machine
end Sys2Proof
end

