-- ==== Sys2Proof/Proofs/HostAccess.lean ====
section
/-! The host's turn on the schedule, and its accesses that are no commands (10_state.md R30; 20_memory.md R43). -/

namespace Sys2Proof
namespace Machine

/-- A host step at the head of the schedule is taken off and done. -/
theorem step_host {s : State} {h : HostStep} {rest : List Turn} (hs : s.world.sched = .host h :: rest) :
    step s = hostTurn h (s.setWorld { s.world with sched := rest }) := by
  simp only [step, nextTurn, State.popTurn, hs, List.tail_cons]

/-- Registers 1 to 5 ignore a write. -/
theorem writeRegister_of_readOnly (v : Word) (s : State) {idx : Nat} (hlo : 1 ≤ idx) (hhi : idx ≤ 5) :
    writeRegister idx v s = .next s := by
  simp [writeRegister, hhi, Nat.one_le_iff_ne_zero.mp hlo]

/-- Register 6 and above cannot be written. -/
theorem writeRegister_of_noSuch (v : Word) (s : State) {idx : Nat} (h : 6 ≤ idx) :
    writeRegister idx v s = .refused (.noSuchRegister idx) := by
  simp [writeRegister, show idx ≠ 0 by omega, show ¬idx ≤ 5 by omega]

/-- Register 6 and above cannot be read. -/
theorem readRegister_of_noSuch (s : State) {idx : Nat} (h : 6 ≤ idx) :
    readRegister idx s = .refused (.noSuchRegister idx) := by
  obtain ⟨k, rfl⟩ := Nat.exists_eq_add_of_le' h
  rfl

/-- Settles O15: the host's turn is taken off the schedule (`step_host`), and each access has its lemma. -/
theorem otherWritesHaveNoEffect : Obligations.OtherWritesHaveNoEffect := fun _ _ v _ =>
  ⟨fun hs hlo hhi => (step_host hs).trans (writeRegister_of_readOnly v _ hlo hhi),
    fun hs h => (step_host hs).trans (writeRegister_of_noSuch v _ h),
    fun hs h => (step_host hs).trans (readRegister_of_noSuch _ h)⟩

end Machine
end Sys2Proof
end

