-- ==== Sys2Proof/Proofs/RegisterWriters.lean ====
section
/-! Which instructions write which registers (10_state.md R11 to R29): the frame of each shared operation, as the one
record update it can be, and the statement over all instructions. -/

namespace Sys2Proof
namespace Machine

section
variable {s t : State}

/-- One iteration of a level wait writes `el`, `tick`, `ph` and `err`, and no other register. -/
theorem lwIter_frame {wt : Wait} (h : lwIter wt s = t) : ∃ el tick ph err w,
    t = { s with el := el, tick := tick, ph := ph, err := err, world := w } := by
  obtain ⟨_, _, k⟩ | ⟨_, k⟩ | ⟨_, _, _, _, k⟩ | ⟨_, _, _, _, k⟩ := lwIter_cases wt s <;>
    exact ⟨_, _, _, _, _, h.symm.trans k⟩

/-- A set-and-hold micro-operation writes `tick`, `ph` and `err`, and no other register, when what it goes on with
writes `tick` and `ph` alone. -/
theorem setAndHold_frame {l : Level} {hold : Nat} {after : State → State} (h : setAndHold l hold after s = t)
    (ha : ∀ u, ∃ tick ph, after u = { u with tick := tick, ph := ph }) : ∃ tick ph err w,
    t = { s with tick := tick, ph := ph, err := err, world := w } := by
  obtain ⟨_, k⟩ | ⟨_, _, k⟩ := setAndHold_cases l hold after s
  · obtain ⟨_, _, k'⟩ := ha ((s.pinSet l).delay hold)
    exact ⟨_, _, _, _, h.symm.trans (k.trans k')⟩
  · exact ⟨_, _, _, _, h.symm.trans k⟩

/-- A READ, accepted or ignored, writes neither the configuration nor `g`. -/
theorem readCommand_frame {v : Variant} (h : readCommand v s = t) : t.platform = s.platform ∧ t.g = s.g := by
  subst h
  unfold readCommand
  split <;> exact ⟨rfl, rfl⟩

end

/-- Settles O37, instruction by instruction: each is a record update that names the registers it may write. -/
theorem eachRegisterHasItsOwnWriters : Obligations.EachRegisterHasItsOwnWriters := by
  intro i s t h
  cases i with
  | readA | readB =>
    have ⟨hp, hg⟩ := readCommand_frame (Host.Outcome.next.inj h)
    simp [hp, hg]
  | nop | gsus | gres | decA | decB =>
    cases h
    simp [stageReading]
  | wake | req =>
    obtain ⟨_, _, _, _, rfl⟩ := setAndHold_frame (Host.Outcome.next.inj h) fun _ => ⟨_, _, rfl⟩
    simp
  | ackh | ackl | bith | bitl =>
    obtain ⟨_, _, _, _, _, rfl⟩ := lwIter_frame (Host.Outcome.next.inj h)
    simp
  | store =>
    cases h
    split <;> simp [storeCell]
  | csum | rchk =>
    cases h
    split <;> simp
  | pub =>
    cases h
    rw [publishOutcome_eq]
    simp

end Machine
end Sys2Proof
end

