-- ==== Sys2Proof/Proofs/NothingLeftBehind.lean ====
section
/-! Two states that differ in `err.e` alone, where it means nothing, go on alike (10_state.md R19, R34): each operation
takes such a pair to such a pair, up to the run. The second state of a pair is written as the first with another
`err.e`, so that whatever an operation reads of the two is the same by definition. -/

namespace Sys2Proof
namespace Machine

/-- The state with another value in `err.e`. -/
def State.withErrE (e : PinErr) (s : State) : State := s.setErr { s.err with e := e }

theorem SameButErrE.refl (s : State) : SameButErrE s s := ⟨rfl, fun _ => rfl⟩

/-- The second state of a pair is the first with the second's `err.e`. -/
theorem SameButErrE.eq_withErrE {s t : State} (h : SameButErrE s t) : t = s.withErrE t.err.e :=
  (congrArg (State.withErrE t.err.e) h.rest).symm

/-- Two pairs under one condition, which both states of a pair decide alike. -/
theorem SameButErrE.ite {c : Prop} [Decidable c] {a a' b b' : State} (ha : SameButErrE a a') (hb : SameButErrE b b') :
    SameButErrE (if c then a else b) (if c then a' else b') := by
  split
  · exact ha
  · exact hb

/-- Two outcomes that agree are a pair of states or one refusal: there is no fault. -/
theorem sameOutcome_cases {x y : Host.Outcome State Fault Refusal} (h : sameOutcome x y) :
    (∃ s t, x = .next s ∧ y = .next t ∧ SameButErrE s t) ∨ (∃ r, x = .refused r ∧ y = .refused r) := by
  cases x with
  | next s =>
    cases y with
    | next t => exact .inl ⟨s, t, rfl, rfl, h⟩
    | fault r => cases r
    | refused r => exact h.elim
  | fault r => cases r
  | refused r =>
    cases y with
    | next t => exact h.elim
    | fault q => cases q
    | refused q => exact .inr ⟨r, rfl, congrArg Host.Outcome.refused (Eq.symm h)⟩

/-- A micro-operation whose transaction is never answered changes nothing. -/
theorem runMicroOp_of_hung (i : Instr) {s : State} (hp : usesPin s.ph = true) (h : s.world.answers = some 0) :
    runMicroOp i s = .next s := by
  simp [runMicroOp, hp, h]

/-- Acceptances of the same READ by two idle states with the same world, configuration and guard flag: every other
register but `err.e` is written. -/
theorem sameButErrE_acceptRead {s t : State} (v : Variant) (hw : s.world = t.world) (hp : s.platform = t.platform)
    (hg : s.g = t.g) : SameButErrE (acceptRead v s) (acceptRead v t) := by
  refine ⟨?_, fun k => by simp [acceptRead] at k⟩
  simp [acceptRead, hw, hp, hg]

section
variable {s : State} {e : PinErr}

/-- Raising a failure makes a pair of any two: a PinError writes `err.e`, and with any other tag it means nothing. -/
theorem sameButErrE_raise (x : Failure) : SameButErrE (raise x s) (raise x (s.withErrE e)) := by
  cases x with
  | pinError => exact .refl _
  | _ => exact ⟨rfl, nofun⟩

variable (hm : s.err.tag = .pinError → s.err.e = e)
include hm

theorem sameButErrE_withErrE : SameButErrE s (s.withErrE e) := ⟨rfl, hm⟩

/-! ## The meanings -/

theorem sameButErrE_readCommand (v : Variant) : SameButErrE (readCommand v s) (readCommand v (s.withErrE e)) :=
  .ite (sameButErrE_acceptRead v rfl rfl rfl) (sameButErrE_withErrE hm)

theorem sameButErrE_setAndHold (l : Level) (hold : Nat) {after : State → State}
    (ha : ∀ u : State, (u.err.tag = .pinError → u.err.e = e) → SameButErrE (after u) (after (u.withErrE e))) :
    SameButErrE (setAndHold l hold after s) (setAndHold l hold after (s.withErrE e)) := by
  unfold setAndHold
  rw [show (s.withErrE e).answerSet = s.answerSet from rfl]
  cases s.answerSet with
  | ok => exact ha ((s.pinSet l).delay hold) hm
  | err x => exact sameButErrE_raise (s := s.pinSet l) (.pinError x)

theorem sameButErrE_lwIter (wt : Wait) : SameButErrE (lwIter wt s) (lwIter wt (s.withErrE e)) := by
  unfold lwIter
  rw [show (s.withErrE e).answerRead = s.answerRead from rfl]
  cases s.answerRead with
  | err x => exact sameButErrE_raise (s := s.pinRead) (.pinError x)
  | ok l => exact .ite ⟨rfl, hm⟩ (.ite (sameButErrE_raise wt.failure) ⟨rfl, hm⟩)

/-- PUB shows `err.e` only where it means something. -/
theorem publishOutcome_withErrE : publishOutcome (s.withErrE e) = (publishOutcome s).withErrE e := by
  unfold publishOutcome
  rw [show (s.withErrE e).err.tag = s.err.tag from rfl]
  cases ht : s.err.tag with
  | pinError => rw [hm ht]; rfl
  | _ => rfl

theorem sameButErrE_publish :
    SameButErrE { publishOutcome s with BUSY := false, DONE := true, ph := .idle }
      { publishOutcome (s.withErrE e) with BUSY := false, DONE := true, ph := .idle } := by
  have hm' : (publishOutcome s).err.tag = .pinError → (publishOutcome s).err.e = e := by rwa [publishOutcome_err]
  rw [publishOutcome_withErrE hm]
  exact ⟨rfl, hm'⟩

theorem sameOutcome_exec (i : Instr) : sameOutcome (exec i s) (exec i (s.withErrE e)) := by
  cases i with
  | readA => exact sameButErrE_readCommand hm .a
  | readB => exact sameButErrE_readCommand hm .b
  | nop | gsus | gres | decA | decB => exact ⟨rfl, hm⟩
  | wake | req => exact sameButErrE_setAndHold hm _ _ fun _ hu => ⟨rfl, hu⟩
  | ackh | ackl | bith | bitl => exact sameButErrE_lwIter hm _
  | store => exact SameButErrE.ite ⟨rfl, hm⟩ ⟨rfl, hm⟩
  | csum => exact SameButErrE.ite ⟨rfl, hm⟩ (sameButErrE_raise _)
  | rchk => exact SameButErrE.ite (sameButErrE_raise _) ⟨rfl, hm⟩
  | pub => exact sameButErrE_publish hm

/-! ## The turns -/

theorem sameOutcome_runMicroOp (i : Instr) : sameOutcome (runMicroOp i s) (runMicroOp i (s.withErrE e)) := by
  obtain ⟨ha, k⟩ | ⟨hp, ha, k⟩ | ⟨hp, n, ha, k⟩ | ⟨hp, k⟩ := runMicroOp_cases i s <;> rw [k]
  · rw [runMicroOp_of_live i (s := s.withErrE e) ha]
    exact sameOutcome_exec hm i
  · rw [runMicroOp_of_hung i (s := s.withErrE e) hp ha]
    exact sameButErrE_withErrE hm
  · rw [runMicroOp_of_budget i (s := s.withErrE e) hp ha]
    exact sameOutcome_exec (s := s.setWorld { s.world with answers := some n }) hm i
  · rw [runMicroOp_of_noPin i (s := s.withErrE e) hp]
    exact sameOutcome_exec hm i

theorem sameOutcome_engineTurn : sameOutcome (engineTurn s) (engineTurn (s.withErrE e)) := by
  unfold engineTurn
  rw [show selector (s.withErrE e) = selector s from rfl]
  cases decodeSelector (selector s) with
  | error => exact sameButErrE_withErrE hm
  | ok i => exact sameOutcome_runMicroOp hm i

theorem sameOutcome_writeRegister (idx : Nat) (v : Word) :
    sameOutcome (writeRegister idx v s) (writeRegister idx v (s.withErrE e)) := by
  unfold writeRegister writeCommand
  split_ifs
  · cases decodeCommand v with
    | error => exact sameButErrE_withErrE hm
    | ok i => exact sameOutcome_exec hm i
  · exact sameButErrE_withErrE hm
  · rfl

/-- The host cannot read `err.e`. -/
theorem sameOutcome_readRegister (idx : Nat) : sameOutcome (readRegister idx s) (readRegister idx (s.withErrE e)) := by
  unfold readRegister
  rw [show registerValue (s.withErrE e) idx = registerValue s idx from rfl]
  cases registerValue s idx with
  | none => rfl
  | some => exact ⟨rfl, hm⟩

theorem sameOutcome_hostTurn (h : HostStep) : sameOutcome (hostTurn h s) (hostTurn h (s.withErrE e)) := by
  cases h with
  | regRead idx => exact sameOutcome_readRegister hm idx
  | regWrite idx v => exact sameOutcome_writeRegister hm idx v
  | busRead addr bytes =>
    simp only [hostTurn, show (s.withErrE e).platform = s.platform from rfl]
    cases busRegister s.platform addr bytes with
    | error => rfl
    | ok idx => exact sameOutcome_readRegister hm idx
  | busWrite addr bytes v =>
    simp only [hostTurn, show (s.withErrE e).platform = s.platform from rfl]
    cases busRegister s.platform addr bytes with
    | error => rfl
    | ok idx => exact sameOutcome_writeRegister hm idx v
  | waitDone => exact sameOutcome_readRegister (s := s.setWorld { s.world with sched := waitDoneRest s }) hm 1
  | reset =>
    unfold hostTurn
    rw [show (s.withErrE e).BUSY = s.BUSY from rfl]
    cases s.BUSY with
    | true => rfl
    | false => exact SameButErrE.refl _

theorem sameOutcome_step_withErrE : sameOutcome (step s) (step (s.withErrE e)) := by
  unfold step nextTurn
  rw [show (s.withErrE e).world = s.world from rfl]
  match s.world.sched with
  | [] => exact sameOutcome_engineTurn hm
  | .engine :: _ => exact sameOutcome_engineTurn (s := s.popTurn) hm
  | .host h :: _ => exact sameOutcome_hostTurn (s := s.popTurn) hm h
  | .environment _ :: _ => exact ⟨rfl, hm⟩

end

/-- A step takes a pair to a pair, or refuses both alike. -/
theorem SameButErrE.sameOutcome_step {s t : State} (h : SameButErrE s t) : sameOutcome (step s) (step t) := by
  rw [h.eq_withErrE]
  exact sameOutcome_step_withErrE h.meaning

/-- A run takes a pair to a pair, or is refused at the same step. -/
theorem SameButErrE.sameOutcome_run {s t : State} (h : SameButErrE s t) (n : Nat) :
    sameOutcome (core.run n s) (core.run n t) := by
  induction n generalizing s t with
  | zero => exact h
  | succ n ih =>
    obtain ⟨s', t', hs, ht, h'⟩ | ⟨r, hs, ht⟩ := sameOutcome_cases h.sameOutcome_step
    · rw [run_succ_of_next hs, run_succ_of_next ht]
      exact ih h'
    · rw [run_succ_of_refused hs, run_succ_of_refused ht]
      rfl

/-- Settles O54: the two acceptances make a pair, and a run keeps it. -/
theorem readDependsOnNothingLeftBehind : Obligations.ReadDependsOnNothingLeftBehind :=
  fun _ _ v n _ _ hw hp hg => (sameButErrE_acceptRead v hw hp hg).sameOutcome_run n

end Machine
end Sys2Proof
end

