-- ==== Sys2Proof/Proofs/HostView.lean ====
section
/-! What the host sees (20_memory.md R40, R41, R49): which register a bus access selects, and that a read in progress shows
STATUS = 1 and zeros. -/

namespace Sys2Proof
namespace Machine

/-- Settles O20: while a read is in progress the host-visible registers are blank (`ShownInv.blank`). -/
theorem readInProgressShowsNothingElse : Obligations.ReadInProgressShowsNothingElse := by
  intro s h hp
  obtain ⟨busy, done, err, hum, temp, errinfo, pinerr⟩ := (regInv_iff.mp h).2.blank hp
  simp [registerValue, statusWord, limitErr, errCode, busy, done, err, hum, temp, errinfo, pinerr]

section
variable {p : Config.Platform} {addr bytes idx : Nat}

/-- An address lies `k` whole strides above a base when its distance, divided by the stride, leaves `k` and no rest. -/
theorem eq_base_add_strides_iff {base stride k : Nat} (hs : 1 ≤ stride) :
    addr = base + stride * k ↔ base ≤ addr ∧ (addr - base) % stride = 0 ∧ (addr - base) / stride = k := by
  have := Nat.div_mod_unique (a := addr - base) (c := 0) (d := k) hs
  omega

/-- A whole-register access selects the register whose number of strides its address is above `REG_BASE`. -/
theorem busRegister_eq_ok_iff (hs : 1 ≤ p.regStride) :
    busRegister p addr bytes = .ok idx ↔ bytes = 4 ∧ idx ≤ 5 ∧ addr = p.regBase + p.regStride * idx := by
  rw [eq_base_add_strides_iff hs]
  unfold busRegister
  split_ifs with hw hb hm hi
  · exact iff_of_false nofun fun h => hw h.1
  · exact iff_of_false nofun (by omega)
  · exact iff_of_false nofun (by omega)
  · exact iff_of_false nofun (by omega)
  · rw [Except.ok.injEq]
    omega

theorem busRegister_of_badWidth (h : bytes ≠ 4) : busRegister p addr bytes = .error (.badAccessWidth bytes) := if_pos h

/-- An access of the right width selects a register or is refused for its address. -/
theorem busRegister_of_width :
    (∃ k, busRegister p addr 4 = .ok k) ∨ busRegister p addr 4 = .error (.noSuchAddress addr) := by
  unfold busRegister
  split_ifs <;> simp_all

end

/-- Settles O16. An access that selects no register has no number `k` by the first clause, so its address is refused. -/
theorem busAccessSelectsARegister : Obligations.BusAccessSelectsARegister := by
  intro p addr bytes idx hs
  refine ⟨busRegister_eq_ok_iff hs, busRegister_of_badWidth, ?_⟩
  rintro rfl hnone
  refine busRegister_of_width.resolve_left fun ⟨k, hk⟩ => hnone ⟨k, ?_⟩
  exact ((busRegister_eq_ok_iff hs).mp hk).2

end Machine
end Sys2Proof
end

