-- ==== Sys2Proof/Proofs/Transactions.lean ====
section
/-! The engine's transactions (20_memory.md R44 to R48, R55): the engine's turn where none is listed, what each move issues,
and that nominal time and the ordinals keep count of it. -/

namespace Sys2Proof
namespace Machine

/-- With no turn listed the step is the engine's. -/
theorem step_of_engineAlone {s : State} (h : EngineAlone s) : step s = engineTurn s := by
  simp only [step, nextTurn, show s.world.sched = [] from h]

/-- Settles O7: the turn is the engine's (`step_of_engineAlone`), which does nothing in IDLE. -/
theorem engineRunsAloneAndIdlesInIdle : Obligations.EngineRunsAloneAndIdlesInIdle := by
  intro s hs
  rw [step_of_engineAlone hs]
  exact ⟨engineTurn_idle s, fun i hl hd => (engineTurn_of_decode s i hd).trans (runMicroOp_of_live i hl)⟩

/-- The transactions one micro-operation of a phase can issue, the newest first. -/
inductive PhaseEvents (p : Config.Platform) : Phase → List Event → Prop where
  | suspend : PhaseEvents p .gsus [.guardSuspend]
  | wakeSet (a : SetAnswer) : PhaseEvents p .wake [.pinSet .low a]
  | wakeHeld (a : SetAnswer) : PhaseEvents p .wake [.delay p.tWakeUs, .pinSet .low a]
  | reqSet (a : SetAnswer) : PhaseEvents p .req [.pinSet .high a]
  | reqHeld (a : SetAnswer) : PhaseEvents p .req [.delay p.tReqUs, .pinSet .high a]
  | poll {ph : Phase} {wt : Wait} (h : WaitPhase p ph wt) (a : ReadAnswer) : PhaseEvents p ph [.pinRead a]
  | pollDelayed {ph : Phase} {wt : Wait} (h : WaitPhase p ph wt) (a : ReadAnswer) :
      PhaseEvents p ph [.delay p.pollPeriodUs, .pinRead a]
  | resume : PhaseEvents p .gres [.guardResume]
  | silent (ph : Phase) : PhaseEvents p ph []

/-- A `Guard(SUSPEND)` adds its event and nothing else. -/
theorem gained_suspend (w : World) : Gained w [.guardSuspend] w.suspend := ⟨rfl, rfl, rfl, rfl, rfl, rfl, rfl⟩

/-- A `Guard(RESUME)` adds its event and nothing else. -/
theorem gained_resume (w : World) : Gained w [.guardResume] w.resume := ⟨rfl, rfl, rfl, rfl, rfl, rfl, rfl⟩

@[simp] theorem publishOutcome_world (s : State) : (publishOutcome s).world = s.world := by rw [publishOutcome_eq]

/-- A move adds to the record the transactions of its phase and nothing else. -/
theorem EngineMove.gained {s t : State} (h : EngineMove s t) :
    ∃ es, Gained s.world es t.world ∧ PhaseEvents s.platform s.ph es := by
  cases h with
  | gsus hp => exact ⟨_, gained_suspend _, hp ▸ .suspend⟩
  | wakeOk hp => exact ⟨_, (gained_pinSet _ _ _).trans (gained_delay _ _), hp ▸ .wakeHeld _⟩
  | wakeErr hp => exact ⟨_, gained_pinSet _ _ _, hp ▸ .wakeSet _⟩
  | reqOk hp => exact ⟨_, (gained_pinSet _ _ _).trans (gained_delay _ _), hp ▸ .reqHeld _⟩
  | reqErr hp => exact ⟨_, gained_pinSet _ _ _, hp ▸ .reqSet _⟩
  | pollErr _ hw | pollMatch _ hw => exact ⟨_, gained_pinRead _ _, .poll hw _⟩
  | pollAgain _ hw | pollBound _ hw => exact ⟨_, (gained_pinRead _ _).trans (gained_delay _ _), .pollDelayed hw _⟩
  | gresOk hp | gresFailed hp => exact ⟨_, gained_resume _, hp ▸ .resume⟩
  | pub => exact ⟨[], (publishOutcome_world s).symm ▸ Gained.refl _, .silent _⟩
  | _ => exact ⟨[], Gained.refl _, .silent _⟩

/-- An engine turn adds to the record the transactions of its phase and nothing else. -/
theorem engineTurn_issues {s t : State} (h : engineTurn s = .next t) :
    ∃ es, t.world.trace = es ++ s.world.trace ∧ PhaseEvents s.platform s.ph es := by
  obtain rfl | ⟨i, a, hd, he⟩ := engineTurn_next s t h
  · exact ⟨[], rfl, .silent _⟩
  · obtain ⟨es, hg, hp⟩ := (exec_move (s.setWorld { s.world with answers := a }) t i hd he).gained
    exact ⟨es, hg.trace, hp⟩

/-- Settles O40: what an engine turn issues are its phase's transactions (`engineTurn_issues`), read off one phase at a
time. -/
theorem eachPhaseIssuesItsOwnTransactions : Obligations.EachPhaseIssuesItsOwnTransactions := by
  intro s t h
  obtain ⟨es, ht, hp⟩ := engineTurn_issues h
  refine ⟨es, ht, ?_⟩
  generalize s.ph = ph at hp
  cases hp with
  | poll hw | pollDelayed hw =>
    have : ph ∈ [Phase.ackh, .ackl, .bith, .bitl] := by simpa using hw.ph_cases
    simp [this]
  | _ => simp

/-- The record after a gain counts what was gained. -/
theorem Gained.clockInv {s t : State} {es : List Event} (h : Gained s.world es t.world) (hi : ClockInv s) :
    ClockInv t where
  tau := by rw [h.tau, h.trace, delaySum_append, hi.tau, Nat.add_comm]
  sets := by rw [h.sets, h.trace, setCount, setCount, List.countP_append, hi.sets, setCount, Nat.add_comm]
  reads := by rw [h.reads, h.trace, readCount, readCount, List.countP_append, hi.reads, readCount, Nat.add_comm]

/-- Settles O46: an acceptance and a reset clear the record, and a move counts what it issues. -/
theorem everyStepKeepsTheClock : Obligations.EveryStepKeepsTheClock := fun s t hi h =>
  step_keeps (P := ClockInv) s t h
    (outside := fun _ _ _ _ => ⟨hi.tau, hi.sets, hi.reads⟩)
    (accepted := fun _ _ _ _ => ⟨rfl, rfl, rfl⟩)
    (reset := fun u _ _ => clockInv_reset u.platform u.world.newRead rfl rfl rfl rfl)
    (moved := fun _ hu hm => have ⟨_, hg, _⟩ := hm.gained; hg.clockInv hu)

end Machine
end Sys2Proof
end

