-- ==== Sys2Proof/Proofs/Environment.lean ====
section
/-! The environment's answers (20_memory.md R52, R53): the reference oracle's, and that of a poll right after another where
the two must agree. -/

namespace Sys2Proof
namespace Machine

/-- A pin error value is cut to its low `PEW` bits. -/
theorem limitErr_toNat (p : Config.Platform) (e : PinErr) : (limitErr p e).toNat = e.toNat % 2 ^ p.pew := by
  have hlt : e.toNat % 2 ^ p.pew < 2 ^ 32 := (Nat.mod_le _ _).trans_lt e.isLt
  calc (limitErr p e).toNat = e.toNat &&& (2 ^ p.pew - 1) % 2 ^ 32 := by
        rw [limitErr, BitVec.toNat_and, BitVec.toNat_ofNat]
    _ = (e.toNat &&& (2 ^ p.pew - 1)) % 2 ^ 32 := by
        rw [Nat.and_mod_two_pow, Nat.mod_eq_of_lt e.isLt]
    _ = e.toNat % 2 ^ p.pew := by
        rw [Nat.and_two_pow_sub_one_eq_mod, Nat.mod_eq_of_lt hlt]

section
variable {p : Config.Platform} {w : World}

/-- A failing answer is never made to agree. -/
theorem answerRead_of_oracle_err {e : PinErr} (h : oracleRead p w = .err e) : answerRead p w = .err e := by
  simp [answerRead, agree, h]

/-- Where back-to-back polls agree, a poll that does not fail sees the level of the one just before. -/
theorem answerRead_of_oracle_ok {k l : Level} (hp : p.sameInstantPollsAgree = true) (hl : sameInstantLevel w = some l)
    (h : oracleRead p w = .ok k) : answerRead p w = .ok l := by
  simp [answerRead, agree, h, hp, hl]

/-- A poll answered is the poll just before the next. -/
theorem sameInstantLevel_pinRead {l : Level} (h : answerRead p w = .ok l) : sameInstantLevel (w.pinRead p) = some l := by
  simp [sameInstantLevel, h]

section
variable {wave : Waveform} {sf rf : List (Nat × PinErr)} (ho : w.oracle = .reference wave sf rf)
include ho

theorem answerSet_of_reference_none (h : sf.lookup (w.sets + 1) = none) : answerSet p w = .ok := by
  simp [answerSet, ho, h]

theorem answerSet_of_reference_some {e : PinErr} (h : sf.lookup (w.sets + 1) = some e) :
    answerSet p w = .err (limitErr p e) := by
  simp [answerSet, ho, h]

theorem oracleRead_of_reference_none (h : rf.lookup (w.reads + 1) = none) :
    oracleRead p w = .ok (waveAt wave w.tau) := by
  simp [oracleRead, ho, h]

theorem oracleRead_of_reference_some {e : PinErr} (h : rf.lookup (w.reads + 1) = some e) :
    oracleRead p w = .err (limitErr p e) := by
  simp [oracleRead, ho, h]

/-- The reference oracle is not used up. -/
theorem pinSet_reference (l : Level) : (w.pinSet p l).oracle = w.oracle := by simp [ho, Oracle.dropSet]

theorem pinRead_reference : (w.pinRead p).oracle = w.oracle := by simp [ho, Oracle.dropRead]

/-- Two polls at one instant agree: by the parameter, or since both see the waveform at the same nominal time. -/
theorem answerRead_pinRead_of_reference {l : Level} (ha : answerRead p w = .ok l)
    (hn : rf.lookup (w.reads + 2) = none) : answerRead p (w.pinRead p) = .ok l := by
  have hnext : oracleRead p (w.pinRead p) = .ok (waveAt wave w.tau) :=
    oracleRead_of_reference_none (w := w.pinRead p) ((pinRead_reference ho).trans ho) hn
  cases hp : p.sameInstantPollsAgree with
  | true => exact answerRead_of_oracle_ok hp (sameInstantLevel_pinRead ha) hnext
  | false =>
    rw [answerRead_of_oracle _ _ (.inl hp)] at ha ⊢
    rw [hnext]
    cases h : rf.lookup (w.reads + 1) with
    | none => exact (oracleRead_of_reference_none ho h).symm.trans ha
    | some e => cases (oracleRead_of_reference_some ho h).symm.trans ha

end
end

/-- Settles O55: each clause is a lemma about the reference oracle, an error value being cut by `limitErr_toNat`. -/
theorem referenceOracleAnswers : Obligations.ReferenceOracleAnswers := by
  intro p w wave sf rf ho
  refine ⟨answerSet_of_reference_none ho, fun e h => ⟨_, answerSet_of_reference_some ho h, limitErr_toNat p e⟩,
    fun h => ⟨fun hp => ?_, fun l hp hl => answerRead_of_oracle_ok hp hl (oracleRead_of_reference_none ho h)⟩,
    fun e h => ⟨_, answerRead_of_oracle_err (oracleRead_of_reference_some ho h), limitErr_toNat p e⟩,
    fun l => answerRead_pinRead_of_reference ho, pinSet_reference ho .low, pinRead_reference ho⟩
  exact (answerRead_of_oracle p w hp).trans (oracleRead_of_reference_none ho h)

/-- An iteration of a wait whose poll matches. -/
theorem lwIter_of_match {wt : Wait} {s : State} (h : s.answerRead = .ok wt.target) :
    lwIter wt s = ((s.pinRead.setEl s.tick).setTick 0).setPh wt.next := by
  simp [lwIter, h]

/-- Settles O56: each of the four waits is an iteration that matched, so the trace's newest event is its poll, whose level
the next poll repeats unless it fails (`answerRead_repeats`), whatever the oracle. -/
theorem sameInstantPollsAgreeWhenSet : Obligations.SameInstantPollsAgreeWhenSet := by
  rintro s t p i wt rfl hagree hi ha h
  have ht : lwIter wt s = t := by
    simp only [List.mem_cons, Prod.mk.injEq, List.not_mem_nil, or_false] at hi
    obtain ⟨rfl, rfl⟩ | ⟨rfl, rfl⟩ | ⟨rfl, rfl⟩ | ⟨rfl, rfl⟩ := hi <;> exact Host.Outcome.next.inj h
  obtain rfl := (lwIter_of_match ha).symm.trans ht
  exact ⟨rfl, fun o => answerRead_repeats s.platform { s.world.pinRead s.platform with oracle := o } wt.target hagree
    (sameInstantLevel_pinRead ha)⟩

end Machine
end Sys2Proof
end

