-- ==== Sys2Proof/Proofs/LineReleased.lean ====
section
/-! The line (20_memory.md R54, 70_reset_and_hazards.md R190): the engine polls only while its pin is asked to output High,
and leaves it so. -/

namespace Sys2Proof
namespace Machine

section
variable {s t : State}

/-- Past REQ, with the pin last accepted High, the invariant asks no more than that the polls so far came after it. -/
theorem lineInv_of_released (hl : lastAccepted s.world.trace = some .high) (hp : pollsAfterRelease s.world.trace = true)
    (hph : s.ph ≠ .gsus ∧ s.ph ≠ .wake ∧ s.ph ≠ .req) : LineInv s where
  polls := hp
  noPollYet h := by simp [hph] at h
  sampling _ := hl
  failing _ _ := hl
  finished _ _ _ := hl

section
variable {p : Config.Platform} {ph : Phase} {wt : Wait}

theorem WaitPhase.pastReq (h : WaitPhase p ph wt) : ph ≠ .gsus ∧ ph ≠ .wake ∧ ph ≠ .req := by cases h <;> simp

theorem WaitPhase.next_pastReq (h : WaitPhase p ph wt) : wt.next ≠ .gsus ∧ wt.next ≠ .wake ∧ wt.next ≠ .req := by
  cases h <;> simp [ackhWait, acklWait, bithWait, bitlWait]

end

/-- In a wait the pin was last accepted High. -/
theorem WaitPhase.released {p : Config.Platform} {wt : Wait} (hw : WaitPhase p s.ph wt) (hi : LineInv s) :
    lastAccepted s.world.trace = some .high :=
  hi.sampling (by rcases hw.ph_cases with k | k | k | k <;> simp [k])

/-- Before the first poll the invariant asks nothing of the line where REQ is still to come or a PinError is pending. -/
theorem lineInv_of_noPoll (hp : pollsAfterRelease s.world.trace = true) (hr : s.world.reads = 0)
    (hph : s.ph = .wake ∨ s.ph = .req ∨ (s.ph = .gres ∧ s.err.tag = .pinError)) : LineInv s where
  polls := hp
  noPollYet _ := hr
  sampling h := by rcases hph with k | k | ⟨k, -⟩ <;> simp [k] at h
  failing h hf := by
    rcases hph with k | k | ⟨-, he⟩
    · simp [k] at h
    · simp [k] at h
    · simp [he, hr] at hf
  finished h := by rcases hph with k | k | ⟨k, -⟩ <;> simp [k] at h

theorem publishOutcome_ERR (s : State) : (publishOutcome s).ERR = s.err.tag := by
  unfold publishOutcome
  cases h : s.err.tag <;> rfl

theorem EngineMove.keeps_lineInv (hi : LineInv s) (h : EngineMove s t) : LineInv t := by
  have hpolls := hi.polls
  cases h with
  | gsus hp => exact lineInv_of_noPoll hpolls (hi.noPollYet (.inl hp)) (.inl rfl)
  | wakeOk hp => exact lineInv_of_noPoll hpolls (hi.noPollYet (.inr (.inl hp))) (.inr (.inl rfl))
  | wakeErr hp =>
    exact lineInv_of_noPoll hpolls (hi.noPollYet (.inr (.inl hp))) (.inr (.inr ⟨congrArg failurePath hp, rfl⟩))
  | reqErr hp =>
    exact lineInv_of_noPoll hpolls (hi.noPollYet (.inr (.inr hp))) (.inr (.inr ⟨congrArg failurePath hp, rfl⟩))
  | reqOk hp a =>
    have ha : answerSet s.platform s.world = .ok := a
    exact lineInv_of_released (by simp [lastAccepted, ha]) hpolls (by simp)
  | pollErr _ hw | pollBound _ hw =>
    have hl := hw.released hi
    exact lineInv_of_released hl (by simp [pollsAfterRelease, hl, hpolls]) (by simp [hw.failurePath_eq])
  | pollMatch wt hw =>
    have hl := hw.released hi
    exact lineInv_of_released hl (by simp [pollsAfterRelease, hl, hpolls]) hw.next_pastReq
  | pollAgain wt hw =>
    have hl := hw.released hi
    exact lineInv_of_released hl (by simp [pollsAfterRelease, hl, hpolls]) hw.pastReq
  | gresOk hp he =>
    exact lineInv_of_released (hi.failing (.inl hp) (.inl (by simp [he]))) hpolls (by simp)
  | gresFailed hp =>
    have hf := hi.failing (.inl hp)
    exact ⟨hpolls, by simp, by simp, fun _ => hf, by simp⟩
  | pub hp =>
    have hf := hi.failing (.inr hp)
    exact ⟨by simpa using hpolls, by simp, by simp, by simp, fun _ _ => by simpa [publishOutcome_ERR] using hf⟩
  | storeLast hp | storeNext hp | csumOk hp | csumFailed hp | dec hp | rchkOk hp | rchkFailed hp =>
    refine lineInv_of_released (hi.sampling (by simp [hp])) hpolls ?_
    simp [hp, stageReading, failurePath, usesPin]

end

/-- Settles O45: a move keeps the line released once it is (`EngineMove.keeps_lineInv`), and with an empty record and no
outcome the invariant asks nothing. -/
theorem everyStepKeepsTheLineReleased : Obligations.EveryStepKeepsTheLineReleased := fun s t hi h =>
  step_keeps (P := LineInv) s t h
    (outside := fun _ _ _ _ => ⟨hi.polls, hi.noPollYet, hi.sampling, hi.failing, hi.finished⟩)
    (accepted := fun u v _ _ => by constructor <;> simp [acceptRead, pollsAfterRelease])
    (reset := fun u _ _ => lineInv_reset u.platform u.world.newRead rfl)
    (moved := fun _ hu hm => hm.keeps_lineInv hu)

end Machine
end Sys2Proof
end

