-- ==== Sys2Proof/Proofs/TraceShape.lean ====
section
/-! The trace of a read (20_memory.md R51): what each phase still expects of it, that the engine's moves keep to that, and
so that the trace of a finished read has the shape of the grammar. -/

namespace Sys2Proof
namespace Machine

/-! ## The waits still to come -/

/-- The waits of `n` cells (R51). -/
def cellWaits (n : Nat) : List (Level × Nat) := (List.replicate n [(Level.high, 55), (Level.low, 70)]).flatten

theorem cellWaits_succ (n : Nat) : cellWaits (n + 1) = (.high, 55) :: (.low, 70) :: cellWaits n := by
  simp [cellWaits, List.replicate_succ]

theorem readWaits_eq : readWaits = (.high, 85) :: (.low, 85) :: cellWaits 40 := rfl

/-- The waits still to come in a phase of cell `bit`, the one in progress first; after a wait's match, those of the
phase it leads to. -/
def waitsToCome : Phase → Nat → List (Level × Nat)
  | .ackh, _ => readWaits
  | .ackl, _ => (.low, 85) :: cellWaits 40
  | .bith, bit => (.high, 55) :: (.low, 70) :: cellWaits (39 - bit)
  | .bitl, bit => (.low, 70) :: cellWaits (39 - bit)
  | _, bit => cellWaits (39 - bit)

/-- The rests of a trace, in issue order, that the grammar of R51 allows after what has been issued in state `s`. -/
def Expects (s : State) (es : List Event) : Prop :=
  match s.ph with
  | .gsus => traceShape es = true
  | .wake => traceShape (.guardSuspend :: es) = true
  | .req => traceShape (.guardSuspend :: .pinSet .low .ok :: .delay 3000 :: es) = true
  | .ackh | .ackl | .bith | .bitl => waitsShape (waitsToCome s.ph s.bit.toNat) s.tick.toNat es = true
  | .store => waitsShape (waitsToCome s.ph s.bit.toNat) 0 es = true
  | .gres => es = [.guardResume]
  | .csum | .dec | .rchk | .pub => es = []
  | .idle => s.DONE = true ∧ es = []

/-- The phases before the bit loop. -/
def beforeCells : List Phase := [.gsus, .wake, .req, .ackh, .ackl]

/-- The counters as the waits need them: no cell before the bit loop, no more than forty in it, no wait past its bound.
The register invariant does not serve here: it asks for a well-formed configuration, and R51 speaks of any with R3's
values. -/
structure CountersInv (s : State) : Prop where
  noCellYet : s.ph ∈ beforeCells → s.bit = 0
  bitLimit : s.bit.toNat ≤ 39
  tickLimit : ∀ wt, WaitPhase s.platform s.ph wt → s.tick.toNat ≤ wt.bound

/-- Whatever the grammar still allows completes the trace so far to a read's. -/
structure TraceInv (s : State) : Prop where
  values : R3Values s.platform
  counters : CountersInv s
  completes : ∀ es, Expects s es → traceShape (s.world.events ++ es) = true

/-! ## One poll of the grammar -/

section
variable {target l : Level} {bound k : Nat} {ws : List (Level × Nat)} {es : List Event}

theorem waitsShape_match (h : k ≤ bound) :
    waitsShape ((target, bound) :: ws) k (.pinRead (.ok target) :: es) = waitsShape ws 0 es := by
  by_cases hd : ∃ es', es = .delay 1 :: es'
  · obtain ⟨es', rfl⟩ := hd
    simp [waitsShape, h]
  · rw [waitsShape]
    · simp [h]
    · exact fun es' k => hd ⟨es', k⟩

theorem waitsShape_again (h : k ≤ bound) (hl : l ≠ target) :
    waitsShape ((target, bound) :: ws) k (.pinRead (.ok l) :: .delay 1 :: es) =
      waitsShape ((target, bound) :: ws) (k + 1) es := by
  simp [waitsShape, h, hl]

theorem waitsShape_bound : waitsShape ((target, bound) :: ws) (bound + 1) [.guardResume] = true := by
  simp [waitsShape]

theorem waitsShape_err (h : k ≤ bound) (e : PinErr) :
    waitsShape ((target, bound) :: ws) k [.pinRead (.err e), .guardResume] = true := by
  simp [waitsShape, h]

end

/-! ## The counters -/

section
variable {p : Config.Platform} {ph : Phase} {wt wt' : Wait}

theorem WaitPhase.mem_beforeCells (h : WaitPhase p ph wt) (hn : wt.next ∈ beforeCells) : ph ∈ beforeCells := by
  cases h <;> simp_all [beforeCells, ackhWait, acklWait, bithWait, bitlWait]

/-- A phase runs one wait. -/
theorem WaitPhase.unique (h : WaitPhase p ph wt) (h' : WaitPhase p ph wt') : wt = wt' := by
  cases h <;> cases h' <;> rfl

theorem not_waitPhase_failurePath : ¬WaitPhase p (failurePath ph) wt := by
  unfold failurePath
  split <;> nofun

theorem failurePath_notMem_beforeCells (ph : Phase) : failurePath ph ∉ beforeCells := by
  unfold failurePath
  split <;> decide

end

section
variable {s t : State} {wt : Wait} {es : List Event}

/-- STORE counts a cell only in the bit loop and before the last, and a wait is entered at tick 0 and repeated within its
bound. -/
theorem EngineMove.keeps_counters (hv : R3Values s.platform) (hi : CountersInv s) (h : EngineMove s t) :
    CountersInv t where
  noCellYet ht := by
    have hz := hi.noCellYet
    cases h with
    | pollMatch _ hw => exact hz (hw.mem_beforeCells ht)
    | pollErr | pollBound | wakeErr | reqErr | csumFailed | rchkFailed =>
      exact absurd ht (failurePath_notMem_beforeCells _)
    | _ => simp_all [beforeCells, stageReading, storeCell]
  bitLimit := by
    have hb := hi.bitLimit
    cases h with
    | storeNext _ hne =>
      have hle : (s.bit + 1).toNat ≤ s.bit.toNat + 1 := toNat_add_one_le _
      rw [hv.nBits] at hne
      change (s.bit + 1).toNat ≤ 39
      omega
    | pub => simpa using hb
    | _ => exact hb
  tickLimit wt hw := by
    cases h with
    | reqOk | pollMatch | storeNext => exact Nat.zero_le _
    | pollAgain _ hw' _ _ _ hb => exact hw.unique hw' ▸ hb
    | pollErr | pollBound | wakeErr | reqErr | csumFailed | rchkFailed => exact (not_waitPhase_failurePath hw).elim
    | _ => cases hw

/-! ## What the phases expect -/

theorem expects_gres (hp : s.ph = .gres) : Expects s es ↔ es = [.guardResume] := by simp [Expects, hp]

theorem expects_store (hp : s.ph = .store) : Expects s es ↔ waitsShape (cellWaits (39 - s.bit.toNat)) 0 es = true := by
  simp [Expects, hp, waitsToCome]

/-- After a wait's match the grammar expects the waits of the phase it leads to. -/
theorem WaitPhase.waitsShape_next {p : Config.Platform} {ph : Phase} (h : WaitPhase p ph wt) (he : Expects t es)
    (hph : t.ph = wt.next) (htick : t.tick = 0) : waitsShape (waitsToCome wt.next t.bit.toNat) 0 es = true := by
  cases h <;> simpa [Expects, hph, htick, ackhWait, acklWait, bithWait, bitlWait] using he

section
variable (hw : WaitPhase s.platform s.ph wt) (hv : R3Values s.platform) (hc : CountersInv s)
include hw hv hc

/-- In a wait the waits to come are that wait and those of the phase it leads to. -/
theorem WaitPhase.waitsToCome_eq :
    waitsToCome s.ph s.bit.toNat = (wt.target, wt.bound) :: waitsToCome wt.next s.bit.toNat := by
  have hb := hc.noCellYet
  generalize s.ph = ph at hw hb
  cases hw with
  | ackh => simp [waitsToCome, ackhWait, hv.toAckHigh, readWaits_eq]
  | ackl => simp [waitsToCome, acklWait, hv.toAckLow, hb (by decide), cellWaits_succ 39]
  | bith => simp [waitsToCome, bithWait, hv.toBitHigh]
  | bitl => simp [waitsToCome, bitlWait, hv.toBitLow]

/-- In a wait the grammar expects that wait, `tick` polls in, then those of the phase it leads to. -/
theorem WaitPhase.expects_iff (u : State) (hph : u.ph = s.ph) (hbit : u.bit = s.bit) : Expects u es ↔
    waitsShape ((wt.target, wt.bound) :: waitsToCome wt.next s.bit.toNat) u.tick.toNat es = true := by
  rw [← hw.waitsToCome_eq hv hc, ← hph, ← hbit]
  rcases hw.ph_cases with k | k | k | k <;> simp [Expects, hph.trans k]

theorem WaitPhase.expects_match (he : waitsShape (waitsToCome wt.next s.bit.toNat) 0 es = true) :
    Expects s (.pinRead (.ok wt.target) :: es) :=
  (hw.expects_iff hv hc s rfl rfl).mpr ((waitsShape_match (hc.tickLimit wt hw)).trans he)

theorem WaitPhase.expects_err (e : PinErr) : Expects s [.pinRead (.err e), .guardResume] :=
  (hw.expects_iff hv hc s rfl rfl).mpr (waitsShape_err (hc.tickLimit wt hw) e)

/-- A poll that does not match leaves the wait one tick further. -/
theorem WaitPhase.expects_again {l : Level} (hl : l ≠ wt.target)
    (he : waitsShape ((wt.target, wt.bound) :: waitsToCome wt.next s.bit.toNat) (s.tick + 1).toNat es = true) :
    Expects s (.pinRead (.ok l) :: .delay 1 :: es) := by
  have ht := hc.tickLimit wt hw
  have hb : wt.bound ≤ 85 := hv.maxBound_eq ▸ hw.bound_le
  have hadd : (s.tick + 1).toNat = s.tick.toNat + 1 :=
    BitVec.toNat_add_of_lt (show s.tick.toNat + 1 < 128 by omega)
  rw [hadd] at he
  exact (hw.expects_iff hv hc s rfl rfl).mpr ((waitsShape_again ht hl).trans he)

end

/-! ## The engine's moves -/

/-- What a move issues is what the grammar expects before it, followed by what the grammar expects after it. -/
theorem EngineMove.issues_expected (hv : R3Values s.platform) (hc : CountersInv s) (h : EngineMove s t) :
    ∃ new, t.world.trace = new.reverse ++ s.world.trace ∧ ∀ es, Expects t es → Expects s (new ++ es) := by
  cases h with
  | gsus hp => exact ⟨[.guardSuspend], rfl, fun es he => by simpa [Expects, hp] using he⟩
  | wakeOk hp a =>
    refine ⟨[.pinSet .low .ok, .delay 3000], ?_, fun es he => by simpa [Expects, hp] using he⟩
    simpa [State.answerSet, hv.tWakeUs] using a
  | wakeErr hp e a =>
    refine ⟨[.pinSet .low (.err e)], by simpa [State.answerSet] using a, fun es he => ?_⟩
    obtain rfl := (expects_gres (congrArg failurePath hp)).mp he
    simp [Expects, hp, traceShape]
  | reqOk hp a =>
    refine ⟨[.pinSet .high .ok, .delay 25], ?_, fun es he => ?_⟩
    · simpa [State.answerSet, hv.tReqUs] using a
    · simpa [Expects, hp, traceShape, waitsToCome] using he
  | reqErr hp e a =>
    refine ⟨[.pinSet .high (.err e)], by simpa [State.answerSet] using a, fun es he => ?_⟩
    obtain rfl := (expects_gres (congrArg failurePath hp)).mp he
    simp [Expects, hp, traceShape]
  | pollErr wt hw e a =>
    refine ⟨[.pinRead (.err e)], by simpa [State.answerRead] using a, fun es he => ?_⟩
    obtain rfl := (expects_gres hw.failurePath_eq).mp he
    exact hw.expects_err hv hc e
  | pollMatch wt hw a =>
    refine ⟨[.pinRead (.ok wt.target)], by simpa [State.answerRead] using a, fun es he => ?_⟩
    have hnext := hw.waitsShape_next he rfl rfl
    exact hw.expects_match hv hc hnext
  | pollAgain wt hw l a hl hb =>
    refine ⟨[.pinRead (.ok l), .delay 1], ?_, fun es he => hw.expects_again hv hc hl ?_⟩
    · simpa [State.answerRead, hv.pollPeriodUs] using a
    · exact (hw.expects_iff hv hc ((s.pinRead.delay _).setTick (s.tick + 1)) rfl rfl).mp he
  | pollBound wt hw l a hl hb =>
    refine ⟨[.pinRead (.ok l), .delay 1], ?_, fun es he => hw.expects_again hv hc hl ?_⟩
    · simpa [State.answerRead, hv.pollPeriodUs] using a
    · obtain rfl := (expects_gres hw.failurePath_eq).mp he
      have ht : (s.tick + 1).toNat = wt.bound + 1 := by
        have := toNat_add_one_le s.tick
        have := hc.tickLimit wt hw
        omega
      rw [ht]
      exact waitsShape_bound
  | storeLast hp hb =>
    refine ⟨[], rfl, fun es he => (expects_store hp).mpr ?_⟩
    obtain rfl := (expects_gres rfl).mp he
    have hbit : s.bit.toNat = 39 := by simpa [hv.nBits] using hb
    simp [hbit, cellWaits, waitsShape]
  | storeNext hp hb =>
    refine ⟨[], rfl, fun es he => (expects_store hp).mpr ?_⟩
    have hlt : s.bit.toNat < 39 := by
      have := hc.bitLimit
      rw [hv.nBits] at hb
      omega
    have hbit : (s.bit + 1).toNat = s.bit.toNat + 1 :=
      BitVec.toNat_add_of_lt (show s.bit.toNat + 1 < 64 by omega)
    have hcells : 39 - s.bit.toNat = 39 - (s.bit + 1).toNat + 1 := by omega
    rw [hcells, cellWaits_succ]
    exact he
  | gresOk hp | gresFailed hp => exact ⟨[.guardResume], rfl, fun es he => by simpa [Expects, hp] using he⟩
  | csumOk hp | csumFailed hp | dec hp | rchkOk hp | rchkFailed hp =>
    exact ⟨[], rfl, fun es he => by simpa [Expects, hp, failurePath, usesPin, stageReading] using he⟩
  | pub hp =>
    exact ⟨[], congrArg World.trace (publishOutcome_world s), fun es he => by simpa [Expects, hp] using he⟩

theorem EngineMove.keeps_traceInv (hi : TraceInv s) (h : EngineMove s t) : TraceInv t where
  values := h.platform_eq ▸ hi.values
  counters := h.keeps_counters hi.values hi.counters
  completes es he := by
    obtain ⟨new, ht, hnew⟩ := h.issues_expected hi.values hi.counters
    have : t.world.events = s.world.events ++ new := by simp [World.events, ht]
    rw [this, List.append_assoc]
    exact hi.completes _ (hnew es he)

end

theorem traceInv_reset {p : Config.Platform} (hp : R3Values p) (w : World) :
    TraceInv { State.reset with platform := p, world := w } :=
  ⟨hp, ⟨fun _ => rfl, by simp [State.reset], nofun⟩, by simp [Expects, State.reset]⟩

theorem TraceInv.accepted {s : State} (h : TraceInv s) (v : Variant) : TraceInv (acceptRead v s) :=
  ⟨h.values, ⟨fun _ => rfl, by simp [acceptRead], nofun⟩, fun _ he => he⟩

theorem step_keeps_traceInv (s t : State) (hi : TraceInv s) (h : step s = .next t) : TraceInv t :=
  step_keeps (P := TraceInv) s t h
    (outside := fun _ _ _ _ => ⟨hi.values, ⟨hi.counters.1, hi.counters.2, hi.counters.3⟩, hi.completes⟩)
    (accepted := fun _ v hu _ => hu.accepted v)
    (reset := fun _ hu _ => traceInv_reset hu.values _)
    (moved := fun _ hu hm => hm.keeps_traceInv hu)

/-- Settles O52: the run keeps `TraceInv`, and in IDLE with an outcome published nothing more is expected, so the trace
so far is complete. -/
theorem everyTraceHasTheShapeOfARead : Obligations.EveryTraceHasTheShapeOfARead := by
  intro p w n t hv h hp hd
  have hi := run_keeps step_keeps_traceInv n _ t (traceInv_reset hv w) h
  have hdone : Expects t [] := by simp [Expects, hp, hd]
  simpa using hi.completes [] hdone

end Machine
end Sys2Proof
end

