-- ==== Sys2Proof/Proofs/Encoding.lean ====
section
/-! The decoders against the encoder's numbers (30_encoding.md R60 to R64): a command word or a selector decodes to an
instruction exactly when it is that instruction's number. The byte form and the rows of the two tables follow. -/

namespace Sys2Proof
namespace Machine

/-! ## Reading the encoder's bytes back -/

/-- Every instruction has its row of spec/opcode_table.json. -/
theorem opcodeTable_statement : ∀ i : Instr, Laws.OpcodeTable.Statement i
  | .readA => Laws.OpcodeTable.readA
  | .readB => Laws.OpcodeTable.readB
  | .nop v => Laws.OpcodeTable.nop v
  | .gsus v => Laws.OpcodeTable.gsus v
  | .wake v => Laws.OpcodeTable.wake v
  | .req v => Laws.OpcodeTable.req v
  | .ackh v => Laws.OpcodeTable.ackh v
  | .ackl v => Laws.OpcodeTable.ackl v
  | .bith v => Laws.OpcodeTable.bith v
  | .bitl v => Laws.OpcodeTable.bitl v
  | .store v => Laws.OpcodeTable.store v
  | .gres v => Laws.OpcodeTable.gres v
  | .csum v => Laws.OpcodeTable.csum v
  | .decA => Laws.OpcodeTable.decA
  | .decB => Laws.OpcodeTable.decB
  | .rchk v => Laws.OpcodeTable.rchk v
  | .pub v => Laws.OpcodeTable.pub v

/-- The decoder reads every instruction back from its own bytes. -/
theorem decode_encode (i : Instr) : decode (encode i) = .ok i := by
  obtain ⟨_, _, h⟩ := opcodeTable_statement i
  exact h

/-- The number four bytes make, the least significant first (log entry 3). -/
theorem wordOfBytes_toNat (b0 b1 b2 b3 : Byte) :
    (wordOfBytes b0 b1 b2 b3).toNat = b0.toNat + 256 * (b1.toNat + 256 * (b2.toNat + 256 * b3.toNat)) := by
  have append {n : Nat} (hi : BitVec n) (lo : Byte) : (hi ++ lo).toNat = lo.toNat + 256 * hi.toNat := by
    rw [BitVec.toNat_append, ← Nat.shiftLeft_add_eq_or_of_lt lo.isLt, Nat.shiftLeft_eq]
    omega
  simp only [wordOfBytes, append]

/-- Taking a word's bytes and putting four bytes together are inverse. -/
theorem bytesOf_wordOfBytes (b0 b1 b2 b3 : Byte) : bytesOf 4 (wordOfBytes b0 b1 b2 b3).toNat = [b0, b1, b2, b3] := by
  simp only [bytesOf, List.cons.injEq, and_true, wordOfBytes_toNat]
  refine ⟨?_, ?_, ?_, ?_⟩ <;> bv_omega

theorem wordOfBytes_bytes (w : Word) :
    wordOfBytes (BitVec.ofNat 8 w.toNat) (BitVec.ofNat 8 (w.toNat / 256)) (BitVec.ofNat 8 (w.toNat / 256 / 256))
      (BitVec.ofNat 8 (w.toNat / 256 / 256 / 256)) = w := by
  apply BitVec.eq_of_toNat_eq
  simp only [wordOfBytes_toNat, BitVec.toNat_ofNat]
  omega

theorem decode_bytesOf_word (w : Word) : decode (bytesOf 4 w.toNat) = decodeCommand w :=
  congrArg decodeCommand (wordOfBytes_bytes w)

theorem decode_bytesOf_selector (sel : BitVec 5) : decode (bytesOf 1 sel.toNat) = decodeSelector sel := by
  have hlt : (BitVec.ofNat 8 sel.toNat).toNat < 32 := by bv_omega
  have hsel : (BitVec.ofNat 8 sel.toNat).setWidth 5 = sel := by bv_omega
  simp only [bytesOf, decode, hlt, if_true, hsel]

/-! ## What each decoder accepts -/

/-- A command word is reserved or one of the four words of R61. -/
theorem word_reserved_or_row (w : Word) : 4 ≤ w.toNat ∨ w = 0 ∨ w = 1 ∨ w = 2 ∨ w = 3 := by
  bv_omega

/-- A word with any of bits 31:2 set is reserved (R62). -/
theorem decodeCommand_of_reserved {w : Word} (h : 4 ≤ w.toNat) : decodeCommand w = .error .reservedCommand := by
  have hbits : w >>> 2 ≠ 0 := by bv_omega
  exact if_pos hbits

/-- A command word decodes to an instruction exactly when it is the instruction's number (R61). -/
theorem decodeCommand_eq_ok_iff {w : Word} {i : Instr} : decodeCommand w = .ok i ↔ encodeNumber i = (4, w.toNat) := by
  constructor
  · intro h
    obtain hr | rfl | rfl | rfl | rfl := word_reserved_or_row w
    · rw [decodeCommand_of_reserved hr] at h
      cases h
    all_goals
      cases h
      rfl
  · intro h
    rw [← decode_bytesOf_word, ← decode_encode i, encode, h]

/-- A selector's number: `ph` above the `var` bit (R64). -/
theorem selector_toNat (sel : BitVec 5) :
    sel.toNat = 2 * (sel >>> 1).toNat + (Variant.ofBool (sel.getLsbD 0)).bit.toNat := by
  revert sel
  decide

/-- The mask of R64's rows keeps `ph` and drops the `var` bit. -/
theorem and_phMask_toNat (sel : BitVec 5) : (sel &&& 0x1E).toNat = 2 * (sel >>> 1).toNat := by
  revert sel
  decide

/-- What a phase code selects: nothing for IDLE, a micro-operation whose number is the code above the `var` bit, nothing
from code 14 up (R64). -/
theorem decodePhase_cases (v : Variant) : ∀ n : Nat,
    (n = 0 ∧ decodePhase v n = .error .idleSelector) ∨
    (1 ≤ n ∧ n ≤ 13 ∧ ∃ i, decodePhase v n = .ok i ∧ encodeNumber i = (1, 2 * n + v.bit.toNat)) ∨
    (14 ≤ n ∧ decodePhase v n = .error .noSuchPhase)
  | 0 => .inl ⟨rfl, rfl⟩
  | 1 | 2 | 3 | 4 | 5 | 6 | 7 | 8 | 9 | 10 | 12 | 13 => .inr (.inl ⟨by decide, by decide, _, rfl, rfl⟩)
  | 11 => .inr (.inl ⟨by decide, by decide, by cases v <;> exact ⟨_, rfl, rfl⟩⟩)
  | n + 14 => .inr (.inr ⟨by omega, rfl⟩)

/-- A selector decodes to a micro-operation exactly when it is the micro-operation's number (R64). -/
theorem decodeSelector_eq_ok_iff {sel : BitVec 5} {i : Instr} :
    decodeSelector sel = .ok i ↔ encodeNumber i = (1, sel.toNat) := by
  constructor
  · intro h
    rw [selector_toNat]
    obtain ⟨_, k⟩ | ⟨_, _, j, k, hj⟩ | ⟨_, k⟩ :=
      decodePhase_cases (Variant.ofBool (sel.getLsbD 0)) (sel >>> 1).toNat
    all_goals cases h.symm.trans k
    exact hj
  · intro h
    rw [← decode_bytesOf_selector, ← decode_encode i, encode, h]

/-! ## The byte form -/

/-- Bytes that decode are the bytes of the instruction. -/
theorem eq_encode_of_decode {bs : List Byte} {i : Instr} (h : decode bs = .ok i) : bs = encode i := by
  unfold decode at h
  split at h
  next b =>
    split at h
    next hb =>
      rw [encode, decodeSelector_eq_ok_iff.mp h]
      simp only [bytesOf]
      congr 1
      bv_omega
    next => cases h
  next b0 b1 b2 b3 => rw [encode, decodeCommand_eq_ok_iff.mp h, bytesOf_wordOfBytes]
  next => cases h

/-- Settles O5: an instruction's bytes decode to it by its row of the opcode table (`decode_encode`), and bytes that
decode are rebuilt from the number of what they decode to (`eq_encode_of_decode`). -/
theorem decodeAndEncodeAgree : Obligations.DecodeAndEncodeAgree := fun _ i =>
  ⟨eq_encode_of_decode, fun h => h ▸ decode_encode i⟩

/-! ## The rows of the tables -/

/-- A row whose mask fixes the whole word: its match value is the number. -/
theorem decodeCommand_row_iff {w : Word} {i : Instr} (m : Word) (h : encodeNumber i = (4, m.toNat)) :
    decodeCommand w = .ok i ↔ w = m := by
  rw [decodeCommand_eq_ok_iff, h, Prod.mk.injEq, BitVec.toNat_eq]
  omega

/-- NOP's row: its mask leaves only `VSEL` open. -/
theorem and_nopMask_eq_zero_iff (w : Word) : w &&& 0xFFFFFFFD = 0 ↔ w = 0 ∨ w = 2 := by
  constructor
  · intro h
    have hw : w = w &&& 2 := calc
      w = w &&& (0xFFFFFFFD ||| 2) := BitVec.and_allOnes.symm
      _ = w &&& 0xFFFFFFFD ||| w &&& 2 := BitVec.and_or_distrib_left ..
      _ = w &&& 2 := by rw [h]; exact BitVec.zero_or
    have hle : w.toNat ≤ 2 := by
      rw [hw, BitVec.toNat_and]
      exact Nat.and_le_right
    obtain hr | rfl | rfl | rfl | rfl := word_reserved_or_row w
    · omega
    · exact .inl rfl
    · cases h
    · exact .inr rfl
    · cases h
  · rintro (rfl | rfl) <;> rfl

theorem decodeCommand_eq_nop_iff (w : Word) : (∃ v, decodeCommand w = .ok (.nop v)) ↔ w &&& 0xFFFFFFFD = 0 := by
  rw [and_nopMask_eq_zero_iff]
  constructor
  · rintro ⟨_ | _, h⟩
    · exact .inl ((decodeCommand_row_iff 0 rfl).mp h)
    · exact .inr ((decodeCommand_row_iff 2 rfl).mp h)
  · rintro (rfl | rfl)
    · exact ⟨.a, rfl⟩
    · exact ⟨.b, rfl⟩

/-- Only the words of R62 are rejected: the four others have a command. -/
theorem decodeCommand_eq_reserved_iff (w : Word) : decodeCommand w = .error .reservedCommand ↔ 4 ≤ w.toNat := by
  refine ⟨fun h => ?_, decodeCommand_of_reserved⟩
  obtain hr | rfl | rfl | rfl | rfl := word_reserved_or_row w
  · exact hr
  all_goals cases h

/-- Settles O2: READ.A and READ.B have one number each (`decodeCommand_row_iff`), and NOP's two numbers are what its
mask lets through. -/
theorem commandWordsDecodeToThreeCommands : Obligations.CommandWordsDecodeToThreeCommands := by
  intro w
  refine ⟨decodeCommand_row_iff 1 rfl, decodeCommand_row_iff 3 rfl, decodeCommand_eq_nop_iff w,
    decodeCommand_eq_reserved_iff w, fun i h => ?_⟩
  obtain hc | ⟨v, hc⟩ | hc | hc := decodeCommand_cases w <;> cases h.symm.trans hc
  · exact .inr (.inr ⟨v, rfl⟩)
  · exact .inl rfl
  · exact .inr (.inl rfl)

section
variable {sel : BitVec 5} {v : Variant} (hv : v = Variant.ofBool (sel.getLsbD 0))
include hv

/-- A row whose mask leaves the `var` bit open: the match value is the number without that bit. -/
theorem decodeSelector_row_iff {i : Instr} (m : BitVec 5) (h : encodeNumber i = (1, m.toNat + v.bit.toNat)) :
    decodeSelector sel = .ok i ↔ sel &&& 0x1E = m := by
  rw [decodeSelector_eq_ok_iff, h, Prod.mk.injEq, BitVec.toNat_eq, and_phMask_toNat, selector_toNat sel, hv]
  omega

end

/-- A row whose mask fixes the `var` bit too: DEC.A and DEC.B. -/
theorem decodeSelector_decRow_iff {sel : BitVec 5} {i : Instr} (m : BitVec 5) (h : encodeNumber i = (1, m.toNat)) :
    decodeSelector sel = .ok i ↔ sel &&& 0x1F = m := by
  have hmask : sel &&& 0x1F = sel := BitVec.and_allOnes
  rw [decodeSelector_eq_ok_iff, h, hmask, Prod.mk.injEq, BitVec.toNat_eq]
  omega

/-- Only code 0 is IDLE's. -/
theorem decodePhase_eq_idle_iff (v : Variant) (n : Nat) : decodePhase v n = .error .idleSelector ↔ n = 0 := by
  obtain ⟨h, k⟩ | ⟨_, _, i, k, _⟩ | ⟨_, k⟩ := decodePhase_cases v n
  · exact iff_of_true k h
  · exact iff_of_false (fun e => nomatch k.symm.trans e) (by omega)
  · exact iff_of_false (fun e => nomatch k.symm.trans e) (by omega)

/-- The codes with no phase are those from 14 up. -/
theorem decodePhase_eq_noSuchPhase_iff (v : Variant) (n : Nat) : decodePhase v n = .error .noSuchPhase ↔ 14 ≤ n := by
  obtain ⟨_, k⟩ | ⟨_, _, i, k, _⟩ | ⟨h, k⟩ := decodePhase_cases v n
  · exact iff_of_false (fun e => nomatch k.symm.trans e) (by omega)
  · exact iff_of_false (fun e => nomatch k.symm.trans e) (by omega)
  · exact iff_of_true k h

/-- Settles O3: each micro-operation's row is its number without the `var` bit (`decodeSelector_row_iff`), DEC's two
rows are its two numbers, and what is left are the codes of no micro-operation. -/
theorem selectorsDecodeByTheTable : Obligations.SelectorsDecodeByTheTable := by
  intro sel v hv
  refine ⟨?_, decodeSelector_row_iff hv 0x02 rfl, decodeSelector_row_iff hv 0x04 rfl,
    decodeSelector_row_iff hv 0x06 rfl, decodeSelector_row_iff hv 0x08 rfl, decodeSelector_row_iff hv 0x0A rfl,
    decodeSelector_row_iff hv 0x0C rfl, decodeSelector_row_iff hv 0x0E rfl, decodeSelector_row_iff hv 0x10 rfl,
    decodeSelector_row_iff hv 0x12 rfl, decodeSelector_row_iff hv 0x14 rfl, decodeSelector_decRow_iff 0x16 rfl,
    decodeSelector_decRow_iff 0x17 rfl, decodeSelector_row_iff hv 0x18 rfl, decodeSelector_row_iff hv 0x1A rfl,
    ?_⟩
  · rw [decodeSelector, decodePhase_eq_idle_iff, BitVec.toNat_eq, and_phMask_toNat]
    simp
  · rw [decodeSelector, decodePhase_eq_noSuchPhase_iff, BitVec.toNat_ushiftRight, Nat.shiftRight_eq_div_pow]
    omega

/-- Settles O4: the words are closed terms, and each is decoded. -/
theorem writtenOutWordsDecode : Obligations.WrittenOutWordsDecode := by
  unfold Obligations.WrittenOutWordsDecode
  decide

end Machine
end Sys2Proof
end

