-- ==== Sys2Proof/Proofs/WaitDone.lean ====
section
/-! `WAIT.DONE` as one turn of the host (30_encoding.md R77; 45_host_commands.md R150; log entry 6). -/

namespace Sys2Proof
namespace Machine

/-- `WAIT.DONE` records STATUS and schedules itself again, behind an engine turn, until `DONE` is set. -/
theorem step_waitDone {s : State} {rest : List Turn} (hs : s.world.sched = .host .waitDone :: rest) :
    step s = .next (s.setWorld { s.world with
      sched := if s.DONE then rest else .engine :: .host .waitDone :: rest
      seen := (1, statusWord s) :: s.world.seen }) :=
  (step_host hs).trans rfl

/-- Settles O21, by the two values of `DONE` in `step_waitDone`. -/
theorem waitDoneReadsStatusUntilDone : Obligations.WaitDoneReadsStatusUntilDone := by
  intro s rest hs
  rw [step_waitDone hs]
  constructor
  · intro hd
    rw [if_pos hd]
    rfl
  · intro hd
    rw [if_neg (Bool.eq_false_iff.mp hd)]
    rfl

end Machine
end Sys2Proof
end

