-- ==== Sys2Proof/Proofs/LevelWait.lean ====
section
/-! A whole level wait (40_level_wait.md R82): one iteration by the answer to its poll, the state after `k` non-matching
polls, and the run of the engine up to each of the three outcomes. -/

namespace Sys2Proof
namespace Machine

/-! ## Runs -/

/-- A run that goes on from where another ended. -/
theorem run_add_of_next {m : Nat} {s t : State} (h : core.run m s = .next t) (n : Nat) :
    core.run (m + n) s = core.run n t := by
  induction m generalizing s with
  | zero =>
    cases h
    rw [Nat.zero_add]
  | succ m ih =>
    rw [Nat.succ_add]
    cases hu : step s with
    | next u => rw [run_succ_of_next hu] at h ⊢; exact ih h
    | fault r => cases r
    | refused r => cases (run_succ_of_refused hu m).symm.trans h

/-- A run with one step more at its end. -/
theorem run_succ_of_run {n : Nat} {s t u : State} (h : core.run n s = .next t) (hu : step t = .next u) :
    core.run (n + 1) s = .next u :=
  (run_add_of_next h 1).trans (run_succ_of_next hu 0)

/-! ## One iteration -/

theorem otherLevel_ne (l : Level) : otherLevel l ≠ l := by cases l <;> decide

/-- An iteration of a wait whose poll fails. -/
theorem lwIter_of_err {wt : Wait} {s : State} {e : PinErr} (h : s.answerRead = .err e) :
    lwIter wt s = raise (.pinError e) s.pinRead := by
  simp [lwIter, h]

/-- An iteration whose poll does not match, with the bound not exceeded. -/
theorem lwIter_of_noMatch {wt : Wait} {s : State} (h : s.answerRead = .ok (otherLevel wt.target))
    (hb : (s.tick + 1).toNat ≤ wt.bound) :
    lwIter wt s = (s.pinRead.delay s.platform.pollPeriodUs).setTick (s.tick + 1) := by
  unfold lwIter
  rw [h]
  exact (if_neg (otherLevel_ne _)).trans (if_neg (Nat.not_lt.mpr hb))

/-- An iteration whose poll does not match and exceeds the bound. -/
theorem lwIter_of_exceeded {wt : Wait} {s : State} (h : s.answerRead = .ok (otherLevel wt.target))
    (hb : wt.bound < (s.tick + 1).toNat) :
    lwIter wt s = raise wt.failure ((s.pinRead.delay s.platform.pollPeriodUs).setTick (s.tick + 1)) := by
  unfold lwIter
  rw [h]
  exact (if_neg (otherLevel_ne _)).trans (if_pos hb)

/-! ## The wait of a phase -/

section
variable {p : Config.Platform} {ph : Phase} {wt : Wait}

theorem waitPhase_of_mem
    (h : (ph, wt) ∈ [(.ackh, ackhWait p), (.ackl, acklWait p), (.bith, bithWait p), (.bitl, bitlWait p)]) :
    WaitPhase p ph wt := by
  simp only [List.mem_cons, Prod.mk.injEq, List.not_mem_nil, or_false] at h
  obtain ⟨rfl, rfl⟩ | ⟨rfl, rfl⟩ | ⟨rfl, rfl⟩ | ⟨rfl, rfl⟩ := h
  · exact .ackh
  · exact .ackl
  · exact .bith
  · exact .bitl

/-- The counter `tick` holds one more than every bound the rules work for (10_state.md R12). -/
theorem WaitPhase.bound_lt (h : WaitPhase p ph wt) (hp : p.wf = true) : wt.bound < 127 := by
  obtain ⟨-, -, -, -, ⟨hah, hal, hbh, hbl⟩, -⟩ := wf_cases p hp
  cases h
  · exact Nat.lt_succ_of_le hah
  · exact Nat.lt_succ_of_le hal
  · exact Nat.lt_succ_of_le hbh
  · exact Nat.lt_succ_of_le hbl

/-- The acknowledgment's waits fail with NotPresent, the bit loop's with Timeout (60_exceptions.md R156, R157). -/
theorem WaitPhase.record_failure (h : WaitPhase p ph wt) (r : ErrReg) :
    r.record wt.failure = { r with tag := if ph = .ackh ∨ ph = .ackl then .notPresent else .timeout } := by
  cases h <;> rfl

/-- The engine alone, always answered, runs one iteration of the phase's wait in each step. -/
theorem WaitPhase.step_eq {s : State} (h : WaitPhase s.platform s.ph wt) (ha : EngineAlone s) (hl : Live s) :
    step s = .next (lwIter wt s) := by
  have hd := decodeSelector_selector s
  generalize hph : s.ph = ph at h
  rw [hph] at hd
  rw [step_of_engineAlone ha]
  cases h <;> exact (engineTurn_of_decode s _ hd).trans (runMicroOp_of_live _ hl)

end

/-! ## The polls that do not match -/

theorem afterPolls_tau (p : Config.Platform) (k : Nat) (w : World) :
    (afterPolls p k w).tau = w.tau + k * p.pollPeriodUs := by
  induction k with
  | zero => simp
  | succ k ih =>
    rw [afterPolls_succ_last, World.delay_tau, World.pinRead_tau, ih, Nat.succ_mul, Nat.add_assoc]

theorem afterPolls_reads (p : Config.Platform) (k : Nat) (w : World) :
    (afterPolls p k w).reads = w.reads + k := by
  induction k with
  | zero => rfl
  | succ k ih => rw [afterPolls_succ_last, World.delay_reads, World.pinRead_reads, ih, Nat.add_assoc]

/-- A wait that began in `s` with tick 0, after `k` polls that did not match. -/
def State.afterPolls (k : Nat) (s : State) : State :=
  { s with tick := BitVec.ofNat 7 k, world := Machine.afterPolls s.platform k s.world }

/-- The first `k` polls of a wait that begins in `s` see the other level. -/
def NoMatchBefore (wt : Wait) (k : Nat) (s : State) : Prop :=
  ∀ j, j < k → answerRead s.platform (afterPolls s.platform j s.world) = .ok (otherLevel wt.target)

section
variable {s : State} {wt : Wait} {k : Nat}

theorem State.afterPolls_zero (h : s.tick = 0) : s.afterPolls 0 = s := by
  cases s
  cases h
  rfl

/-- One poll more, with its delay and its tick. -/
theorem State.afterPolls_succ (k : Nat) (s : State) :
    s.afterPolls (k + 1) =
      (((s.afterPolls k).pinRead).delay s.platform.pollPeriodUs).setTick ((s.afterPolls k).tick + 1) := by
  simp only [State.afterPolls, afterPolls_succ_last, BitVec.ofNat_add]
  rfl

/-- While the bound is not passed `tick` counts the polls without wrapping. -/
theorem State.tick_afterPolls_succ (h : k < 127) : ((s.afterPolls k).tick + 1).toNat = k + 1 := by
  change (BitVec.ofNat 7 k + 1).toNat = k + 1
  bv_omega

variable (hw : WaitPhase s.platform s.ph wt) (ha : EngineAlone s) (hl : Live s)
include hw ha hl

/-- Wherever the wait stands, the next step is its next iteration. -/
theorem WaitPhase.step_afterPolls (k : Nat) : step (s.afterPolls k) = .next (lwIter wt (s.afterPolls k)) :=
  WaitPhase.step_eq (s := s.afterPolls k) hw ((afterPolls_sched ..).trans ha) ((afterPolls_answers ..).trans hl)

variable (hp : s.platform.wf = true) (ht : s.tick = 0)
include hp ht

/-- As many non-matching polls as the bound allows keep the wait going, one step each. -/
theorem WaitPhase.run_afterPolls (hk : k ≤ wt.bound) (h : NoMatchBefore wt k s) :
    core.run k s = .next (s.afterPolls k) := by
  induction k with
  | zero =>
    rw [State.afterPolls_zero ht]
    rfl
  | succ k ih =>
    have hb : ((s.afterPolls k).tick + 1).toNat ≤ wt.bound := by
      rwa [State.tick_afterPolls_succ (Nat.lt_trans hk (hw.bound_lt hp))]
    have hlast : lwIter wt (s.afterPolls k) = s.afterPolls (k + 1) :=
      (lwIter_of_noMatch (s := s.afterPolls k) (h k k.lt_succ_self) hb).trans (State.afterPolls_succ k s).symm
    have hrun := ih (Nat.le_of_succ_le hk) fun j hj => h j (Nat.lt_succ_of_lt hj)
    exact run_succ_of_run hrun (hlast ▸ hw.step_afterPolls ha hl k)

/-- The iteration after the non-matching polls is the run's last step. -/
theorem WaitPhase.run_succ (hk : k ≤ wt.bound) (h : NoMatchBefore wt k s) :
    core.run (k + 1) s = .next (lwIter wt (s.afterPolls k)) :=
  run_succ_of_run (hw.run_afterPolls ha hl hp ht hk h) (hw.step_afterPolls ha hl k)

/-! ## The three outcomes -/

/-- A match at poll `k` leaves `k` in `el` and moves to the next phase. -/
theorem WaitPhase.run_match (hk : k ≤ wt.bound) (h : NoMatchBefore wt k s)
    (hm : answerRead s.platform (afterPolls s.platform k s.world) = .ok wt.target) :
    core.run (k + 1) s = .next { s with
      el := BitVec.ofNat 7 k, tick := 0, ph := wt.next,
      world := (afterPolls s.platform k s.world).pinRead s.platform } := by
  have hlast := lwIter_of_match (s := s.afterPolls k) hm
  rw [hw.run_succ ha hl hp ht hk h, hlast]
  rfl

/-- One poll past the bound raises the wait's failure, after its delay. -/
theorem WaitPhase.run_exceeded (h : NoMatchBefore wt (wt.bound + 1) s) :
    core.run (wt.bound + 1) s = .next { s with
      tick := BitVec.ofNat 7 (wt.bound + 1), ph := .gres, err := s.err.record wt.failure,
      world := afterPolls s.platform (wt.bound + 1) s.world } := by
  have hb : wt.bound < ((s.afterPolls wt.bound).tick + 1).toNat := by
    rw [State.tick_afterPolls_succ (hw.bound_lt hp)]
    exact Nat.lt_succ_self _
  have hlast : lwIter wt (s.afterPolls wt.bound) = raise wt.failure (s.afterPolls (wt.bound + 1)) := by
    rw [State.afterPolls_succ]
    exact lwIter_of_exceeded (h _ (Nat.lt_succ_self _)) hb
  have hwithin : NoMatchBefore wt wt.bound s := fun j hj => h j (Nat.lt_succ_of_lt hj)
  rw [hw.run_succ ha hl hp ht le_rfl hwithin, hlast, ← hw.failurePath_eq]
  rfl

/-- A poll that fails raises its error at once, with no delay after it. -/
theorem WaitPhase.run_err (hk : k ≤ wt.bound) (h : NoMatchBefore wt k s) {e : PinErr}
    (he : answerRead s.platform (afterPolls s.platform k s.world) = .err e) :
    core.run (k + 1) s = .next { s with
      tick := BitVec.ofNat 7 k, ph := .gres, err := s.err.record (.pinError e),
      world := (afterPolls s.platform k s.world).pinRead s.platform } := by
  have hlast := lwIter_of_err (wt := wt) (s := s.afterPolls k) he
  rw [hw.run_succ ha hl hp ht hk h, hlast, ← hw.failurePath_eq]
  rfl

end

/-- Settles O49: the non-matching polls are an induction on their number (`WaitPhase.run_afterPolls`), and the iteration
after them decides between the three outcomes. -/
theorem wholeWaitHasThreeOutcomes : Obligations.WholeWaitHasThreeOutcomes := by
  rintro s p wt ph rfl hp hmem rfl ht ha hl
  have hw := waitPhase_of_mem hmem
  refine ⟨fun k hk hno hm => hw.run_match ha hl hp ht hk hno hm, fun hno => ?_,
    fun k e hk hno he => hw.run_err ha hl hp ht hk hno he,
    fun k => ⟨afterPolls_tau _ k _, afterPolls_reads _ k _⟩, R3Values.pollPeriodUs⟩
  rw [hw.run_exceeded ha hl hp ht fun j hj => hno j (Nat.le_of_lt_succ hj), hw.record_failure]

end Machine
end Sys2Proof
end

