-- ==== Sys2Proof/Proofs/ReadEnds.lean ====
section
/-! Every read ends (41_protocol_engine.md R101): the micro-operations a read can still take, a number that every move of
the engine lowers, and so a bound on the run to IDLE. -/

namespace Sys2Proof
namespace Machine

/-! ## The micro-operations still to come -/

/-- The most micro-operations one cell can take: the polls of its two waits, and STORE. -/
def cellSteps (p : Config.Platform) : Nat := p.toBitHigh + 1 + (p.toBitLow + 1) + 1

/-- The most micro-operations a read can take from the beginning of cell `bit` on, up to IDLE. -/
def stepsFromCell (p : Config.Platform) (bit : Nat) : Nat := 5 + cellSteps p + (39 - bit) * cellSteps p

/-- The most micro-operations a read can take from the beginning of a phase of cell `bit` on, up to IDLE. -/
def stepsFrom (p : Config.Platform) (bit : Nat) : Phase → Nat
  | .gsus => 3 + (p.toAckHigh + 1 + (p.toAckLow + 1 + stepsFromCell p bit))
  | .wake => 2 + (p.toAckHigh + 1 + (p.toAckLow + 1 + stepsFromCell p bit))
  | .req => 1 + (p.toAckHigh + 1 + (p.toAckLow + 1 + stepsFromCell p bit))
  | .ackh => p.toAckHigh + 1 + (p.toAckLow + 1 + stepsFromCell p bit)
  | .ackl => p.toAckLow + 1 + stepsFromCell p bit
  | .bith => stepsFromCell p bit
  | .bitl => p.toBitLow + 1 + (6 + (39 - bit) * cellSteps p)
  | .store => 6 + (39 - bit) * cellSteps p
  | .gres => 5
  | .csum => 4
  | .dec => 3
  | .rchk => 2
  | .pub => 1
  | .idle => 0

/-- The polls already made in the wait in progress; in the other phases `tick` means nothing. -/
def pollsMade (s : State) : Nat :=
  match s.ph with
  | .ackh | .ackl | .bith | .bitl => s.tick.toNat
  | _ => 0

/-- The most micro-operations the read in progress can still take. -/
def stepsLeft (s : State) : Nat := stepsFrom s.platform s.bit.toNat s.ph - pollsMade s

/-- With the values of R3: 3 micro-operations before the waits, 86 polls for each level of the acknowledgment, 128
micro-operations for each of the 40 cells, 5 from GRES on (R101). -/
theorem stepsLeft_le {s : State} (hv : R3Values s.platform) : stepsLeft s ≤ 5300 := by
  have hc : cellSteps s.platform = 128 := by simp [cellSteps, hv.toBitHigh, hv.toBitLow]
  have hle : stepsFrom s.platform s.bit.toNat s.ph ≤ 5300 := by
    cases s.ph <;> simp only [stepsFrom, stepsFromCell, hc, hv.toAckHigh, hv.toAckLow, hv.toBitLow] <;> omega
  exact (Nat.sub_le _ _).trans hle

/-- STORE of a cell that is not the last leads to the beginning of the next. -/
theorem stepsFrom_store_of_lt (p : Config.Platform) {bit : Nat} (h : bit < 39) :
    stepsFrom p bit .store = stepsFrom p (bit + 1) .bith + 1 := by
  have hcells : 39 - bit = 39 - (bit + 1) + 1 := by omega
  simp only [stepsFrom, stepsFromCell, hcells, Nat.succ_mul]
  omega

section
variable {p : Config.Platform} {wt : Wait}

/-- A wait takes at most one poll more than its bound, then comes the next phase. -/
theorem WaitPhase.stepsFrom_eq {ph : Phase} (h : WaitPhase p ph wt) (bit : Nat) :
    stepsFrom p bit ph = wt.bound + 1 + stepsFrom p bit wt.next := by
  cases h with
  | ackh | ackl | bitl => rfl
  | bith =>
    simp only [stepsFrom, stepsFromCell, cellSteps, bithWait]
    omega

/-- A wait that matches has more to come than one that fails. -/
theorem WaitPhase.five_lt_stepsFrom_next {ph : Phase} (h : WaitPhase p ph wt) (bit : Nat) :
    5 < stepsFrom p bit wt.next := by
  cases h <;> simp only [stepsFrom, stepsFromCell, cellSteps, ackhWait, acklWait, bithWait, bitlWait] <;> omega

theorem WaitPhase.pollsMade_eq {s : State} (h : WaitPhase p s.ph wt) : pollsMade s = s.tick.toNat := by
  unfold pollsMade
  obtain k | k | k | k := h.ph_cases <;> rw [k]

/-- In a wait within its bound the polls it can still make are to come, and then the next phase. -/
theorem WaitPhase.stepsLeft_eq {s : State} (h : WaitPhase s.platform s.ph wt) (ht : s.tick.toNat ≤ wt.bound) :
    stepsLeft s = wt.bound - s.tick.toNat + 1 + stepsFrom s.platform s.bit.toNat wt.next := by
  rw [stepsLeft, h.pollsMade_eq, h.stepsFrom_eq]
  omega

end

/-! ## The engine's moves -/

section
variable {s t : State}

theorem stepsLeft_of_gres (h : s.ph = .gres) : stepsLeft s = 5 := by simp [stepsLeft, h, stepsFrom, pollsMade]

/-- Every move of the engine leaves fewer micro-operations to come. -/
theorem EngineMove.stepsLeft_lt (hi : RegInv s) (h : EngineMove s t) : stepsLeft t < stepsLeft s := by
  have htick : ∀ {wt}, WaitPhase s.platform s.ph wt → s.tick.toNat ≤ wt.bound := fun hw =>
    hw.tickLimit_eq ▸ hi.tickLimit
  cases h with
  | pollErr wt hw | pollBound wt hw =>
    have := hw.five_lt_stepsFrom_next s.bit.toNat
    rw [hw.stepsLeft_eq (htick hw), stepsLeft_of_gres (by exact hw.failurePath_eq)]
    omega
  | pollMatch wt hw =>
    rw [hw.stepsLeft_eq (htick hw)]
    exact (Nat.sub_le _ _).trans_lt (Nat.lt_add_of_pos_left (Nat.succ_pos _))
  | pollAgain wt hw _ _ _ hb =>
    have hlt := hw.bound_lt hi.config
    have ht := htick hw
    have hsucc : (s.tick + 1).toNat = s.tick.toNat + 1 :=
      BitVec.toNat_add_of_lt (show s.tick.toNat + 1 < 128 by omega)
    rw [hw.stepsLeft_eq ht, WaitPhase.stepsLeft_eq (wt := wt) (by exact hw) (by exact hb)]
    simp only [State.setTick_tick, State.setTick_bit, State.delay_bit, State.pinRead_bit, State.setTick_platform,
      State.delay_platform, State.pinRead_platform]
    omega
  | storeNext hp hne =>
    obtain ⟨-, -, hn, -⟩ := wf_cases _ hi.config
    have hlt : s.bit.toNat < 39 := by
      have := hi.bitLimit
      omega
    have hsucc : (s.bit + 1).toNat = s.bit.toNat + 1 :=
      BitVec.toNat_add_of_lt (show s.bit.toNat + 1 < 64 by omega)
    have hstore : stepsLeft s = stepsFrom s.platform (s.bit.toNat + 1) .bith + 1 := by
      simp [stepsLeft, hp, pollsMade, stepsFrom_store_of_lt _ hlt]
    rw [hstore, ← hsucc]
    exact Nat.lt_succ_of_le (Nat.sub_le _ _)
  | wakeErr hp | reqErr hp =>
    rw [stepsLeft_of_gres (by simp [hp, failurePath, usesPin])]
    simp only [stepsLeft, hp, pollsMade, stepsFrom, stepsFromCell]
    omega
  | storeLast hp =>
    rw [stepsLeft_of_gres rfl]
    simp only [stepsLeft, hp, pollsMade, stepsFrom]
    omega
  | _ => simp_all [stepsLeft, stepsFrom, pollsMade, failurePath, usesPin, stageReading]

/-- Only PUB leads to IDLE, and it sets `DONE`. -/
theorem EngineMove.done_of_idle (h : EngineMove s t) (ht : t.ph = .idle) : t.DONE = true := by
  cases h with
  | pub => rfl
  | pollErr _ hw | pollBound _ hw => exact absurd ht (failurePath_ne_idle _)
  | pollMatch _ hw => exact absurd ht hw.next_ne_idle
  | pollAgain _ hw => exact absurd ht hw.ph_ne_idle
  | _ => simp_all [stageReading, failurePath, usesPin]

/-- With a read in progress the engine alone, always answered, makes a move in each step. -/
theorem exists_move_of_step (ha : EngineAlone s) (hl : Live s) (hp : s.ph ≠ .idle) :
    ∃ u, step s = .next u ∧ EngineMove s u := by
  obtain ⟨i, hd⟩ : ∃ i, decodeSelector (selector s) = .ok i := by
    rw [decodeSelector_selector]
    split
    · exact absurd ‹_› hp
    all_goals exact ⟨_, rfl⟩
  obtain ⟨u, hu⟩ := exec_next i s
  have hstep : step s = exec i s :=
    (step_of_engineAlone ha).trans ((engineTurn_of_decode s i hd).trans (runMicroOp_of_live i hl))
  exact ⟨u, hstep.trans hu, exec_move s u i hd hu⟩

/-- A read ends within the micro-operations it has left, under any configuration the rules work for. -/
theorem exists_run_to_idle (hi : RegInv s) (ha : EngineAlone s) (hl : Live s) (hp : s.ph ≠ .idle) {n : Nat}
    (hn : stepsLeft s ≤ n) :
    ∃ k t, k ≤ n ∧ core.run k s = .next t ∧ RegInv t ∧ t.ph = .idle ∧ t.DONE = true := by
  induction n generalizing s with
  | zero =>
    obtain ⟨u, -, hm⟩ := exists_move_of_step ha hl hp
    exact absurd ((hm.stepsLeft_lt hi).trans_le hn) (Nat.not_lt_zero _)
  | succ n ih =>
    obtain ⟨u, hu, hm⟩ := exists_move_of_step ha hl hp
    have hiu := hm.keeps_regInv hi
    by_cases hpu : u.ph = .idle
    · exact ⟨1, u, Nat.succ_pos n, run_succ_of_next hu 0, hiu, hpu, hm.done_of_idle hpu⟩
    · obtain ⟨es, hg, -⟩ := hm.gained
      have hnu : stepsLeft u ≤ n := Nat.le_of_lt_succ ((hm.stepsLeft_lt hi).trans_le hn)
      obtain ⟨k, t, hk, hrun, ht⟩ := ih hiu (hg.sched.trans ha) (hg.answers.trans hl) hpu hnu
      exact ⟨k + 1, t, Nat.succ_le_succ hk, (run_succ_of_next hu k).trans hrun, ht⟩

end

/-- Settles O50: the micro-operations left bound the run to IDLE (`exists_run_to_idle`), and with the values of R3 they
are at most 5300 (`stepsLeft_le`). -/
theorem everyReadEndsWithin5300Steps : Obligations.EveryReadEndsWithin5300Steps := by
  intro s hv hi ha hl hp
  obtain ⟨n, t, hn, hrun, hit, hpt, hdone⟩ := exists_run_to_idle hi ha hl hp (stepsLeft_le hv)
  exact ⟨n, t, hn, hrun, hpt, by simpa [hpt] using hit.busy, hdone, by rw [hit.guard, hpt, guardHeld]⟩

end Machine
end Sys2Proof
end

