-- ==== Sys2Proof/Proofs/MicroOperations.lean ====
section
/-! The micro-operations of the pin phases (41_protocol_engine.md R91 to R98): the whole next state of each for every answer
of the pin, and the events it issues. -/

namespace Sys2Proof
namespace Machine

section
variable {s : State}

/-- A `PinSet` adds its event, with the answer it got, and nothing else. -/
theorem gained_pinSet_of {a : SetAnswer} (h : s.answerSet = a) (l : Level) :
    Gained s.world [.pinSet l a] (s.pinSet l).world :=
  h ▸ gained_pinSet s.platform s.world l

/-- A `PinRead` adds its event, with the answer it got, and nothing else. -/
theorem gained_pinRead_of {a : ReadAnswer} (h : s.answerRead = a) : Gained s.world [.pinRead a] s.pinRead.world :=
  h ▸ gained_pinRead s.platform s.world

/-! ## Setting the pin -/

/-- A set that the pin accepts is held. -/
theorem setAndHold_of_ok (h : s.answerSet = .ok) (l : Level) (hold : Nat) (after : State → State) :
    setAndHold l hold after s = after ((s.pinSet l).delay hold) := by
  simp [setAndHold, h]

/-- A set that fails is raised at once. -/
theorem setAndHold_of_err {e : PinErr} (h : s.answerSet = .err e) (l : Level) (hold : Nat) (after : State → State) :
    setAndHold l hold after s = raise (.pinError e) (s.pinSet l) := by
  simp [setAndHold, h]

/-- An accepted and held set issues the two events of that. -/
theorem gained_setHeld (h : s.answerSet = .ok) (l : Level) (hold : Nat) :
    Gained s.world [.delay hold, .pinSet l .ok] ((s.pinSet l).delay hold).world :=
  (gained_pinSet_of h l).trans (gained_delay _ _)

/-- A failed set leaves by GRES with its error, and issues no delay. -/
theorem setAndHold_err_outcome (hp : usesPin s.ph = true) {e : PinErr} (h : s.answerSet = .err e) (l : Level) (hold : Nat)
    (after : State → State) :
    ∃ w, setAndHold l hold after s = { s with
        ph := .gres, err := { s.err with tag := .pinError, e := e }, world := w } ∧
      Gained s.world [.pinSet l (.err e)] w := by
  have hpath : failurePath s.ph = .gres := if_pos hp
  refine ⟨_, ?_, gained_pinSet_of h l⟩
  rw [setAndHold_of_err h, ← hpath]
  rfl

end

/-- Settles O23, by the two answers to WAKE's `PinSet`. -/
theorem wakePullsLowOrRaisesPinError : Obligations.WakePullsLowOrRaisesPinError := by
  intro s v hp
  constructor
  · intro h
    exact ⟨_, congrArg Host.Outcome.next (setAndHold_of_ok h ..), gained_setHeld h .low _, R3Values.tWakeUs⟩
  · intro e h
    obtain ⟨w, hs, hg⟩ := setAndHold_err_outcome (by simp [hp, usesPin]) h .low s.platform.tWakeUs (State.setPh .req)
    exact ⟨w, congrArg Host.Outcome.next hs, hg⟩

/-- Settles O24, by the two answers to REQ's `PinSet`; the direction's release is no event. -/
theorem reqReleasesOrRaisesPinError : Obligations.ReqReleasesOrRaisesPinError := by
  intro s v hp
  constructor
  · intro h
    exact ⟨_, congrArg Host.Outcome.next (setAndHold_of_ok h ..), gained_setHeld h .high _, R3Values.tReqUs⟩
  · intro e h
    obtain ⟨w, hs, hg⟩ := setAndHold_err_outcome (by simp [hp, usesPin]) h .high s.platform.tReqUs
      (fun t => (t.setTick 0).setPh .ackh)
    exact ⟨w, congrArg Host.Outcome.next hs, hg⟩

/-! ## One iteration of a wait -/

/-- What an instruction does as one iteration of the wait `wt` (40_level_wait.md R81, R83, R84): for each answer of the
pin, the whole next state and the events it gains. -/
structure Iterates (i : Instr) (wt : Wait) (s : State) : Prop where
  matched : s.answerRead = .ok wt.target →
    ∃ w, exec i s = .next { s with el := s.tick, tick := 0, ph := wt.next, world := w } ∧
      Gained s.world [.pinRead (.ok wt.target)] w
  again : s.answerRead = .ok (otherLevel wt.target) → s.tick.toNat + 1 ≤ wt.bound →
    ∃ w, exec i s = .next { s with tick := s.tick + 1, world := w } ∧
      Gained s.world [.delay s.platform.pollPeriodUs, .pinRead (.ok (otherLevel wt.target))] w
  exceeded : s.answerRead = .ok (otherLevel wt.target) → wt.bound < s.tick.toNat + 1 →
    ∃ w, exec i s = .next { s with tick := s.tick + 1, ph := .gres, err := s.err.record wt.failure, world := w } ∧
      Gained s.world [.delay s.platform.pollPeriodUs, .pinRead (.ok (otherLevel wt.target))] w
  failed : ∀ e, s.answerRead = .err e →
    ∃ w, exec i s = .next { s with ph := .gres, err := { s.err with tag := .pinError, e := e }, world := w } ∧
      Gained s.world [.pinRead (.err e)] w

/-- An instruction that is the wait's iteration does so, as long as `tick` can count one past the bound. -/
theorem WaitPhase.iterates {s : State} {wt : Wait} {i : Instr} (hw : WaitPhase s.platform s.ph wt)
    (he : exec i s = .next (lwIter wt s)) (hb : wt.bound ≤ 126) (ht : s.tick.toNat ≤ wt.bound) : Iterates i wt s := by
  have hsucc : (s.tick + 1).toNat = s.tick.toNat + 1 :=
    BitVec.toNat_add_of_lt (show s.tick.toNat + 1 < 128 by omega)
  constructor
  case matched =>
    intro h
    rw [he, lwIter_of_match h]
    exact ⟨_, rfl, gained_pinRead_of h⟩
  case again =>
    intro h hle
    rw [he, lwIter_of_noMatch h (hsucc ▸ hle)]
    exact ⟨_, rfl, (gained_pinRead_of h).trans (gained_delay _ _)⟩
  case exceeded =>
    intro h hlt
    rw [he, lwIter_of_exceeded h (hsucc ▸ hlt), ← hw.failurePath_eq]
    exact ⟨_, rfl, (gained_pinRead_of h).trans (gained_delay _ _)⟩
  case failed =>
    intro e h
    rw [he, lwIter_of_err h, ← hw.failurePath_eq]
    exact ⟨_, rfl, gained_pinRead_of h⟩

/-- Settles O25: ACKH is an iteration of its wait (`WaitPhase.iterates`). -/
theorem ackhWaitsForHigh : Obligations.AckhWaitsForHigh := by
  intro s v hp hb ht
  obtain ⟨hm, ha, hx, hf⟩ := WaitPhase.iterates (i := .ackh v) (hp ▸ .ackh) rfl hb ht
  exact ⟨hm, ha, hx, hf, fun hv => ⟨hv.toAckHigh, hv.pollPeriodUs⟩⟩

/-- Settles O26: ACKL is an iteration of its wait (`WaitPhase.iterates`). -/
theorem acklWaitsForLow : Obligations.AcklWaitsForLow := by
  intro s v hp hb ht
  obtain ⟨hm, ha, hx, hf⟩ := WaitPhase.iterates (i := .ackl v) (hp ▸ .ackl) rfl hb ht
  exact ⟨hm, ha, hx, hf, fun hv => ⟨hv.toAckLow, hv.pollPeriodUs⟩⟩

/-- Settles O27: BITH is an iteration of its wait (`WaitPhase.iterates`). -/
theorem bithWaitsForHigh : Obligations.BithWaitsForHigh := by
  intro s v hp hb ht
  obtain ⟨hm, ha, hx, hf⟩ := WaitPhase.iterates (i := .bith v) (hp ▸ .bith) rfl hb ht
  exact ⟨hm, ha, hx, hf, fun hv => ⟨hv.toBitHigh, hv.pollPeriodUs⟩⟩

/-- Settles O28: BITL is an iteration of its wait (`WaitPhase.iterates`). -/
theorem bitlWaitsForLow : Obligations.BitlWaitsForLow := by
  intro s v hp hb ht
  obtain ⟨hm, ha, hx, hf⟩ := WaitPhase.iterates (i := .bitl v) (hp ▸ .bitl) rfl hb ht
  exact ⟨hm, ha, hx, hf, fun hv => ⟨hv.toBitLow, hv.pollPeriodUs⟩⟩

end Machine
end Sys2Proof
end

