-- ==== Sys2Proof/Proofs/StoreCell.lean ====
section
/-! STORE and the cells of the frame (30_encoding.md R70; 41_protocol_engine.md R99). -/

namespace Sys2Proof
namespace Machine

/-- Replacing byte `i` of a frame changes that byte and no other. -/
theorem Frame.get_set (f : Frame) (v : Byte) {i j : Nat} (hi : i ≤ 4) (hj : j ≤ 4) :
    (f.set v i).get j = if j = i then v else f.get j := by
  interval_cases i <;> interval_cases j <;> rfl

/-- Writing one cell of a frame changes the bit that holds it and no other (R70). -/
theorem Frame.getLsbD_get_putCell (f : Frame) (v : Bool) {cell byte shift : Nat} (hc : cell ≤ 39) (hb : byte ≤ 4)
    (hs : shift ≤ 7) :
    ((f.putCell cell v).get byte).getLsbD shift =
      if byte = cell / 8 ∧ shift = 7 - cell % 8 then v else (f.get byte).getLsbD shift := by
  have hbyte : cellByte cell ≤ 4 := Nat.le_of_lt_succ (Nat.div_lt_of_lt_mul (Nat.lt_succ_of_le hc))
  have hshift : cellShift cell < 8 := Nat.lt_succ_of_le (Nat.sub_le _ _)
  rw [Frame.putCell, Frame.get_set f _ hbyte hb]
  change _ = if byte = cellByte cell ∧ shift = cellShift cell then v else _
  by_cases h : byte = cellByte cell
  · subst h
    simp [getLsbD_putBit _ _ _ v hshift (Nat.lt_succ_of_le hs)]
  · simp [h]

/-- Settles O29: the new frame is the old one with the cell `bit` written (`Frame.getLsbD_get_putCell`), and STORE's two
ways on are told apart by `bit`. -/
theorem storePlacesOneBit : Obligations.StorePlacesOneBit := by
  intro s v hn hb
  refine ⟨s.f.putCell s.bit.toNat (bitOfCount s.platform s.el.toNat),
    fun byte shift h4 h7 => s.f.getLsbD_get_putCell _ hb h4 h7, fun hlt => ?_, fun hlast => ?_,
    fun hv => ⟨hv.bitThreshold, hv.nBits⟩⟩
  · have hne : s.bit.toNat ≠ s.platform.nBits - 1 := by omega
    exact congrArg Host.Outcome.next (if_neg hne)
  · have heq : s.bit.toNat = s.platform.nBits - 1 := by omega
    exact congrArg Host.Outcome.next (if_pos heq)

end Machine
end Sys2Proof
end

