-- ==== Sys2Proof/Proofs/Validation.lean ====
section
/-! Validation and publication (42_checksum_validate.md R110 to R114): what CSUM compares, what PUB shows for each
outcome, and that whatever is published comes from a frame that stood up to validation as the outcome says. -/

namespace Sys2Proof
namespace Machine

/-- The sum of bytes 0 to 3 modulo 256, as a byte, is the checksum (R110). -/
theorem eq_checksum {p : Config.Platform} {f : Frame} {c : Byte} (h : p.frameBytes = 5)
    (hc : c.toNat = (f.b0.toNat + f.b1.toNat + f.b2.toNat + f.b3.toNat) % 256) : f.checksum p = c := by
  rw [checksum_of_frameBytes p f h, BitVec.toNat_eq, hc, BitVec.toNat_ofNat]

/-- A failure raised in CSUM or RCHK leads straight to publication (60_exceptions.md R161). -/
theorem raise_of_noPin {s : State} (h : usesPin s.ph = false) (x : Failure) :
    raise x s = { s with err := s.err.record x, ph := .pub } := by
  simp [raise, failurePath, h]

/-- Settles O31: the computed byte is the checksum (`eq_checksum`), and the two clauses are CSUM's two ways on. -/
theorem csumComparesTheModularSum : Obligations.CsumComparesTheModularSum := by
  intro s v c hp hn hc
  have hsum : s.f.checksum s.platform = c := eq_checksum hn hc
  have hsent : s.f.transmitted s.platform = s.f.b4 := transmitted_of_frameBytes _ _ hn
  constructor
  · intro h
    exact congrArg Host.Outcome.next (if_pos (hsum.trans (h.trans hsent.symm)))
  · intro h
    have hne : s.f.checksum s.platform ≠ s.f.transmitted s.platform := by rwa [hsum, hsent]
    have hraise := raise_of_noPin (s := s) (by simp [hp, usesPin]) (.checksumMismatch s.f.b4 c)
    refine congrArg Host.Outcome.next ((if_neg hne).trans ?_)
    rw [hsum, hsent, hraise]
    rfl

/-- Settles O35, by the six tags of the pending failure: each names the registers its branch of PUB writes. -/
theorem pubPublishesTheOutcome : Obligations.PubPublishesTheOutcome := by
  intro s v
  simp only [exec, execPub, publishOutcome]
  cases s.err.tag <;> simp

/-! ## What PUB shows -/

section
variable {s : State}

@[simp] theorem publishOutcome_f (s : State) : (publishOutcome s).f = s.f := by rw [publishOutcome_eq]
@[simp] theorem publishOutcome_var (s : State) : (publishOutcome s).var = s.var := by rw [publishOutcome_eq]

/-- With no failure pending the staged reading is shown. -/
theorem publishOutcome_reading (h : s.err.tag = .none) :
    (publishOutcome s).HUM = s.hum ∧ (publishOutcome s).TEMP = s.temp := by
  simp [publishOutcome, h]

/-- A checksum mismatch shows the computed byte above the transmitted one (10_state.md R28). -/
theorem publishOutcome_ERRINFO (h : s.err.tag = .checksumMismatch) :
    (publishOutcome s).ERRINFO = s.err.c ++ s.err.t := by
  simp [publishOutcome, h]

/-- A pin error shows its value (10_state.md R29). -/
theorem publishOutcome_PINERR (h : s.err.tag = .pinError) : (publishOutcome s).PINERR = s.err.e := by
  simp [publishOutcome, h]

end

/-! ## Where a published outcome came from -/

section
variable {s t : State}

/-- Before GRES and in validation no failure is pending. -/
theorem RegInv.noFailure (hi : RegInv s) (h : s.ph ≠ .gres ∧ s.ph ≠ .pub ∧ s.ph ≠ .idle) : s.err.tag = .none :=
  not_not.mp fun k => by simpa [h] using hi.pending k

/-- Before validation nothing is said of the data. -/
theorem dataInv_of_sampling (h : s.ph ≠ .dec ∧ s.ph ≠ .rchk ∧ s.ph ≠ .pub ∧ s.ph ≠ .idle) : DataInv s := by
  constructor <;> simp [h]

theorem WaitPhase.sampling {p : Config.Platform} {ph : Phase} {wt : Wait} (h : WaitPhase p ph wt) :
    (ph ≠ .dec ∧ ph ≠ .rchk ∧ ph ≠ .pub ∧ ph ≠ .idle) ∧
      (wt.next ≠ .dec ∧ wt.next ≠ .rchk ∧ wt.next ≠ .pub ∧ wt.next ≠ .idle) := by
  cases h <;> simp [ackhWait, acklWait, bithWait, bitlWait]

/-- A pending failure of the pin phases says nothing of the frame. -/
theorem frameOutcome_of_pinFailure {tag : ErrTag} (p : Config.Platform) (v : Variant) (f : Frame) (h : tag ≠ .none)
    (hv : tag ≠ .checksumMismatch ∧ tag ≠ .invalidData) : frameOutcome p tag v f := by
  cases tag <;> simp_all [frameOutcome]

/-- CSUM, DEC and RCHK each add what they found to what is known of the frame; PUB passes it on. -/
theorem EngineMove.keeps_dataInv (hi : RegInv s) (hd : DataInv s) (h : EngineMove s t) : DataInv t := by
  obtain ⟨-, -, -, hn, -⟩ := wf_cases _ hi.config
  have hsent : s.f.transmitted s.platform = s.f.b4 := transmitted_of_frameBytes _ _ hn
  cases h with
  | pollErr _ hw | pollBound _ hw => exact dataInv_of_sampling (by simp [hw.failurePath_eq])
  | pollMatch _ hw => exact dataInv_of_sampling hw.sampling.2
  | pollAgain _ hw => exact dataInv_of_sampling hw.sampling.1
  | gresFailed hp he =>
    obtain ⟨hc, hx⟩ := hi.resumeBeforeValidation hp
    have hf := frameOutcome_of_pinFailure s.platform s.var s.f he ⟨hc, hx⟩
    exact ⟨by simp, by simp, fun _ => ⟨hf, fun k => absurd k he, fun k => absurd k hc⟩, by simp⟩
  | csumOk hp hc => exact ⟨fun _ => hc.trans hsent, by simp, by simp, by simp⟩
  | csumFailed hp hc =>
    rw [hsent] at hc ⊢
    rw [raise_of_noPin (by simp [hp, usesPin])]
    exact ⟨by simp, by simp, fun _ => ⟨hc, by simp [ErrReg.record], fun _ => ⟨rfl, rfl⟩⟩, by simp⟩
  | dec hp => exact ⟨fun _ => hd.summed (.inl hp), fun _ => rfl, by simp [stageReading], by simp [stageReading]⟩
  | rchkOk hp hr =>
    have he : s.err.tag = .none := hi.noFailure (by simp [hp])
    have hdec := hd.decoded hp
    have hf : frameOutcome s.platform s.err.tag s.var s.f := by
      rw [he]
      exact ⟨hd.summed (.inr hp), by rwa [← hdec]⟩
    exact ⟨by simp, by simp, fun _ => ⟨hf, fun _ => hdec, fun k => by simp [he] at k⟩, by simp⟩
  | rchkFailed hp hr =>
    have hdec := hd.decoded hp
    have hf : frameOutcome s.platform .invalidData s.var s.f := ⟨hd.summed (.inr hp), by rwa [← hdec]⟩
    rw [raise_of_noPin (by simp [hp, usesPin])]
    exact ⟨by simp, by simp, fun _ => ⟨hf, by simp [ErrReg.record], by simp [ErrReg.record]⟩, by simp⟩
  | pub hp =>
    obtain ⟨hf, hread, hsum⟩ := hd.validated hp
    refine ⟨by simp, by simp, by simp, fun _ _ => ⟨?_, fun he => ?_, fun he => ?_⟩⟩
    · simpa [publishOutcome_ERR] using hf
    · have htag : s.err.tag = .none := (publishOutcome_ERR s).symm.trans he
      obtain ⟨hh, ht⟩ := publishOutcome_reading htag
      simpa [hh, ht] using hread htag
    · have htag : s.err.tag = .checksumMismatch := (publishOutcome_ERR s).symm.trans he
      obtain ⟨ht, hc⟩ := hsum htag
      simpa [ht, hc] using publishOutcome_ERRINFO htag
  | _ => exact dataInv_of_sampling (by simp_all [failurePath, usesPin])

end

/-- Settles O48: a move keeps what is known of the frame (`EngineMove.keeps_dataInv`), and an acceptance and a reset
leave no outcome published. -/
theorem everyStepKeepsReadingsFromValidFrames : Obligations.EveryStepKeepsReadingsFromValidFrames := fun s t hi hd h =>
  And.right <| step_keeps (P := fun u => RegInv u ∧ DataInv u) s t h
    (outside := fun _ _ _ _ => ⟨hi.setWorld _, hd.summed, hd.decoded, hd.validated, hd.published⟩)
    (accepted := fun _ v ⟨hu, _⟩ hp => ⟨hu.accepted hp v, dataInv_of_sampling (by simp [acceptRead])⟩)
    (reset := fun u ⟨hu, _⟩ _ => ⟨regInv_reset hu.config _, dataInv_reset u.platform u.world.newRead⟩)
    (moved := fun _ ⟨hu, hdu⟩ hm => ⟨hm.keeps_regInv hu, hm.keeps_dataInv hu hdu⟩)

end Machine
end Sys2Proof
end

