-- ==== Sys2Proof/Proofs/WholeRead.lean ====
section
/-! The whole read (42_checksum_validate.md R115): what the read in progress will come to, as a function of the state,
in the terms of the big-step functions. The engine's moves do not change it, so what it is after the acceptance of a
READ is what the outcome published shows. -/

namespace Sys2Proof
namespace Machine

/-! ## The rest of a read -/

/-- A part of a read that can fail, and what follows where it does not. -/
def andThen {α : Type} (r : Except Failure α × World) (k : α → World → Except Failure Frame × World) :
    Except Failure Frame × World :=
  match r with
  | (.error x, w) => (.error x, w)
  | (.ok a, w) => k a w

/-- The pin set and held, and what follows where it accepts (R91, R92). -/
def setThen (p : Config.Platform) (l : Level) (hold : Nat) (k : World → Except Failure Frame × World) (w : World) :
    Except Failure Frame × World :=
  match answerSet p w with
  | .err e => (.error (.pinError e), w.pinSet p l)
  | .ok => k ((w.pinSet p l).delay hold)

/-- Waits in a row, the first of them `tick` polls in, and what follows with the last one's count; with no wait to come
that count is `el`. -/
def waitsThen (p : Config.Platform) (k : Nat → World → Except Failure Frame × World) :
    List Wait → Nat → Nat → World → Except Failure Frame × World
  | [], _, el, w => k el w
  | wt :: ws, tick, _, w =>
    andThen (levelWaitFrom p wt (wt.bound + 1 - tick) tick w) fun el w' => waitsThen p k ws 0 el w'

/-- The waits up to the next STORE from a phase on, the one in progress first. -/
def waitsToStore (p : Config.Platform) : Phase → List Wait
  | .ackh => [ackhWait p, acklWait p, bithWait p, bitlWait p]
  | .ackl => [acklWait p, bithWait p, bitlWait p]
  | .bith => [bithWait p, bitlWait p]
  | .bitl => [bitlWait p]
  | _ => []

/-- A cell timed with the count `el` is stored and the cells after it are sampled (R96, R99). -/
def storeThen (s : State) (el : Nat) (w : World) : Except Failure Frame × World :=
  sampleCells s.platform (s.platform.nBits - 1 - s.bit.toNat) (s.bit.toNat + 1)
    (s.f.putCell s.bit.toNat (bitOfCount s.platform el)) w

/-- The sampling from a phase of the waits or STORE on. -/
def sampleFrom (s : State) (ph : Phase) (tick el : Nat) (w : World) : Except Failure Frame × World :=
  waitsThen s.platform (storeThen s) (waitsToStore s.platform ph) tick el w

/-- The sampling from REQ on. -/
def requestThenSample (s : State) : World → Except Failure Frame × World :=
  setThen s.platform .high s.platform.tReqUs (sampleFrom s .ackh 0 0)

/-- The sampling from WAKE on. -/
def wakeThenSample (s : State) : World → Except Failure Frame × World :=
  setThen s.platform .low s.platform.tWakeUs (requestThenSample s)

/-- What was sampled, when the frame register holds `f` and the failure pending or published is `tag`: the failures of
validation come after the sampling. -/
def sampled (tag : ErrTag) (e : PinErr) (f : Frame) : Except Failure Frame :=
  match tag with
  | .none => .ok f
  | .checksumMismatch => .ok f
  | .invalidData => .ok f
  | .notPresent => .error .notPresent
  | .timeout => .error .timeout
  | .pinError => .error (.pinError e)

/-- The guard is resumed whatever was sampled (R115). -/
def thenResume (r : Except Failure Frame × World) : Except Failure Frame × World := (r.1, r.2.resume)

/-- What the read in progress will have sampled, and the world it will leave; in IDLE, what the last read did. -/
def readOutcome (s : State) : Except Failure Frame × World :=
  match s.ph with
  | .gsus => thenResume (wakeThenSample s s.world.suspend)
  | .wake => thenResume (wakeThenSample s s.world)
  | .req => thenResume (requestThenSample s s.world)
  | .ackh | .ackl | .bith | .bitl | .store =>
    thenResume (sampleFrom s s.ph s.tick.toNat s.el.toNat s.world)
  | .gres => thenResume (sampled s.err.tag s.err.e s.f, s.world)
  | .csum | .dec | .rchk | .pub => (sampled s.err.tag s.err.e s.f, s.world)
  | .idle => (sampled s.ERR s.PINERR s.f, s.world)

/-! ## Its parts -/

section
variable {p : Config.Platform} {w : World}

theorem andThen_ok {α : Type} (a : α) (k : α → World → Except Failure Frame × World) :
    andThen (.ok a, w) k = k a w := rfl

theorem setThen_of_ok (h : answerSet p w = .ok) (l : Level) (hold : Nat) (k : World → Except Failure Frame × World) :
    setThen p l hold k w = k ((w.pinSet p l).delay hold) := by
  simp [setThen, h]

theorem setThen_of_err {e : PinErr} (h : answerSet p w = .err e) (l : Level) (hold : Nat)
    (k : World → Except Failure Frame × World) : setThen p l hold k w = (.error (.pinError e), w.pinSet p l) := by
  simp [setThen, h]

section
variable {wt : Wait} {tick fuel : Nat}

theorem levelWaitFrom_err {e : PinErr} (h : answerRead p w = .err e) :
    levelWaitFrom p wt (fuel + 1) tick w = (.error (.pinError e), w.pinRead p) := by
  simp [levelWaitFrom, h]

theorem levelWaitFrom_match (h : answerRead p w = .ok wt.target) :
    levelWaitFrom p wt (fuel + 1) tick w = (.ok tick, w.pinRead p) := by
  simp [levelWaitFrom, h]

theorem levelWaitFrom_again {l : Level} (h : answerRead p w = .ok l) (hl : l ≠ wt.target) :
    levelWaitFrom p wt (fuel + 1) tick w =
      levelWaitFrom p wt fuel (tick + 1) ((w.pinRead p).delay p.pollPeriodUs) := by
  simp [levelWaitFrom, h, hl]

end

end

/-! ## The big-step functions in these terms -/

section
variable (p : Config.Platform) (w : World)

/-- One cell more to sample is its two waits, its STORE and the cells after it. -/
theorem sampleCells_succ (n i : Nat) (f : Frame) :
    sampleCells p (n + 1) i f w = andThen (levelWait p (bithWait p) w) fun _ w1 =>
      andThen (levelWait p (bitlWait p) w1) fun k => sampleCells p n (i + 1) (f.putCell i (bitOfCount p k)) := by
  rw [sampleCells]
  obtain ⟨_ | _, w1⟩ := levelWait p (bithWait p) w
  · rfl
  · dsimp only [andThen]
    obtain ⟨_ | _, w2⟩ := levelWait p (bitlWait p) w1 <;> rfl

theorem acknowledgeAndSample_eq : acknowledgeAndSample p w =
    andThen (levelWait p (ackhWait p) w) fun _ w1 =>
      andThen (levelWait p (acklWait p) w1) fun _ => sampleCells p p.nBits 0 Frame.zero := by
  rw [acknowledgeAndSample]
  obtain ⟨_ | _, w1⟩ := levelWait p (ackhWait p) w
  · rfl
  · dsimp only [andThen]
    obtain ⟨_ | _, w2⟩ := levelWait p (acklWait p) w1 <;> rfl

theorem readRaw_eq : readRaw p w =
    setThen p .low p.tWakeUs (setThen p .high p.tReqUs (acknowledgeAndSample p)) w := by
  unfold readRaw setThen
  cases answerSet p w <;> rfl

theorem readAll_eq (v : Variant) : readAll p v w =
    ((readRaw p w.suspend).1.bind (validateFrame p v), (readRaw p w.suspend).2.resume) := by
  unfold readAll
  obtain ⟨_ | _, w1⟩ := readRaw p w.suspend <;> rfl

end

section
variable {s : State}

/-- Sampling from the beginning of BITH on is sampling this cell and those after it. -/
theorem sampleFrom_bith (h : s.bit.toNat < s.platform.nBits) (el : Nat) :
    sampleFrom s .bith 0 el = sampleCells s.platform (s.platform.nBits - s.bit.toNat) s.bit.toNat s.f := by
  have hcells : s.platform.nBits - s.bit.toNat = s.platform.nBits - 1 - s.bit.toNat + 1 := by omega
  funext w
  rw [hcells, sampleCells_succ]
  rfl

/-- A read that begins with a zero frame and cell 0 samples as the big-step function does. -/
theorem sampleFrom_ackh (hf : s.f = Frame.zero) (hb : s.bit = 0) (hn : 0 < s.platform.nBits) :
    sampleFrom s .ackh 0 0 = acknowledgeAndSample s.platform := by
  have hcells : sampleFrom s .bith 0 0 = sampleCells s.platform s.platform.nBits 0 Frame.zero := by
    rw [sampleFrom_bith (by rwa [hb]), hf, hb]
    rfl
  funext w
  rw [acknowledgeAndSample_eq, ← hcells]
  rfl

/-- From the acceptance of a READ the read comes to what `ReadRaw` gives, and the guard resumed. -/
theorem readOutcome_acceptRead (hn : 0 < s.platform.nBits) (v : Variant) :
    readOutcome (acceptRead v s) = thenResume (readRaw s.platform s.world.newRead.suspend) := by
  have hack : sampleFrom (acceptRead v s) .ackh 0 0 = acknowledgeAndSample s.platform :=
    sampleFrom_ackh (s := acceptRead v s) rfl rfl hn
  rw [readRaw_eq, ← hack]
  rfl

end

/-! ## The engine's moves -/

/-- The phases of the waits and STORE. -/
def samplingPhases : List Phase := [.ackh, .ackl, .bith, .bitl, .store]

theorem readOutcome_of_sampling {s : State} (h : s.ph ∈ samplingPhases) :
    readOutcome s = thenResume (sampleFrom s s.ph s.tick.toNat s.el.toNat s.world) := by
  simp only [samplingPhases, List.mem_cons, List.not_mem_nil, or_false] at h
  unfold readOutcome
  obtain k | k | k | k | k := h <;> rw [k]

theorem readOutcome_of_store {s : State} (h : s.ph = .store) :
    readOutcome s = thenResume (storeThen s s.el.toNat s.world) := by
  rw [readOutcome_of_sampling (by simp [h, samplingPhases]), h]
  rfl

/-- Where BITH begins, this cell and those after it are to be sampled. -/
theorem readOutcome_of_bith {s : State} (h : s.ph = .bith) (ht : s.tick = 0) (hb : s.bit.toNat < s.platform.nBits) :
    readOutcome s = thenResume
      (sampleCells s.platform (s.platform.nBits - s.bit.toNat) s.bit.toNat s.f s.world) := by
  rw [readOutcome_of_sampling (by simp [h, samplingPhases]), h, ht, ← sampleFrom_bith hb s.el.toNat]
  rfl

theorem readOutcome_of_gres {s : State} (h : s.ph = .gres) :
    readOutcome s = thenResume (sampled s.err.tag s.err.e s.f, s.world) := by
  simp [readOutcome, h]

section
variable {p : Config.Platform} {ph : Phase} {wt : Wait} (h : WaitPhase p ph wt)
include h

theorem WaitPhase.mem_samplingPhases : ph ∈ samplingPhases ∧ wt.next ∈ samplingPhases := by
  cases h <;> simp [samplingPhases, ackhWait, acklWait, bithWait, bitlWait]

theorem WaitPhase.waitsToStore_eq : waitsToStore p ph = wt :: waitsToStore p wt.next := by
  cases h <;> rfl

/-- A wait's own failure is one that keeps the frame from being sampled. -/
theorem WaitPhase.sampled_failure (r : ErrReg) (f : Frame) :
    sampled (r.record wt.failure).tag (r.record wt.failure).e f = .error wt.failure := by
  cases h <;> rfl

end

section
variable {s t : State} {wt : Wait}

/-- In a wait, that wait comes first, `tick` polls in, and then what the phase it leads to begins. -/
theorem WaitPhase.readOutcome_eq (hw : WaitPhase s.platform s.ph wt) :
    readOutcome s = thenResume (andThen
      (levelWaitFrom s.platform wt (wt.bound + 1 - s.tick.toNat) s.tick.toNat s.world)
      (sampleFrom s wt.next 0)) := by
  rw [readOutcome_of_sampling hw.mem_samplingPhases.1, sampleFrom, hw.waitsToStore_eq]
  rfl

/-- The read comes to the same before and after a move. -/
theorem EngineMove.readOutcome_eq (hi : RegInv s) (h : EngineMove s t) : readOutcome t = readOutcome s := by
  have hfuel : ∀ {wt}, WaitPhase s.platform s.ph wt →
      wt.bound + 1 - s.tick.toNat = wt.bound - s.tick.toNat + 1 := fun hw =>
    Nat.succ_sub (hw.tickLimit_eq ▸ hi.tickLimit)
  have hsucc : ∀ {wt}, WaitPhase s.platform s.ph wt → (s.tick + 1).toNat = s.tick.toNat + 1 := fun hw => by
    have hb := hw.bound_lt hi.config
    have ht := hw.tickLimit_eq ▸ hi.tickLimit
    exact BitVec.toNat_add_of_lt (show s.tick.toNat + 1 < 128 by omega)
  cases h with
  | gsus hp => simp only [readOutcome, hp]; rfl
  | wakeOk hp a =>
    simp only [readOutcome, hp]
    exact congrArg thenResume (setThen_of_ok a ..).symm
  | wakeErr hp e a =>
    rw [readOutcome_of_gres (by simp [hp, failurePath, usesPin])]
    simp only [readOutcome, hp]
    exact congrArg thenResume (setThen_of_err a ..).symm
  | reqOk hp a =>
    simp only [readOutcome, hp]
    exact congrArg thenResume (setThen_of_ok a ..).symm
  | reqErr hp e a =>
    rw [readOutcome_of_gres (by simp [hp, failurePath, usesPin])]
    simp only [readOutcome, hp]
    exact congrArg thenResume (setThen_of_err a ..).symm
  | pollErr wt hw e a =>
    rw [hw.readOutcome_eq, hfuel hw, levelWaitFrom_err a]
    exact readOutcome_of_gres hw.failurePath_eq
  | pollMatch wt hw a =>
    rw [hw.readOutcome_eq, hfuel hw, levelWaitFrom_match a]
    exact readOutcome_of_sampling hw.mem_samplingPhases.2
  | pollAgain wt hw l a hl hb =>
    have ht := WaitPhase.readOutcome_eq (s := (s.pinRead.delay s.platform.pollPeriodUs).setTick (s.tick + 1)) hw
    rw [hw.readOutcome_eq, hfuel hw, levelWaitFrom_again a hl, ht, State.setTick_tick, hsucc hw,
      Nat.add_sub_add_right]
    rfl
  | pollBound wt hw l a hl hb =>
    have hspent : wt.bound - s.tick.toNat = 0 := by
      have := hsucc hw
      omega
    rw [hw.readOutcome_eq, hfuel hw, levelWaitFrom_again a hl, hspent, readOutcome_of_gres hw.failurePath_eq]
    exact congrArg (fun r => thenResume (r, _)) (hw.sampled_failure s.err s.f)
  | storeLast hp hb =>
    have hlast : s.platform.nBits - 1 - s.bit.toNat = 0 := by omega
    have he : s.err.tag = .none := hi.noFailure (by simp [hp])
    rw [readOutcome_of_store hp, storeThen, hlast, readOutcome_of_gres rfl]
    change thenResume (sampled s.err.tag _ _, _) = _
    rw [he]
    rfl
  | storeNext hp hb =>
    obtain ⟨-, -, hn, -⟩ := wf_cases _ hi.config
    have hlimit := hi.bitLimit
    have hbit : (s.bit + 1).toNat = s.bit.toNat + 1 :=
      BitVec.toNat_add_of_lt (show s.bit.toNat + 1 < 64 by omega)
    have hlt : (s.bit + 1).toNat < s.platform.nBits := by omega
    have hcells : s.platform.nBits - 1 - s.bit.toNat = s.platform.nBits - (s.bit + 1).toNat := by omega
    rw [readOutcome_of_store hp, storeThen, hcells, ← hbit]
    exact readOutcome_of_bith rfl rfl hlt
  | gresOk hp | gresFailed hp => simp only [readOutcome, hp]; rfl
  | csumFailed hp | rchkFailed hp =>
    have he : s.err.tag = .none := hi.noFailure (by simp [hp])
    rw [raise_of_noPin (by simp [hp, usesPin])]
    simp only [readOutcome, hp, he]
    rfl
  | csumOk hp | dec hp | rchkOk hp => simp only [readOutcome, hp]; rfl
  | pub hp =>
    simp only [readOutcome, hp, publishOutcome_ERR, publishOutcome_f, publishOutcome_world]
    cases he : s.err.tag with
    | pinError => simp [publishOutcome_PINERR he, sampled]
    | _ => rfl

/-- No move of the engine writes the variant. -/
theorem EngineMove.var_eq (h : EngineMove s t) : t.var = s.var := by
  cases h with
  | pub => exact publishOutcome_var s
  | _ => rfl

end

/-! ## What the outcome published shows -/

section
variable {p : Config.Platform} {v : Variant} {f : Frame} (hn : p.frameBytes = 5)
include hn

theorem validateFrame_of_valid (h : frameOutcome p .none v f) : validateFrame p v f = .ok (decodeFrame p v f) := by
  obtain ⟨hc, hr⟩ := h
  simp [validateFrame, transmitted_of_frameBytes p f hn, hc, hr]

theorem validateFrame_of_mismatch (h : frameOutcome p .checksumMismatch v f) :
    validateFrame p v f = .error (.checksumMismatch f.b4 (f.checksum p)) := by
  have hc : f.checksum p ≠ f.b4 := h
  simp [validateFrame, transmitted_of_frameBytes p f hn, hc]

theorem validateFrame_of_invalid (h : frameOutcome p .invalidData v f) :
    validateFrame p v f = .error .invalidData := by
  obtain ⟨hc, hr⟩ := h
  simp [validateFrame, transmitted_of_frameBytes p f hn, hc, hr]

end

/-- In IDLE, with an outcome published, the result registers show what validation makes of what was sampled. -/
theorem publishes_of_done {s : State} (hi : RegInv s) (hd : DataInv s) (hp : s.ph = .idle) (hdone : s.DONE = true) :
    publishes ((sampled s.ERR s.PINERR s.f).bind (validateFrame s.platform s.var)) s := by
  obtain ⟨-, -, -, hn, -⟩ := wf_cases _ hi.config
  obtain ⟨hf, hread, hsum⟩ := hd.published hp hdone
  have hblank : s.ERR ≠ .none → s.HUM = 0 ∧ s.TEMP = 0 := fun k =>
    (not_or.mp fun h => k (hi.reading h).2).imp not_not.mp not_not.mp
  have hinfo : s.ERR ≠ .checksumMismatch → s.ERRINFO = 0 := fun k => not_not.mp fun h => k (hi.errinfo h)
  have hpin : s.ERR ≠ .pinError → s.PINERR = 0 := fun k => not_not.mp fun h => k (hi.pinerr h)
  cases he : s.ERR with
  | none =>
    obtain ⟨hh, ht⟩ := Prod.mk.inj (hread he)
    have hv := validateFrame_of_valid hn (he ▸ hf)
    rw [sampled, Except.bind, hv]
    exact ⟨he, hh, ht, hinfo (by simp [he]), hpin (by simp [he])⟩
  | checksumMismatch =>
    obtain ⟨hh, ht⟩ := hblank (by simp [he])
    have hv := validateFrame_of_mismatch hn (he ▸ hf)
    rw [sampled, Except.bind, hv]
    exact ⟨he, hh, ht, hsum he, hpin (by simp [he])⟩
  | invalidData =>
    obtain ⟨hh, ht⟩ := hblank (by simp [he])
    have hv := validateFrame_of_invalid hn (he ▸ hf)
    rw [sampled, Except.bind, hv]
    exact ⟨he, hh, ht, hinfo (by simp [he]), hpin (by simp [he])⟩
  | pinError =>
    obtain ⟨hh, ht⟩ := hblank (by simp [he])
    exact ⟨he, hh, ht, hinfo (by simp [he]), rfl⟩
  | notPresent | timeout =>
    obtain ⟨hh, ht⟩ := hblank (by simp [he])
    exact ⟨he, hh, ht, hinfo (by simp [he]), hpin (by simp [he])⟩

/-! ## The run of a read -/

/-- A read of variant `v` under `p` that comes to `r`, the engine running alone and always answered; or, in IDLE, that
came to it. -/
structure ComesTo (p : Config.Platform) (v : Variant) (r : Except Failure Frame × World) (s : State) : Prop where
  alone : EngineAlone s
  live : Live s
  regs : RegInv s
  data : DataInv s
  platform : s.platform = p
  variant : s.var = v
  outcome : readOutcome s = r

section
variable {p : Config.Platform} {v : Variant} {r : Except Failure Frame × World} {s t : State}

theorem EngineMove.keeps_comesTo (h : EngineMove s t) (hs : ComesTo p v r s) : ComesTo p v r t :=
  have ⟨_, hg, _⟩ := h.gained
  ⟨hg.sched.trans hs.alone, hg.answers.trans hs.live, h.keeps_regInv hs.regs, h.keeps_dataInv hs.regs hs.data,
    h.platform_eq.trans hs.platform, h.var_eq.trans hs.variant, (h.readOutcome_eq hs.regs).trans hs.outcome⟩

/-- A step in IDLE does nothing, and in a read it is a move of the engine. -/
theorem step_keeps_comesTo (s t : State) (hs : ComesTo p v r s) (h : step s = .next t) : ComesTo p v r t := by
  by_cases hp : s.ph = .idle
  · have hstep := (step_of_engineAlone hs.alone).trans (engineTurn_idle s hp)
    cases hstep.symm.trans h
    exact hs
  · obtain ⟨u, hstep, hm⟩ := exists_move_of_step hs.alone hs.live hp
    cases hstep.symm.trans h
    exact hm.keeps_comesTo hs

end

/-- The state in which WAKE begins after an accepted READ. The register invariant holds here whatever the guard flag was
in IDLE, since GSUS writes it. -/
def State.guarded (v : Variant) (s : State) : State := State.setPh .wake { (acceptRead v s).suspend with g := true }

/-- GSUS is one micro-operation of the read. -/
theorem stepsLeft_guarded_lt (v : Variant) (s : State) : stepsLeft (s.guarded v) < stepsLeft (acceptRead v s) :=
  Nat.add_lt_add_right (Nat.lt_succ_self 2) _

section
variable {s : State} (v : Variant)

theorem step_acceptRead (ha : EngineAlone s) (hl : Live s) : step (acceptRead v s) = .next (s.guarded v) := by
  rw [step_of_engineAlone (s := acceptRead v s) ha, engineTurn_of_decode _ (.gsus v) (decodeSelector_selector _),
    runMicroOp_of_live _ (s := acceptRead v s) hl]
  rfl

variable (hp : s.platform.wf = true)
include hp

theorem regInv_guarded : RegInv (s.guarded v) := by
  have hshown : ShownInv (s.guarded v) := Blank.shownInv ⟨rfl, rfl, rfl, rfl, rfl, rfl, rfl⟩ nofun
  refine regInv_iff.mpr ⟨⟨hp, rfl, ?_, ?_, ?_, ?_, ?_⟩, hshown⟩ <;> simp [State.guarded, acceptRead]

/-- Once the guard is held the read comes to what `ReadRaw` gives. -/
theorem comesTo_guarded (ha : EngineAlone s) (hl : Live s) :
    ComesTo s.platform v (thenResume (readRaw s.platform s.world.newRead.suspend)) (s.guarded v) where
  alone := ha
  live := hl
  regs := regInv_guarded v hp
  data := dataInv_of_sampling (by simp [State.guarded])
  platform := rfl
  variant := rfl
  outcome := by
    obtain ⟨-, -, hn, -⟩ := wf_cases _ hp
    rw [← readOutcome_acceptRead (by omega) v]
    rfl

/-- From the acceptance of a READ the engine runs to IDLE, with what `ReadRaw` gives sampled, the world as it leaves it
and the guard resumed, and with what validation makes of it published. -/
theorem exists_run_of_read (ha : EngineAlone s) (hl : Live s) : ∃ (n : Nat) (t : State),
    (R3Values s.platform → n ≤ 5300) ∧ core.run n (acceptRead v s) = .next t ∧
    t.ph = .idle ∧ t.BUSY = false ∧ t.DONE = true ∧
    (sampled t.ERR t.PINERR t.f, t.world) = thenResume (readRaw s.platform s.world.newRead.suspend) ∧
    publishes ((sampled t.ERR t.PINERR t.f).bind (validateFrame s.platform v)) t := by
  have hs := comesTo_guarded v hp ha hl
  obtain ⟨n, t, hn, hrun, hi, ht, hdone⟩ := exists_run_to_idle hs.regs ha hl nofun le_rfl
  have hend := run_keeps step_keeps_comesTo n _ t hs hrun
  refine ⟨n + 1, t, fun hv => ?_, (run_succ_of_next (step_acceptRead v ha hl) n).trans hrun, ht, ?_, hdone, ?_, ?_⟩
  · exact (Nat.succ_le_succ hn).trans ((stepsLeft_guarded_lt v s).trans_le (stepsLeft_le (s := acceptRead v s) hv))
  · simpa [ht] using hi.busy
  · rw [← hend.outcome]
    simp [readOutcome, ht]
  · have hpub := publishes_of_done hi hend.data ht hdone
    rwa [hend.platform, hend.variant] at hpub

end

/-- Settles O51: what the run leaves is what `ReadRaw` and validation give (`exists_run_of_read`), and these two are the
whole read (`readAll_eq`). -/
theorem engineRefinesTheWholeRead : Obligations.EngineRefinesTheWholeRead := by
  intro s v hp _ ha hl
  obtain ⟨n, t, hn, hrun, ht, hb, hd, hend, hpub⟩ := exists_run_of_read v hp ha hl
  obtain ⟨hframe, hworld⟩ := Prod.mk.inj hend
  refine ⟨n, t, hn, hrun, ht, hb, hd, ?_, ?_⟩
  · rw [readAll_eq]
    exact hworld
  · rwa [readAll_eq, ← hframe]

end Machine
end Sys2Proof
end

