-- ==== Sys2Proof/Proofs/SpelledFrame.lean ====
section
/-! A frame spelled by the pin's answers is read back (42_checksum_validate.md R115, 30_encoding.md R67 to R70): each
wait uses up its answers and returns their count, and the cells so stored make the frame. -/

namespace Sys2Proof
namespace Machine

/-! ## The cells of a frame -/

/-- Storing one cell changes that cell and no other. -/
theorem Frame.cell_putCell (f : Frame) (v : Bool) {i j : Nat} (hi : i ≤ 39) (hj : j ≤ 39) :
    (f.putCell i v).cell j = if j = i then v else f.cell j := by
  have hbyte : cellByte j ≤ 4 := Nat.le_of_lt_succ (Nat.div_lt_of_lt_mul (Nat.lt_succ_of_le hj))
  have hplace : (cellByte j = i / 8 ∧ cellShift j = 7 - i % 8) ↔ j = i := by
    unfold cellByte cellShift
    omega
  have hshift : cellShift j ≤ 7 := Nat.sub_le _ _
  simp only [Frame.cell, Frame.getLsbD_get_putCell f v hi hbyte hshift, hplace]

/-- A frame is what its forty cells are. -/
theorem Frame.eq_of_cells {f g : Frame} (h : ∀ i, i < 40 → f.cell i = g.cell i) : f = g := by
  have hget : ∀ byte, byte ≤ 4 → f.get byte = g.get byte := by
    intro byte hb
    refine BitVec.eq_of_getLsbD_eq fun shift hs => ?_
    have hcell := h (8 * byte + (7 - shift)) (by omega)
    have hbyte : cellByte (8 * byte + (7 - shift)) = byte := by
      unfold cellByte
      omega
    have hshift : cellShift (8 * byte + (7 - shift)) = shift := by
      unfold cellShift
      omega
    simpa only [Frame.cell, hbyte, hshift] using hcell
  cases f
  cases g
  simp only [Frame.mk.injEq]
  exact ⟨hget 0 (by decide), hget 1 (by decide), hget 2 (by decide), hget 3 (by decide), hget 4 le_rfl⟩

/-! ## A wait whose answers are listed -/

/-- The environment has these answers listed for the next `PinSet`s and `PinRead`s. -/
def Listed (sets : List SetAnswer) (reads : List ReadAnswer) (w : World) : Prop :=
  w.oracle = .general sets reads

section
variable {p : Config.Platform} {w : World} {sets : List SetAnswer} {reads : List ReadAnswer}

theorem Listed.answerSet_ok (h : Listed (.ok :: sets) reads w) : answerSet p w = .ok := by
  have ho : w.oracle = .general (.ok :: sets) reads := h
  simp [answerSet, ho, SetAnswer.limit]

theorem Listed.pinSet (p : Config.Platform) (l : Level) (h : Listed (.ok :: sets) reads w) :
    Listed sets reads (w.pinSet p l) :=
  congrArg Oracle.dropSet h

theorem Listed.pinRead (p : Config.Platform) {a : ReadAnswer} (h : Listed sets (a :: reads) w) :
    Listed sets reads (w.pinRead p) :=
  congrArg Oracle.dropRead h

variable (hp : p.sameInstantPollsAgree = false)
include hp

theorem Listed.answerRead_ok {l : Level} (h : Listed sets (.ok l :: reads) w) : answerRead p w = .ok l := by
  have ho : w.oracle = .general sets (.ok l :: reads) := h
  rw [answerRead_of_oracle p w (.inl hp)]
  simp [oracleRead, ho, ReadAnswer.limit]

/-- A wait spelled by `k` non-matching answers and a matching one uses them up and counts them from where it stood. -/
theorem Listed.levelWaitFrom_ok {wt : Wait} {k fuel : Nat} (hk : k < fuel) (tick : Nat)
    (h : Listed sets (waitAnswers wt.target k ++ reads) w) :
    ∃ w', levelWaitFrom p wt fuel tick w = (.ok (tick + k), w') ∧ Listed sets reads w' := by
  induction k generalizing w fuel tick with
  | zero =>
    obtain ⟨fuel, rfl⟩ := Nat.exists_eq_add_of_lt hk
    exact ⟨_, levelWaitFrom_match (h.answerRead_ok hp), h.pinRead p⟩
  | succ k ih =>
    obtain ⟨fuel, rfl⟩ := Nat.exists_eq_add_of_lt hk
    have hnext : Listed sets (waitAnswers wt.target k ++ reads) ((w.pinRead p).delay p.pollPeriodUs) := h.pinRead p
    obtain ⟨w', hw, hl⟩ := ih (fuel := k + 1 + fuel) (by omega) (tick + 1) hnext
    refine ⟨w', ?_, hl⟩
    rw [levelWaitFrom_again (h.answerRead_ok hp) (otherLevel_ne _), hw, Nat.add_right_comm, Nat.add_assoc]

theorem Listed.levelWait_ok {wt : Wait} {k : Nat} (hk : k ≤ wt.bound)
    (h : Listed sets (waitAnswers wt.target k ++ reads) w) :
    ∃ w', levelWait p wt w = (.ok k, w') ∧ Listed sets reads w' := by
  obtain ⟨w', hw, hl⟩ := h.levelWaitFrom_ok hp (Nat.lt_succ_of_le hk) 0
  exact ⟨w', hw.trans (by rw [Nat.zero_add]), hl⟩

/-! ## The cells and the whole spelling -/

/-- Cells spelled by counts within the bounds are stored one after another, and with those before them make the
frame. -/
theorem Listed.sampleCells_ok {gap count : Nat → Nat} {f g : Frame} {n i : Nat} (hi : i + n = 40)
    (hcounts : ∀ j, j < 40 → gap j ≤ p.toBitHigh ∧ count j ≤ p.toBitLow ∧ bitOfCount p (count j) = f.cell j)
    (hg : ∀ j, j < i → g.cell j = f.cell j) (h : Listed sets (cellAnswers gap count n i ++ reads) w) :
    ∃ w', sampleCells p n i g w = (.ok f, w') ∧ Listed sets reads w' := by
  induction n generalizing w i g with
  | zero =>
    obtain rfl : g = f := Frame.eq_of_cells (hi ▸ hg)
    exact ⟨w, rfl, h⟩
  | succ n ih =>
    obtain ⟨hgap, hcount, hbit⟩ := hcounts i (by omega)
    have hstored : ∀ j, j < i + 1 → (g.putCell i (bitOfCount p (count i))).cell j = f.cell j := by
      intro j hj
      rw [Frame.cell_putCell g _ (by omega) (by omega)]
      split
      · next hji => rw [hbit, hji]
      · exact hg j (by omega)
    rw [cellAnswers, List.append_assoc, List.append_assoc] at h
    obtain ⟨w1, hw1, h1⟩ := Listed.levelWait_ok (wt := bithWait p) hp hgap h
    obtain ⟨w2, hw2, h2⟩ := Listed.levelWait_ok (wt := bitlWait p) hp hcount h1
    rw [sampleCells_succ, hw1, andThen_ok, hw2, andThen_ok]
    exact ih (by omega) hstored h2

/-- A spelled frame is what `ReadRaw` samples, and its answers are used up. -/
theorem Listed.readRaw_ok (hn : p.nBits = 40) {ackHigh ackLow : Nat} {gap count : Nat → Nat} {f : Frame}
    (hah : ackHigh ≤ p.toAckHigh) (hal : ackLow ≤ p.toAckLow)
    (hcounts : ∀ j, j < 40 → gap j ≤ p.toBitHigh ∧ count j ≤ p.toBitLow ∧ bitOfCount p (count j) = f.cell j)
    (h : Listed (.ok :: .ok :: sets) (spelling p ackHigh ackLow gap count ++ reads) w) :
    ∃ w', readRaw p w = (.ok f, w') ∧ Listed sets reads w' := by
  have h1 : Listed (.ok :: sets) _ ((w.pinSet p .low).delay p.tWakeUs) := h.pinSet p .low
  have h2 : Listed sets _ ((((w.pinSet p .low).delay p.tWakeUs).pinSet p .high).delay p.tReqUs) := h1.pinSet p .high
  rw [spelling, List.append_assoc, List.append_assoc] at h2
  obtain ⟨w3, hw3, h3⟩ := Listed.levelWait_ok (wt := ackhWait p) hp hah h2
  obtain ⟨w4, hw4, h4⟩ := Listed.levelWait_ok (wt := acklWait p) hp hal h3
  obtain ⟨w5, hw5, h5⟩ := h4.sampleCells_ok hp (f := f) (g := Frame.zero) (by omega) hcounts
    fun _ hj => absurd hj (Nat.not_lt_zero _)
  refine ⟨w5, ?_, h5⟩
  rw [readRaw_eq, setThen_of_ok h.answerSet_ok, setThen_of_ok h1.answerSet_ok, acknowledgeAndSample_eq, hw3,
    andThen_ok, hw4, andThen_ok, hw5]

end

/-- What was sampled is what the frame register holds. -/
theorem eq_of_sampled {tag : ErrTag} {e : PinErr} {f g : Frame} (h : sampled tag e f = .ok g) : f = g := by
  cases tag <;> cases h <;> rfl

/-- Settles O53: `ReadRaw` gives the spelled frame (`Listed.readRaw_ok`), and the engine's run what it gives
(`exists_run_of_read`). -/
theorem spelledFrameIsReadBack : Obligations.SpelledFrameIsReadBack := by
  intro s v f ackHigh ackLow gap count reads hwf _ ha hl hagree hah hal hcounts ho
  obtain ⟨-, -, hn, -⟩ := wf_cases _ hwf
  have hlisted : Listed [.ok, .ok] _ s.world.newRead.suspend := ho
  obtain ⟨w, hraw, hrest⟩ := hlisted.readRaw_ok hagree hn hah hal hcounts
  obtain ⟨n, t, hsteps, hrun, ht, -, hd, hend, hpub⟩ := exists_run_of_read v hwf ha hl
  rw [hraw] at hend
  obtain ⟨hframe, hworld⟩ := Prod.mk.inj hend
  rw [hframe] at hpub
  exact ⟨n, t, hsteps, hrun, ht, hd, eq_of_sampled hframe, hpub, hworld ▸ hrest⟩

end Machine
end Sys2Proof
end

