-- ==== Sys2Proof/Proofs/FloatValues.lean ====
section
/-! The values of the decoders' numbers (43_variant_decoders.md R126 to R128), in units of 2^-149: of a packed pattern,
of a natural number, and of a quotient, which is within half a unit of its last place. -/

namespace Sys2Proof
namespace Machine

/-- Two patterns that denote numbers compare as the numbers do (R130). -/
theorem f32Lt_iff {a b : Word} (ha : f32IsNaN a = false) (hb : f32IsNaN b = false) :
    f32Lt a b = true ↔ f32Value a < f32Value b := by
  simp [f32Lt, ha, hb]

/-- The pattern denotes the number `m` of units of 2^-149. -/
def Denotes (b : Word) (m : Nat) : Prop := f32IsNaN b = false ∧ f32Value b = m

theorem denotes_zero : Denotes 0 0 := ⟨by decide, by decide⟩

/-- A packed pattern denotes its significand scaled by its exponent. -/
theorem denotes_f32Pack {x q : Nat} (hx : 1 ≤ x) (hx' : x ≤ 254) (hq : 2 ^ 23 ≤ q) (hq' : q < 2 ^ 24) :
    Denotes (f32Pack x q) (q * 2 ^ (x - 1)) := by
  have hnat : (f32Pack x q).toNat = x * 2 ^ 23 + (q - 2 ^ 23) := by
    rw [f32Pack, BitVec.toNat_ofNat]
    exact Nat.mod_eq_of_lt (by omega)
  have hexp : f32Exponent (f32Pack x q) = x := by
    rw [f32Exponent, hnat]
    omega
  have hfrac : f32Fraction (f32Pack x q) = q - 2 ^ 23 := by
    rw [f32Fraction, hnat]
    omega
  have hsign : f32Sign (f32Pack x q) = false := by
    rw [f32Sign, ← BitVec.testBit_toNat, hnat]
    exact Nat.testBit_lt_two_pow (by omega)
  have hmag : f32Magnitude (f32Pack x q) = q * 2 ^ (x - 1) := by
    rw [f32Magnitude, hexp, hfrac, if_neg (by omega), Nat.add_sub_cancel' hq]
  constructor
  · rw [f32IsNaN, hexp, beq_false_of_ne (by omega), Bool.false_and]
  · rw [f32Value, hsign, hmag]
    rfl

/-- A natural number below 2^24 is denoted exactly (R127). -/
theorem denotes_f32FromNat {n : Nat} (hn : n < 2 ^ 24) : Denotes (f32FromNat n) (n * 2 ^ 149) := by
  obtain rfl | hpos := Nat.eq_zero_or_pos n
  · exact denotes_zero
  · have hne : n ≠ 0 := hpos.ne'
    have hlog : Nat.log2 n < 24 := (Nat.log2_lt hne).mpr hn
    have hlo : 2 ^ Nat.log2 n ≤ n := Nat.log2_self_le hne
    have hhi : n < 2 ^ (Nat.log2 n + 1) := Nat.lt_log2_self
    have hsig : 2 ^ Nat.log2 n * 2 ^ (23 - Nat.log2 n) = 2 ^ 23 := by
      rw [← Nat.pow_add, Nat.add_sub_cancel' (Nat.le_of_lt_succ hlog)]
    have hq : 2 ^ 23 ≤ n * 2 ^ (23 - Nat.log2 n) := hsig ▸ Nat.mul_le_mul_right _ hlo
    have hq' : n * 2 ^ (23 - Nat.log2 n) < 2 ^ 24 := by
      calc n * 2 ^ (23 - Nat.log2 n) < 2 ^ (Nat.log2 n + 1) * 2 ^ (23 - Nat.log2 n) :=
            Nat.mul_lt_mul_of_pos_right hhi (Nat.two_pow_pos _)
        _ = 2 ^ 24 := by rw [Nat.pow_succ, Nat.mul_right_comm, hsig, ← Nat.pow_succ]
    have hden := denotes_f32Pack (x := Nat.log2 n + 127) (by omega) (by omega) hq hq'
    have hscale : n * 2 ^ (23 - Nat.log2 n) * 2 ^ (Nat.log2 n + 127 - 1) = n * 2 ^ 149 := by
      rw [Nat.mul_assoc, ← Nat.pow_add]
      congr 2
      omega
    rw [f32FromNat, if_neg hne]
    exact hscale ▸ hden

/-! ## Quotients -/

/-- The rounded quotient is within half a unit of the exact one. -/
theorem roundNearestEven_div {d : Nat} (hd : 0 < d) (m : Nat) :
    2 * (d * roundNearestEven d (m / d) (m % d)) ≤ 2 * m + d ∧
      2 * m ≤ 2 * (d * roundNearestEven d (m / d) (m % d)) + d := by
  have hm := Nat.div_add_mod m d
  have hr := Nat.mod_lt m hd
  unfold roundNearestEven
  split
  · rw [Nat.mul_succ]
    omega
  · omega

/-- The scale of a quotient: the greatest within the bound whose divisor the dividend reaches. -/
theorem divExponent_spec {d n m : Nat} (h : d ≤ 2 ^ 32 * n) (hm : 2 ^ 32 * n < d * 2 ^ (m + 1)) :
    divExponent d n m ≤ m ∧ d * 2 ^ divExponent d n m ≤ 2 ^ 32 * n ∧ 2 ^ 32 * n < d * 2 ^ (divExponent d n m + 1) := by
  induction m with
  | zero => exact ⟨le_rfl, by simpa [divExponent] using h, hm⟩
  | succ m ih =>
    unfold divExponent
    split
    · next hle => exact ⟨le_rfl, hle, hm⟩
    · next hlt =>
      obtain ⟨hk, hlo, hhi⟩ := ih (Nat.lt_of_not_le hlt)
      exact ⟨Nat.le_succ_of_le hk, hlo, hhi⟩

theorem roundNearestEven_bounds (d q r : Nat) : q ≤ roundNearestEven d q r ∧ roundNearestEven d q r ≤ q + 1 := by
  unfold roundNearestEven
  split
  · exact ⟨Nat.le_succ q, le_rfl⟩
  · exact ⟨le_rfl, Nat.le_succ q⟩

/-- The dividend at the scale `k` of the quotient: the quotient has 24 bits. -/
theorem scaled_dividend {d n k : Nat} (hk : k ≤ 55) (hlo : d * 2 ^ k ≤ 2 ^ 32 * n)
    (hhi : 2 ^ 32 * n < d * 2 ^ (k + 1)) :
    2 ^ 23 * d ≤ n * 2 ^ (55 - k) ∧ n * 2 ^ (55 - k) < 2 ^ 24 * d := by
  have hscale : n * 2 ^ (55 - k) * 2 ^ k = 2 ^ 32 * n * 2 ^ 23 := by
    rw [Nat.mul_assoc, ← Nat.pow_add, Nat.sub_add_cancel hk]
    ring
  constructor
  · refine Nat.le_of_mul_le_mul_right ?_ (Nat.two_pow_pos k)
    calc 2 ^ 23 * d * 2 ^ k = d * 2 ^ k * 2 ^ 23 := by ring
      _ ≤ 2 ^ 32 * n * 2 ^ 23 := Nat.mul_le_mul_right _ hlo
      _ = n * 2 ^ (55 - k) * 2 ^ k := hscale.symm
  · refine Nat.lt_of_mul_lt_mul_right (a := 2 ^ k) ?_
    calc n * 2 ^ (55 - k) * 2 ^ k = 2 ^ 32 * n * 2 ^ 23 := hscale
      _ < d * 2 ^ (k + 1) * 2 ^ 23 := Nat.mul_lt_mul_of_pos_right hhi (Nat.two_pow_pos 23)
      _ = 2 ^ 24 * d * 2 ^ k := by ring

/-- A significand that rounding carried to 25 bits is packed with the next exponent. -/
theorem denotes_pack_rounded {k q : Nat} (hk : k ≤ 48) (hq : 2 ^ 23 ≤ q) (hq' : q ≤ 2 ^ 24) :
    Denotes (if q = 2 ^ 24 then f32Pack (k + 1 + 95) (2 ^ 23) else f32Pack (k + 95) q) (q * 2 ^ (k + 94)) := by
  split
  · next htop =>
    have hscale : q * 2 ^ (k + 94) = 2 ^ 23 * 2 ^ (k + 1 + 95 - 1) := by
      rw [htop, ← Nat.pow_add, ← Nat.pow_add]
      congr 1
      omega
    rw [hscale]
    exact denotes_f32Pack (by omega) (by omega) le_rfl (by decide)
  · next hne => exact denotes_f32Pack (x := k + 95) (by omega) (by omega) hq (by omega)

/-- A quotient is denoted by a significand `q` scaled by its exponent, and is within half a unit of `q` (R128): in units
of 2^-149 the exact one is `n * 2 ^ (55 - k) / d` times 2^(k + 94). -/
theorem denotes_f32Div {d n : Nat} (hd : 1 ≤ d) (hd' : d ≤ 2 ^ 32) (hn : 1 ≤ n) (hn' : n ≤ 65535) :
    ∃ k q, k ≤ 48 ∧ Denotes (f32Div d n) (q * 2 ^ (k + 94)) ∧
      2 * (d * q) ≤ 2 * (n * 2 ^ (55 - k)) + d ∧ 2 * (n * 2 ^ (55 - k)) ≤ 2 * (d * q) + d := by
  obtain ⟨hk, hlo, hhi⟩ := divExponent_spec (d := d) (n := n) (m := 48) (by omega) (by omega)
  obtain ⟨hnear, hnear'⟩ := roundNearestEven_div hd (n * 2 ^ (55 - divExponent d n 48))
  obtain ⟨hnum, hnum'⟩ := scaled_dividend (by omega) hlo hhi
  obtain ⟨hround, hround'⟩ := roundNearestEven_bounds d (n * 2 ^ (55 - divExponent d n 48) / d)
    (n * 2 ^ (55 - divExponent d n 48) % d)
  have hq := (Nat.le_div_iff_mul_le hd).mpr hnum
  have hq' := (Nat.div_lt_iff_lt_mul hd).mpr hnum'
  refine ⟨_, _, hk, ?_, hnear, hnear'⟩
  rw [f32Div, if_neg (Nat.one_le_iff_ne_zero.mp hn)]
  exact denotes_pack_rounded hk (hq.trans hround) (hround'.trans hq')

end Machine
end Sys2Proof
end

