-- ==== Sys2Proof/Proofs/HumidityRange.lean ====
section
/-! RCHK (42_checksum_validate.md R112): what it rejects, and what that is of a decoded frame with the values of R3. -/

namespace Sys2Proof
namespace Machine

section
variable {b : Word} {m : Nat} (h : Denotes b m)
include h

/-- A pattern with the sign bit clear is not below 0.0. -/
theorem Denotes.not_lt_zero : f32Lt b 0x00000000 = false := by
  obtain ⟨hb, hv⟩ := h
  obtain ⟨h0, hv0⟩ := denotes_zero
  rw [Bool.eq_false_iff, ne_eq, f32Lt_iff hb h0, hv, hv0]
  omega

/-- A pattern is above 100.0 when the number it denotes is. -/
theorem Denotes.hundred_lt_iff : f32Lt 0x42C80000 b = true ↔ 100 * 2 ^ 149 < m := by
  obtain ⟨hb, hv⟩ := h
  obtain ⟨h100, hv100⟩ : Denotes 0x42C80000 (100 * 2 ^ 149) := ⟨by decide, by decide⟩
  rw [f32Lt_iff h100 hb, hv, hv100, Int.ofNat_lt]

end

/-- A humidity of variant A is above 100.0 when its byte is over 100. -/
theorem hundred_lt_f32FromNat_iff {n : Nat} (hn : n < 2 ^ 24) : f32Lt 0x42C80000 (f32FromNat n) = true ↔ 100 < n := by
  rw [(denotes_f32FromNat hn).hundred_lt_iff]
  exact Nat.mul_lt_mul_right (Nat.two_pow_pos 149)

/-- A humidity of variant B is above 100.0 when its field is over 1000 tenths: rounding moves the quotient by at most
half a unit of its last place, and one tenth is many of them. -/
theorem hundred_lt_f32Div_iff {n : Nat} (hn : n ≤ 65535) : f32Lt 0x42C80000 (f32Div 10 n) = true ↔ 1000 < n := by
  obtain rfl | hpos := Nat.eq_zero_or_pos n
  · decide
  · obtain ⟨k, q, hk, hden, hnear, hnear'⟩ := denotes_f32Div (d := 10) (by decide) (by decide) hpos hn
    have hscale : 100 * 2 ^ 149 = 100 * 2 ^ (55 - k) * 2 ^ (k + 94) := by
      rw [Nat.mul_assoc, ← Nat.pow_add]
      congr 2
      omega
    have hunits : 2 ^ 7 ≤ 2 ^ (55 - k) := Nat.pow_le_pow_right (by decide) (by omega)
    rw [hden.hundred_lt_iff, hscale, Nat.mul_lt_mul_right (Nat.two_pow_pos _)]
    generalize 2 ^ (55 - k) = u at *
    constructor
    · intro hlt
      by_contra hle
      have := Nat.mul_le_mul_right u (Nat.le_of_not_lt hle)
      omega
    · intro hlt
      have := Nat.mul_le_mul_right u (Nat.succ_le_of_lt hlt)
      omega

theorem Frame.bHum_le (f : Frame) : f.bHum ≤ 65535 := by
  unfold Frame.bHum
  omega

/-- A decoded humidity is a number that is not negative. -/
theorem exists_denotes_humidity {p : Config.Platform} (hp : R3Values p) (f : Frame) (v : Variant) :
    ∃ m, Denotes (decodeFrame p v f).1 m := by
  cases v with
  | a => exact ⟨_, denotes_f32FromNat (n := f.b0.toNat) (by omega)⟩
  | b =>
    change ∃ m, Denotes (f32Div p.bScale f.bHum) m
    rw [hp.bScale]
    obtain h | hpos := Nat.eq_zero_or_pos f.bHum
    · rw [h]
      exact ⟨0, denotes_zero⟩
    · obtain ⟨k, q, -, hden, -⟩ := denotes_f32Div (d := 10) (by decide) (by decide) hpos f.bHum_le
      exact ⟨_, hden⟩

/-- Settles O34: RCHK's two ways on, and what its comparisons say of each variant's humidity. -/
theorem rchkRejectsHumidityOutOfRange : Obligations.RchkRejectsHumidityOutOfRange := by
  refine ⟨fun s v hp => ⟨fun hr => ?_, fun hlo hhi => ?_⟩,
    fun p hv => ⟨hv.humMin, hv.humMax, fun f v => ?_, fun f => ?_, fun f => ?_⟩⟩
  · have hout : humidityOutOfRange s.platform s.hum = true := by simpa [humidityOutOfRange] using hr
    have hraise := raise_of_noPin (s := s) (by simp [hp, usesPin]) .invalidData
    exact congrArg Host.Outcome.next ((if_pos hout).trans hraise)
  · have hin : humidityOutOfRange s.platform s.hum ≠ true := by simp [humidityOutOfRange, hlo, hhi]
    exact congrArg Host.Outcome.next (if_neg hin)
  · obtain ⟨m, hm⟩ := exists_denotes_humidity hv f v
    exact hm.not_lt_zero
  · exact hundred_lt_f32FromNat_iff (n := f.b0.toNat) (by omega)
  · change f32Lt _ (f32Div p.bScale f.bHum) = true ↔ _
    rw [hv.bScale]
    exact hundred_lt_f32Div_iff f.bHum_le

end Machine
end Sys2Proof
end

