-- ==== Sys2Proof/Proofs/FloatPatterns.lean ====
section
/-! The patterns of the decoders' numbers (43_variant_decoders.md R126, R129, R130): how the magnitude a pattern denotes
lies between powers of two, that it grows with the pattern, and what inverting the sign bit does. -/

namespace Sys2Proof
namespace Machine

/-! ## Magnitudes -/

theorem toNat_mod_two_pow_31 (b : Word) : b.toNat % 2 ^ 31 = f32Exponent b * 2 ^ 23 + f32Fraction b := by
  unfold f32Exponent f32Fraction
  omega

theorem f32Magnitude_of_exponent_ne_zero {b : Word} (hx : f32Exponent b ≠ 0) :
    f32Magnitude b = (2 ^ 23 + f32Fraction b) * 2 ^ (f32Exponent b - 1) := if_neg hx

theorem f32Fraction_lt (b : Word) : f32Fraction b < 2 ^ 23 := Nat.mod_lt _ (Nat.two_pow_pos 23)

/-- A magnitude is below the first of the next exponent. -/
theorem f32Magnitude_lt (b : Word) : f32Magnitude b < 2 ^ (23 + f32Exponent b) := by
  have hf := f32Fraction_lt b
  unfold f32Magnitude
  split
  · next hx => simpa [hx] using hf
  · next hx =>
    calc (2 ^ 23 + f32Fraction b) * 2 ^ (f32Exponent b - 1) < 2 ^ 24 * 2 ^ (f32Exponent b - 1) :=
          Nat.mul_lt_mul_of_pos_right (by omega) (Nat.two_pow_pos _)
      _ = 2 ^ (23 + f32Exponent b) := by
          rw [← Nat.pow_add]
          congr 1
          omega

/-- The magnitude of a pattern with the hidden bit is not below the first of its exponent. -/
theorem two_pow_le_f32Magnitude {b : Word} (hx : f32Exponent b ≠ 0) : 2 ^ (22 + f32Exponent b) ≤ f32Magnitude b := by
  rw [f32Magnitude_of_exponent_ne_zero hx]
  calc 2 ^ (22 + f32Exponent b) = 2 ^ 23 * 2 ^ (f32Exponent b - 1) := by
        rw [← Nat.pow_add]
        congr 1
        omega
    _ ≤ (2 ^ 23 + f32Fraction b) * 2 ^ (f32Exponent b - 1) := Nat.mul_le_mul_right _ (Nat.le_add_right _ _)

theorem natAbs_f32Value (b : Word) : (f32Value b).natAbs = f32Magnitude b := by
  unfold f32Value
  split
  · exact Int.natAbs_neg _
  · rfl

/-- A magnitude is a multiple of a power of two, or too small for 24 bits of that power. -/
theorem two_pow_dvd_or_f32Magnitude_lt (b : Word) (j : Nat) :
    2 ^ j ∣ f32Magnitude b ∨ f32Magnitude b < 2 ^ (23 + j) := by
  obtain hx | hx := Nat.lt_or_ge j (f32Exponent b)
  · left
    rw [f32Magnitude_of_exponent_ne_zero (by omega)]
    exact Nat.dvd_mul_left_of_dvd (Nat.pow_dvd_pow 2 (by omega)) _
  · exact .inr ((f32Magnitude_lt b).trans_le (Nat.pow_le_pow_right (by decide) (by omega)))

theorem f32Exponent_le_of_f32Magnitude_lt {b : Word} {x : Nat} (h : f32Magnitude b < 2 ^ (23 + x)) :
    f32Exponent b ≤ x := by
  by_contra hx
  have hle := two_pow_le_f32Magnitude (b := b) (by omega)
  have hpow : 2 ^ (23 + x) ≤ 2 ^ (22 + f32Exponent b) := Nat.pow_le_pow_right (by decide) (by omega)
  omega

/-! ## The order of patterns -/

theorem f32IsNaN_of_exponent_le {b : Word} (h : f32Exponent b ≤ 254) : f32IsNaN b = false := by
  rw [f32IsNaN, beq_false_of_ne (by omega), Bool.false_and]

theorem f32Le_iff {a b : Word} (ha : f32IsNaN a = false) (hb : f32IsNaN b = false) :
    f32Le a b = true ↔ f32Value a ≤ f32Value b := by
  simp [f32Le, ha, hb]

/-- With the sign bit clear, a greater pattern has the greater magnitude: a greater exponent decides, and with the same
exponent the fraction does. -/
theorem f32Magnitude_strictMono {a b : Word} (hb : b.toNat < 2 ^ 31) (h : a.toNat < b.toNat) :
    f32Magnitude a < f32Magnitude b := by
  have hpa := toNat_mod_two_pow_31 a
  have hpb := toNat_mod_two_pow_31 b
  have hfa := f32Fraction_lt a
  have hfb := f32Fraction_lt b
  obtain hx | hx : f32Exponent a < f32Exponent b ∨ f32Exponent a = f32Exponent b := by omega
  · calc f32Magnitude a < 2 ^ (23 + f32Exponent a) := f32Magnitude_lt a
      _ ≤ 2 ^ (22 + f32Exponent b) := Nat.pow_le_pow_right (by decide) (by omega)
      _ ≤ f32Magnitude b := two_pow_le_f32Magnitude (by omega)
  · have hfrac : f32Fraction a < f32Fraction b := by omega
    rw [f32Magnitude, f32Magnitude, hx]
    split
    · exact hfrac
    · exact Nat.mul_lt_mul_of_pos_right (by omega) (Nat.two_pow_pos _)

theorem f32Magnitude_lt_iff {a b : Word} (ha : a.toNat < 2 ^ 31) (hb : b.toNat < 2 ^ 31) :
    f32Magnitude a < f32Magnitude b ↔ a.toNat < b.toNat := by
  refine ⟨fun h => ?_, f32Magnitude_strictMono hb⟩
  by_contra hle
  obtain hlt | heq := Nat.lt_or_eq_of_le (Nat.le_of_not_lt hle)
  · exact Nat.lt_asymm h (f32Magnitude_strictMono ha hlt)
  · exact absurd h (BitVec.eq_of_toNat_eq heq ▸ Nat.lt_irrefl _)

theorem f32Value_of_lt {b : Word} (hb : b.toNat < 2 ^ 31) : f32Value b = f32Magnitude b := by
  have hsign : f32Sign b = false := by
    rw [f32Sign, ← BitVec.testBit_toNat]
    exact Nat.testBit_lt_two_pow hb
  rw [f32Value, hsign]
  rfl

/-- Settles O60: the comparisons are of the values (`f32Lt_iff`, `f32Le_iff`), the zeros are closed terms, and a
non-negative pattern's magnitude grows with it (`f32Magnitude_lt_iff`). -/
theorem f32OrderIsPatternOrder : Obligations.F32OrderIsPatternOrder := by
  have hvalues : ∀ a b : Word, f32Exponent a ≤ 254 → f32Exponent b ≤ 254 →
      (f32Lt a b = true ↔ f32Value a < f32Value b) ∧ (f32Le a b = true ↔ f32Value a ≤ f32Value b) :=
    fun a b ha hb => ⟨f32Lt_iff (f32IsNaN_of_exponent_le ha) (f32IsNaN_of_exponent_le hb),
      f32Le_iff (f32IsNaN_of_exponent_le ha) (f32IsNaN_of_exponent_le hb)⟩
  refine ⟨hvalues, by decide, by decide, by decide, by decide, fun a b ha hb => ?_⟩
  have hfinite : ∀ c : Word, c.toNat < 0x7F800000 → f32Exponent c ≤ 254 := fun c hc => by
    unfold f32Exponent
    omega
  obtain ⟨hlt, hle⟩ := hvalues a b (hfinite a ha) (hfinite b hb)
  have ha' : a.toNat < 2 ^ 31 := by omega
  have hb' : b.toNat < 2 ^ 31 := by omega
  rw [hlt, hle, f32Value_of_lt ha', f32Value_of_lt hb', Int.ofNat_lt, Int.ofNat_le]
  exact ⟨f32Magnitude_lt_iff ha' hb', le_iff_le_iff_lt_iff_lt.mpr (f32Magnitude_lt_iff hb' ha')⟩

/-! ## Negation -/

theorem f32Neg_toNat_mod (b : Word) : (f32Neg b).toNat % 2 ^ 31 = b.toNat % 2 ^ 31 := by
  rw [f32Neg, BitVec.toNat_xor, Nat.xor_mod_two_pow]
  exact Nat.xor_zero _

theorem f32Neg_getLsbD (b : Word) (j : Nat) : (f32Neg b).getLsbD j = if j = 31 then !b.getLsbD 31 else b.getLsbD j := by
  have hmask : (0x80000000 : Word) = BitVec.twoPow 32 31 := by decide
  rw [f32Neg, hmask, BitVec.getLsbD_xor, BitVec.getLsbD_twoPow]
  split
  · next h => simp [h]
  · next h => simp [Ne.symm h]

theorem f32Magnitude_f32Neg (b : Word) : f32Magnitude (f32Neg b) = f32Magnitude b := by
  have hmod := f32Neg_toNat_mod b
  have hexp : f32Exponent (f32Neg b) = f32Exponent b := by
    unfold f32Exponent
    omega
  have hfrac : f32Fraction (f32Neg b) = f32Fraction b := by
    unfold f32Fraction
    omega
  rw [f32Magnitude, f32Magnitude, hexp, hfrac]

theorem f32Value_f32Neg (b : Word) : f32Value (f32Neg b) = -f32Value b := by
  have hsign : f32Sign (f32Neg b) = !f32Sign b := f32Neg_getLsbD b 31
  rw [f32Value, f32Value, f32Magnitude_f32Neg, hsign]
  cases f32Sign b
  · rfl
  · exact (neg_neg _).symm

end Machine
end Sys2Proof
end

