-- ==== Sys2Proof/Proofs/FloatDivision.lean ====
section
/-! `F32Div10` (43_variant_decoders.md R128) is the one nearest pattern. At the scale 2^(k + 94) of its quotient `q` every
pattern denotes a multiple of the scale or lies below all 24-bit quotients; a quotient `q` is within half a unit of the
exact one, and never at half a unit. -/

namespace Sys2Proof
namespace Machine

/-- A number is a multiple of a power of two, or below the 24-bit multiples of it. -/
theorem f32Value_multiple_or_lt (b : Word) (j : Nat) :
    (∃ z : Int, f32Value b = z * 2 ^ j) ∨ f32Value b < 2 ^ 23 * 2 ^ j := by
  obtain ⟨c, hc⟩ | hlt := two_pow_dvd_or_f32Magnitude_lt b j
  · left
    rw [f32Value, hc]
    split
    · exact ⟨-c, by push_cast; ring⟩
    · exact ⟨c, by push_cast; ring⟩
  · right
    have hcast : (f32Magnitude b : Int) < 2 ^ 23 * 2 ^ j := by
      rw [← pow_add]
      exact_mod_cast hlt
    unfold f32Value
    split
    · omega
    · exact hcast

/-- There is no tie: ten times a quotient is even, so it does not differ by 5 from an even dividend. -/
theorem roundNearestEven_ten {m : Nat} (heven : 2 ∣ m) :
    10 * roundNearestEven 10 (m / 10) (m % 10) < m + 5 ∧ m < 10 * roundNearestEven 10 (m / 10) (m % 10) + 5 := by
  have hnear := roundNearestEven_div (d := 10) (by decide) m
  omega

/-- `F32Div10(n)` denotes a quotient `q` at the scale 2^(k + 94), less than half a unit from the exact one, a tenth of the
scaled dividend `m`, which has 24 bits. -/
theorem denotes_f32Div10 {n : Nat} (hn : 1 ≤ n) (hn' : n ≤ 65535) :
    ∃ k q m : Nat, k ≤ 48 ∧ q ≤ 2 ^ 24 ∧ m * 2 ^ (k + 94) = n * 2 ^ 149 ∧ Denotes (f32Div10 n) (q * 2 ^ (k + 94)) ∧
      2 ^ 23 * 10 ≤ m ∧ 10 * q < m + 5 ∧ m < 10 * q + 5 := by
  obtain ⟨hk, hlo, hhi⟩ := divExponent_spec (d := 10) (n := n) (m := 48) (by omega) (by omega)
  obtain ⟨hm, hm'⟩ := scaled_dividend (by omega) hlo hhi
  obtain ⟨hq, hq'⟩ := roundNearestEven_ten (m := n * 2 ^ (55 - divExponent 10 n 48))
    ((dvd_pow_self 2 (by omega)).mul_left n)
  have hscale : n * 2 ^ (55 - divExponent 10 n 48) * 2 ^ (divExponent 10 n 48 + 94) = n * 2 ^ 149 := by
    rw [Nat.mul_assoc, ← Nat.pow_add]
    congr 2
    omega
  refine ⟨_, _, _, hk, ?_, hscale, ?_, hm, hq, hq'⟩
  · omega
  · rw [f32Div10, f32Div, if_neg (Nat.one_le_iff_ne_zero.mp hn)]
    exact denotes_pack_rounded hk (by omega) (by omega)

section
variable {q m u : Nat} (hq : 10 * q < m + 5) (hq' : m < 10 * q + 5)
include hq hq'

/-- Another multiple of the scale is more than half a unit away. -/
theorem quotient_closer_than_multiple (hu : 0 < u) {z : Int} (hz : z * u ≠ (q * u : Nat)) :
    (10 * ((q * u : Nat) : Int) - (m * u : Nat)).natAbs < (10 * (z * u) - (m * u : Nat)).natAbs := by
  have hne : z ≠ q := fun h => hz (by rw [h]; push_cast; rfl)
  have hfactor : ∀ y : Int, (10 * (y * u) - (m * u : Nat)).natAbs = (10 * y - m).natAbs * u := fun y => by
    rw [← Int.natAbs_natCast u, ← Int.natAbs_mul, Int.natAbs_natCast]
    push_cast
    ring_nf
  rw [Nat.cast_mul, hfactor, hfactor, Nat.mul_lt_mul_right hu]
  omega

/-- A number below all 24-bit multiples of the scale is further away: the quotient is at least the least of them, and
above the exact one only if that is not the least itself. -/
theorem quotient_closer_than_small {v : Int} (hm : 2 ^ 23 * 10 ≤ m) (hv : v < 2 ^ 23 * u) :
    (10 * ((q * u : Nat) : Int) - (m * u : Nat)).natAbs < (10 * v - (m * u : Nat)).natAbs := by
  obtain hlt | hle := Nat.lt_or_ge m (10 * q)
  · have hmu : (10 * 2 ^ 23 + 6) * u ≤ m * u := Nat.mul_le_mul_right u (by omega)
    have hqu : 10 * q * u ≤ (m + 4) * u := Nat.mul_le_mul_right u (by omega)
    have hqu' : m * u ≤ 10 * q * u := Nat.mul_le_mul_right u hlt.le
    rw [Nat.mul_assoc] at hqu hqu'
    rw [Nat.add_mul] at hqu
    omega
  · have hqu : 2 ^ 23 * u ≤ q * u := Nat.mul_le_mul_right u (by omega)
    have hmu : 10 * q * u ≤ m * u := Nat.mul_le_mul_right u hle
    rw [Nat.mul_assoc] at hmu
    omega

end

/-- Settles O58: a number denoted by a pattern is a multiple of the quotient's scale (`quotient_closer_than_multiple`) or
below the quotient's 24-bit range (`quotient_closer_than_small`), and `F32Div10(n)` is closer to n/10 than either. -/
theorem f32Div10IsCorrectlyRounded : Obligations.F32Div10IsCorrectlyRounded := by
  refine ⟨by decide, fun n hn hn' => ?_⟩
  obtain ⟨k, q, m, hk, hq24, hscale, ⟨-, hvalue⟩, hm, hq, hq'⟩ := denotes_f32Div10 hn hn'
  have hu : 0 < 2 ^ (k + 94) := Nat.two_pow_pos _
  have hexact : (n : Int) * 2 ^ 149 = (m * 2 ^ (k + 94) : Nat) := by
    rw [hscale]
    push_cast
    rfl
  constructor
  · have hexp : f32Exponent (f32Div10 n) ≤ k + 96 := by
      refine f32Exponent_le_of_f32Magnitude_lt ?_
      rw [← natAbs_f32Value, hvalue, Int.natAbs_natCast]
      calc q * 2 ^ (k + 94) ≤ 2 ^ 24 * 2 ^ (k + 94) := Nat.mul_le_mul_right _ hq24
        _ = 2 ^ (24 + (k + 94)) := (Nat.pow_add 2 _ _).symm
        _ < 2 ^ (23 + (k + 96)) := Nat.pow_lt_pow_right Nat.one_lt_two (by omega)
    omega
  · intro b _ hne
    rw [hexact, hvalue]
    rw [hvalue] at hne
    obtain ⟨z, hz⟩ | hlt := f32Value_multiple_or_lt b (k + 94)
    · rw [hz] at hne ⊢
      exact_mod_cast quotient_closer_than_multiple hq hq' hu (by exact_mod_cast hne)
    · exact quotient_closer_than_small hq hq' hm (by exact_mod_cast hlt)

end Machine
end Sys2Proof
end

