-- ==== Sys2Proof/Proofs/Decoders.lean ====
section
/-! The variant decoders (43_variant_decoders.md R120, R122, R125): the exact numbers of variant A, the fields of variant B
with the values of R3, and what DEC stages. -/

namespace Sys2Proof
namespace Machine

/-- Settles O57, by what the pattern of a natural number denotes (`denotes_f32FromNat`). -/
theorem f32FromNatIsExact : Obligations.F32FromNatIsExact := by
  refine ⟨by decide, fun n hn => ?_⟩
  obtain ⟨hnumber, hvalue⟩ := denotes_f32FromNat hn
  exact ⟨hvalue.trans (by push_cast; rfl), hnumber⟩

section
variable {p : Config.Platform} (hp : R3Values p) (f : Frame)
include hp

/-- The sign of variant B's temperature is bit 7 of byte 2 (R73). -/
theorem Frame.bSign_eq : f.bSign p = f.b2.getLsbD 7 := by
  have hmask : (0x80 : Byte) = BitVec.twoPow 8 7 := by decide
  rw [Frame.bSign, hp.bSignMask, hmask, BitVec.and_twoPow]
  cases f.b2.getLsbD 7 <;> rfl

/-- The magnitude of variant B's temperature is the other 15 bits of bytes 2 and 3 (R73). -/
theorem Frame.bTmag_eq : f.bTmag p = f.b2.toNat % 128 * 256 + f.b3.toNat := by
  rw [Frame.bTmag, hp.bMagMask, BitVec.toNat_and]
  exact congrArg (· * 256 + f.b3.toNat) (Nat.and_two_pow_sub_one_eq_mod f.b2.toNat 7)

theorem decodeBTemp_eq : decodeBTemp p f =
    if f.b2.getLsbD 7 then f32Neg (f32Div10 (f.b2.toNat % 128 * 256 + f.b3.toNat))
    else f32Div10 (f.b2.toNat % 128 * 256 + f.b3.toNat) := by
  rw [decodeBTemp, f.bSign_eq hp, f.bTmag_eq hp, hp.bScale]
  rfl

theorem decodeB_eq : decodeB p f = (f32Div10 (f.b0.toNat * 256 + f.b1.toNat), decodeBTemp p f) := by
  rw [decodeB, hp.bScale]
  rfl

end

/-- Settles O59: the negated number (`f32Value_f32Neg`), the bits (`f32Neg_getLsbD`), and the decoder's negative zero, a
closed term once byte 2 is known. -/
theorem f32NegFlipsTheSign : Obligations.F32NegFlipsTheSign := by
  refine ⟨fun b => ⟨f32Value_f32Neg b, fun j _ => f32Neg_getLsbD b j⟩, fun p f hp h2 h3 => ?_⟩
  change decodeBTemp p f = _
  rw [decodeBTemp_eq hp, h2, h3]
  decide

/-- Settles O32: DEC.A is `stageReading` of the two bytes' numbers. -/
theorem decAStagesWholeNumbers : Obligations.DecAStagesWholeNumbers := by
  intro s
  rfl

/-- Settles O33: DEC.B is `stageReading` of what R3's values make of the fields (`decodeB_eq`), and the temperature has
the two cases of its sign (`decodeBTemp_eq`). -/
theorem decBStagesTenthsInSignAndMagnitude : Obligations.DecBStagesTenthsInSignAndMagnitude := by
  intro s hp
  refine ⟨decodeBTemp s.platform s.f, ?_, fun h => ?_, fun h => ?_⟩
  · exact congrArg (fun r => Host.Outcome.next (stageReading r s)) (decodeB_eq hp s.f)
  · exact (decodeBTemp_eq hp s.f).trans (if_neg (Bool.eq_false_iff.mp h))
  · exact (decodeBTemp_eq hp s.f).trans (if_pos h)

end Machine
end Sys2Proof
end

