-- ==== Sys2Proof/Proofs/GuardBracket.lean ====
section
/-! The guard bracket (44_interrupt_guard.md R135 to R137): GSUS opens a read's trace, GRES closes it, no phase between them
issues an event of the guard port, and none after them issues anything. -/

namespace Sys2Proof
namespace Machine

/-- Settles O22: GSUS is `State.suspend` with `g` and `ph` written. -/
theorem gsusHoldsTheGuard : Obligations.GsusHoldsTheGuard := by
  intro s v
  rfl

/-- Settles O30: GRES is `State.resume` with `g` and `ph` written. -/
theorem gresLetsTheGuardGo : Obligations.GresLetsTheGuardGo := by
  intro s v
  rfl

/-! ## What each part of a read adds to the trace -/

/-- One more event that is not the guard port's leaves an open trace open. -/
theorem openTrace_cons {e : Event} {es : List Event} (he : isGuardEvent e = false) (ho : openTrace es = true) :
    openTrace (e :: es) = true := by
  cases es with
  | nil => cases ho
  | cons => simpa [openTrace, he] using ho

/-- Events that are not the guard port's leave an open trace open. -/
theorem openTrace_append {new old : List Event} (hn : ∀ e ∈ new, isGuardEvent e = false) (ho : openTrace old = true) :
    openTrace (new ++ old) = true := by
  induction new with
  | nil => exact ho
  | cons e new ih =>
    rw [List.forall_mem_cons] at hn
    exact openTrace_cons hn.1 (ih hn.2)

section
variable {p : Config.Platform} {ph : Phase} {es : List Event}

/-- Only GSUS and GRES use the guard port. -/
theorem PhaseEvents.isGuardEvent_eq_false (h : PhaseEvents p ph es) (hs : ph ≠ .gsus) (hr : ph ≠ .gres) :
    ∀ e ∈ es, isGuardEvent e = false := by
  cases h with
  | suspend => exact absurd rfl hs
  | resume => exact absurd rfl hr
  | _ => simp [isGuardEvent]

/-- Validation and publication use no port (42_checksum_validate.md). -/
theorem PhaseEvents.eq_nil (h : PhaseEvents p ph es) (hp : ph = .csum ∨ ph = .dec ∨ ph = .rchk ∨ ph = .pub) :
    es = [] := by
  cases h with
  | poll hw | pollDelayed hw => cases hw <;> simp at hp
  | silent => rfl
  | _ => simp at hp

/-- Once held, the guard is held until GRES. -/
theorem guardHeld_of_mem_nextPhases (hg : guardHeld ph = true) (hr : ph ≠ .gres) :
    ∀ next ∈ nextPhases ph, guardHeld next = true := by
  cases ph <;> simp_all [guardHeld, nextPhases]

/-- After GRES a read goes on through validation and publication to IDLE. -/
theorem nextPhases_subset_of_resumed (hp : ph = .csum ∨ ph = .dec ∨ ph = .rchk ∨ ph = .pub) :
    nextPhases ph ⊆ [.dec, .rchk, .pub, .idle] := by
  rcases hp with rfl | rfl | rfl | rfl <;> decide

end

/-! ## The invariant -/

section
variable {s t : State}

/-- While the guard is held the bracket asks for an open trace. -/
theorem bracketInv_of_open (hg : guardHeld s.ph = true) (ho : openTrace s.world.trace = true) : BracketInv s where
  before h := by simp [h, guardHeld] at hg
  held _ := ho
  after h := by rcases h with h | h | h | h <;> simp [h, guardHeld] at hg
  finished h := by simp [h, guardHeld] at hg

/-- After GRES the bracket asks for a closed trace. -/
theorem bracketInv_of_closed (hp : s.ph ∈ [Phase.csum, .dec, .rchk, .pub, .idle])
    (hc : closedTrace s.world.trace = true) : BracketInv s where
  before h := by simp [h] at hp
  held h := by
    simp only [List.mem_cons, List.not_mem_nil, or_false] at hp
    rcases hp with hp | hp | hp | hp | hp <;> simp [hp, guardHeld] at h
  after _ := hc
  finished _ _ := hc

/-- Between GSUS and GRES a move adds no event of the guard port and the guard stays held. -/
theorem EngineMove.keeps_open (hi : BracketInv s) (h : EngineMove s t) (hg : guardHeld s.ph = true)
    (hr : s.ph ≠ .gres) : BracketInv t := by
  obtain ⟨es, gained, events⟩ := h.gained
  have hs : s.ph ≠ .gsus := fun k => by simp [k, guardHeld] at hg
  refine bracketInv_of_open (guardHeld_of_mem_nextPhases hg hr _ h.mem_nextPhases) ?_
  rw [gained.trace]
  exact openTrace_append (events.isGuardEvent_eq_false hs hr) (hi.held hg)

/-- After GRES a move adds no event at all. -/
theorem EngineMove.keeps_closed (hi : BracketInv s) (h : EngineMove s t)
    (hp : s.ph = .csum ∨ s.ph = .dec ∨ s.ph = .rchk ∨ s.ph = .pub) : BracketInv t := by
  obtain ⟨es, gained, events⟩ := h.gained
  obtain rfl := events.eq_nil hp
  refine bracketInv_of_closed (.tail _ (nextPhases_subset_of_resumed hp h.mem_nextPhases)) ?_
  rw [gained.trace]
  exact hi.after hp

/-- GSUS opens the empty trace, GRES closes an open one, and every other move keeps it open or closed. -/
theorem EngineMove.keeps_bracketInv (hi : BracketInv s) (h : EngineMove s t) : BracketInv t := by
  have move := h
  cases h with
  | gsus hp => exact bracketInv_of_open rfl (by simp [hi.before hp, openTrace])
  | wakeOk hp | wakeErr hp | reqOk hp | reqErr hp | storeLast hp | storeNext hp =>
    exact move.keeps_open hi (by simp [hp, guardHeld]) (by simp [hp])
  | pollErr _ hw | pollMatch _ hw | pollAgain _ hw | pollBound _ hw =>
    exact move.keeps_open hi hw.guardHeld_eq (by rcases hw.ph_cases with k | k | k | k <;> simp [k])
  | gresOk hp | gresFailed hp => exact bracketInv_of_closed (by simp) (hi.held (by simp [hp, guardHeld]))
  | csumOk hp | csumFailed hp | dec hp | rchkOk hp | rchkFailed hp | pub hp => exact move.keeps_closed hi (by simp [hp])

/-- An accepted READ starts with an empty trace, before GSUS. -/
theorem bracketInv_acceptRead (v : Variant) (s : State) : BracketInv (acceptRead v s) := by
  constructor <;> simp [acceptRead, guardHeld]

/-- In IDLE the guard is not held. -/
theorem RegInv.guard_of_idle (h : RegInv s) (hp : s.ph = .idle) : s.g = false := by
  rw [h.guard, hp, guardHeld]

end

/-- Settles O44: a move keeps the bracket (`EngineMove.keeps_bracketInv`), an acceptance and a reset begin it anew, and
that `g` is 0 in IDLE is the register invariant's, which every step keeps. -/
theorem everyStepKeepsTheGuardBracket : Obligations.EveryStepKeepsTheGuardBracket := fun s t hr hi h =>
  ⟨step_keeps (P := BracketInv) s t h
      (outside := fun _ _ _ _ => ⟨hi.before, hi.held, hi.after, hi.finished⟩)
      (accepted := fun u v _ _ => bracketInv_acceptRead v u)
      (reset := fun u _ _ => bracketInv_reset u.platform u.world.newRead)
      (moved := fun _ hu hm => hm.keeps_bracketInv hu),
    (everyStepKeepsTheRegisterInvariant s t hr h).guard_of_idle⟩

end Machine
end Sys2Proof
end

