-- ==== Sys2Proof/Proofs/HostCommands.lean ====
section
/-! The host's reads of the registers and its writes to CMD (45_host_commands.md R140 to R145). -/

namespace Sys2Proof
namespace Machine

/-! ## What a register shows -/

section
variable {s t : State} {idx : Nat} {v : Word}

/-- Registers 0 to 5 exist. -/
theorem exists_registerValue (s : State) (h : idx ≤ 5) : ∃ v, registerValue s idx = some v := by
  match idx, h with
  | 0, _ | 1, _ | 2, _ | 3, _ | 4, _ | 5, _ => exact ⟨_, rfl⟩

/-- STATUS has `BUSY` in bit 0, `DONE` in bit 1 and `ERR` in bits 6:4 (10_state.md R25). -/
theorem statusWord_toNat (s : State) :
    (statusWord s).toNat = s.BUSY.toNat + 2 * s.DONE.toNat + 16 * (errCode s.ERR).toNat := by
  have layout : ∀ (err : BitVec 3) (done busy : Bool),
      ((err ++ 0#2 ++ BitVec.ofBool done ++ BitVec.ofBool busy).setWidth 32).toNat =
        busy.toNat + 2 * done.toNat + 16 * err.toNat := by decide
  exact layout (errCode s.ERR) s.DONE s.BUSY

/-- `ERRINFO` is read with zeros above its 16 bits (10_state.md R28). -/
theorem errinfoWord_toNat (e : BitVec 16) : (e.setWidth 32).toNat = e.toNat :=
  BitVec.toNat_setWidth_of_le (by decide)

/-- Only the host-visible registers and the configuration show in what is read. -/
theorem registerValue_congr (idx : Nat) (hb : t.BUSY = s.BUSY) (hd : t.DONE = s.DONE) (he : t.ERR = s.ERR)
    (hh : t.HUM = s.HUM) (ht : t.TEMP = s.TEMP) (hi : t.ERRINFO = s.ERRINFO) (hp : t.PINERR = s.PINERR)
    (hc : t.platform = s.platform) : registerValue t idx = registerValue s idx := by
  have hstatus : statusWord t = statusWord s := by simp only [statusWord, hb, hd, he]
  simp only [registerValue, hstatus, hh, ht, hi, hp, hc]

/-- A read of a register that exists returns its value and records it. -/
theorem readRegister_of_value (h : registerValue s idx = some v) :
    readRegister idx s = .next (s.setWorld { s.world with seen := (idx, v) :: s.world.seen }) := by
  simp only [readRegister, h]

/-- A read on the schedule returns the value the register has now: taking the turn off touches no register. -/
theorem step_regRead {rest : List Turn} (hs : s.world.sched = .host (.regRead idx) :: rest)
    (h : registerValue s idx = some v) :
    step s = .next { s with world := { s.world with sched := rest, seen := (idx, v) :: s.world.seen } } :=
  (step_host hs).trans (readRegister_of_value (s := s.setWorld { s.world with sched := rest }) h)

end

/-- Settles O14: the register has a value (`exists_registerValue`), the read records it (`step_regRead`), each number
has its row of the table, and no working register shows (`registerValue_congr`). -/
theorem registerReadsReturnTheirValues : Obligations.RegisterReadsReturnTheirValues := by
  intro s idx rest hs hidx
  obtain ⟨v, hv⟩ := exists_registerValue s hidx
  refine ⟨v, step_regRead hs hv, ?cmd, ?status, ?hum, ?temp, ?errinfo, ?pinerr,
    fun t hb hd he hh ht hi hp hc => (registerValue_congr idx hb hd he hh ht hi hp hc).trans hv⟩
  all_goals
    rintro rfl
    cases hv
  case cmd | hum | temp => rfl
  case status => exact statusWord_toNat s
  case errinfo => exact errinfoWord_toNat s.ERRINFO
  case pinerr => exact limitErr_toNat s.platform s.PINERR

/-! ## What a command word decodes to -/

section
variable {w : Word}

/-- A word is reserved when any of bits 31:2 is set, which is when it is 4 or more (30_encoding.md R62). -/
theorem reservedBits_ne_zero_iff : w.extractLsb' 2 30 ≠ 0 ↔ 4 ≤ w.toNat := by
  rw [Ne, BitVec.toNat_eq, BitVec.extractLsb'_toNat, Nat.shiftRight_eq_div_pow]
  have hz : (0 : BitVec 30).toNat = 0 := rfl
  omega

/-- A word that is not reserved and has `GO` clear is a NOP (30_encoding.md R61). -/
theorem decodeCommand_of_goClear (hr : w.extractLsb' 2 30 = 0) (hgo : w.getLsbD 0 = false) :
    ∃ v, decodeCommand w = .ok (.nop v) := by
  obtain h | rfl | rfl | rfl | rfl := word_reserved_or_row w
  · exact absurd hr (reservedBits_ne_zero_iff.mpr h)
  · exact ⟨.a, rfl⟩
  · cases hgo
  · exact ⟨.b, rfl⟩
  · cases hgo

end

/-! ## What a command does -/

section
variable {s : State} {w : Word}

theorem exec_readA (s : State) : exec .readA s = .next (readCommand .a s) := rfl

theorem exec_readB (s : State) : exec .readB s = .next (readCommand .b s) := rfl

theorem exec_nop (v : Variant) (s : State) : exec (.nop v) s = .next s := rfl

theorem readCommand_of_idle (v : Variant) (h : s.ph = .idle) : readCommand v s = acceptRead v s := if_pos h

theorem readCommand_of_reading (v : Variant) (h : s.ph ≠ .idle) : readCommand v s = s := if_neg h

theorem writeCommand_of_decode {i : Instr} (s : State) (h : decodeCommand w = .ok i) : writeCommand w s = exec i s := by
  simp only [writeCommand, h]

theorem writeCommand_of_reserved (s : State) (h : 4 ≤ w.toNat) : writeCommand w s = .next s := by
  simp only [writeCommand, decodeCommand_of_reserved h]

/-- While a read is in progress no command word has an effect: a READ is ignored, a NOP has none, and a reserved word is
no command. -/
theorem writeCommand_of_reading (w : Word) (h : s.ph ≠ .idle) : writeCommand w s = .next s := by
  obtain hd | ⟨v, hd⟩ | hd | hd := decodeCommand_cases w
  · exact writeCommand_of_reserved s ((decodeCommand_eq_reserved_iff w).mp hd)
  · rw [writeCommand_of_decode s hd, exec_nop]
  · rw [writeCommand_of_decode s hd, exec_readA, readCommand_of_reading .a h]
  · rw [writeCommand_of_decode s hd, exec_readB, readCommand_of_reading .b h]

end

/-! ## The write to CMD on the schedule -/

section
variable {s : State} {w : Word} {rest : List Turn}

/-- Register 0 is CMD. -/
theorem writeRegister_cmd (w : Word) (s : State) : writeRegister 0 w s = writeCommand w s := if_pos rfl

/-- A write to register 0 is a write to CMD. -/
theorem step_regWrite_cmd (hs : s.world.sched = .host (.regWrite 0 w) :: rest) :
    step s = writeCommand w (s.setWorld { s.world with sched := rest }) :=
  (step_host hs).trans (writeRegister_cmd w _)

/-- `REG_BASE` is the address of register 0, whatever the stride (20_memory.md R41). -/
theorem busRegister_regBase (p : Config.Platform) : busRegister p p.regBase 4 = .ok 0 := by
  simp [busRegister]

/-- A whole-register write at `REG_BASE` is a write to CMD. -/
theorem step_busWrite_cmd (hs : s.world.sched = .host (.busWrite s.platform.regBase 4 w) :: rest) :
    step s = writeCommand w (s.setWorld { s.world with sched := rest }) := by
  rw [step_host hs]
  simp only [hostTurn, State.setWorld_platform, busRegister_regBase, writeRegister_cmd]

end

/-- Settles O8: both accesses are a write to CMD (`step_regWrite_cmd`, `step_busWrite_cmd`). -/
theorem commandWriteRunsTheDecodedCommand : Obligations.CommandWriteRunsTheDecodedCommand := fun _ _ _ _ hd =>
  ⟨fun hs => (step_regWrite_cmd hs).trans (writeCommand_of_decode _ hd),
    fun hs => (step_busWrite_cmd hs).trans (writeCommand_of_decode _ hd)⟩

/-- Settles O10: in IDLE each READ is `acceptRead` with its own variant (`readCommand_of_idle`). -/
theorem readInIdleIsAccepted : Obligations.ReadInIdleIsAccepted := by
  intro s hp i v hiv
  obtain ⟨rfl, rfl⟩ | ⟨rfl, rfl⟩ := hiv
  · rw [exec_readA, readCommand_of_idle .a hp]
    rfl
  · rw [exec_readB, readCommand_of_idle .b hp]
    rfl

/-- Settles O11, by `readCommand_of_reading` for the two READs and `writeCommand_of_reading` for every word. -/
theorem commandsDuringAReadAreIgnored : Obligations.CommandsDuringAReadAreIgnored := fun _ hp =>
  ⟨congrArg Host.Outcome.next (readCommand_of_reading .a hp),
    congrArg Host.Outcome.next (readCommand_of_reading .b hp),
    fun w _ hs => (step_regWrite_cmd hs).trans (writeCommand_of_reading w hp)⟩

/-- Settles O12: a word with bits 31:2 and `GO` clear decodes to a NOP (`decodeCommand_of_goClear`), which does
nothing. -/
theorem nopChangesNothing : Obligations.NopChangesNothing := by
  refine fun s => ⟨fun v => exec_nop v s, fun w rest hs hr hgo => ?_⟩
  obtain ⟨v, hd⟩ := decodeCommand_of_goClear hr hgo
  rw [step_regWrite_cmd hs, writeCommand_of_decode _ hd, exec_nop]
  rfl

/-- Settles O13: a word with any of bits 31:2 set is reserved (`reservedBits_ne_zero_iff`). -/
theorem reservedCommandWordIsIgnored : Obligations.ReservedCommandWordIsIgnored := fun _ _ _ hs hr =>
  (step_regWrite_cmd hs).trans (writeCommand_of_reserved _ (reservedBits_ne_zero_iff.mp hr))

end Machine
end Sys2Proof
end

