-- ==== Sys2Proof/Proofs/Failures.lean ====
section
/-! A read's failure (60_exceptions.md R161, R162): what `raise` writes and where it leads, and that a pending failure
stays as it is until PUB publishes its code. -/

namespace Sys2Proof
namespace Machine

/-! ## What `raise` writes -/

/-- A failure of a pin phase leads to GRES, where the guard is resumed. -/
theorem failurePath_of_pin {ph : Phase} (h : usesPin ph = true) : failurePath ph = .gres := if_pos h

/-- A failure of a phase that uses no pin leads straight to PUB. -/
theorem failurePath_of_noPin {ph : Phase} (h : usesPin ph = false) : failurePath ph = .pub := if_neg (by simp [h])

/-- The pin phases are WAKE, REQ and the four waits. -/
theorem usesPin_iff (ph : Phase) : usesPin ph = true ↔ ph ∈ [.wake, .req, .ackh, .ackl, .bith, .bitl] := by
  cases ph <;> decide

/-- Settles O36: `raise` is `ErrReg.record` and `failurePath`; the path is by the phase, the record by the failure. -/
theorem raiseRecordsTheFailureAndLeaves : Obligations.RaiseRecordsTheFailureAndLeaves := by
  refine fun s x => ⟨s.err.record x, failurePath s.ph, rfl, fun hp => failurePath_of_pin ((usesPin_iff _).mpr hp),
    fun hp => failurePath_of_noPin ?_, fun hx => hx ▸ ⟨rfl, rfl⟩, fun _ _ hx => hx ▸ ⟨rfl, rfl⟩,
    fun hx => hx ▸ ⟨rfl, rfl⟩, fun hx => hx ▸ ⟨rfl, rfl⟩, fun _ hx => hx ▸ ⟨rfl, rfl⟩⟩
  rcases hp with hp | hp <;> simp [hp, usesPin]

/-! ## A pending failure -/

section
variable {s t : State}

/-- While a read is in progress a step moves the engine or touches the world outside alone: a READ is ignored and a
reset is refused. -/
theorem step_of_reading (hi : RegInv s) (hp : s.ph ≠ .idle) (h : step s = .next t) :
    (∃ w, t = s.setWorld w) ∨ ∃ w, EngineMove (s.setWorld w) t := by
  obtain ⟨sched, h | ⟨seen, rfl⟩ | ⟨v, hs, -⟩ | ⟨hb, -⟩ | ⟨o, rfl⟩⟩ := step_next s t h
  · obtain rfl | ⟨i, a, hd, he⟩ := engineTurn_next _ t h
    · exact .inl ⟨_, rfl⟩
    · exact .inr ⟨{ s.world with sched := sched, answers := a }, exec_move _ t i hd he⟩
  · exact .inl ⟨_, rfl⟩
  · exact absurd hs hp
  · exact absurd (hi.busy.mpr hp) (by simp [hb])
  · exact .inl ⟨_, rfl⟩

/-- Only a `raise` writes `err`, and in no phase that raises is a failure pending. -/
theorem EngineMove.err_eq_of_pending (hi : RegInv s) (he : s.err.tag ≠ .none) (h : EngineMove s t) :
    t.err = s.err := by
  cases h with
  | wakeErr hp | reqErr hp | csumFailed hp | rchkFailed hp => exact absurd (hi.noFailure (by simp [hp])) he
  | pollErr _ hw | pollBound _ hw =>
    refine absurd (hi.noFailure ?_) he
    rcases hw.ph_cases with hp | hp | hp | hp <;> simp [hp]
  | pub => exact publishOutcome_err s
  | _ => rfl

/-- A move into IDLE publishes the code of the pending failure, or that there is none. -/
theorem EngineMove.published_eq (h : EngineMove s t) (ht : t.ph = .idle) : t.ERR = s.err.tag := by
  rw [h.eq_publish ht]
  exact publishOutcome_ERR s

end

/-- Settles O39: of what a step can do during a read (`step_of_reading`), a move keeps the pending failure and publishes
its code in IDLE, and what happens outside neither writes `err` nor reaches IDLE. -/
theorem pendingFailureIsTheOnlyOne : Obligations.PendingFailureIsTheOnlyOne := by
  intro s t hi h hp he
  obtain ⟨w, rfl⟩ | ⟨w, hm⟩ := step_of_reading hi hp h
  · exact ⟨rfl, fun ht => absurd ht hp⟩
  · exact ⟨hm.err_eq_of_pending (s := s.setWorld w) (hi.setWorld w) he, hm.published_eq⟩

end Machine
end Sys2Proof
end

