-- ==== Sys2Proof/Proofs/NominalTime.lean ====
section
/-! Nominal time and the counts of a read's transactions (70_reset_and_hazards.md R194, R195; 41_protocol_engine.md R101):
where they can be in each phase, what each move adds to them, and that every step keeps them in bounds. -/

namespace Sys2Proof
namespace Machine

/-! ## Counting delays: a `Delay` counts one, every other transaction nothing -/

section
variable (es : List Event)

@[simp] theorem delayCount_nil : delayCount [] = 0 := rfl
@[simp] theorem delayCount_delay (n : Nat) : delayCount (.delay n :: es) = delayCount es + 1 := by simp [delayCount]
@[simp] theorem delayCount_pinSet (l : Level) (a : SetAnswer) : delayCount (.pinSet l a :: es) = delayCount es := by
  simp [delayCount]
@[simp] theorem delayCount_pinRead (a : ReadAnswer) : delayCount (.pinRead a :: es) = delayCount es := by
  simp [delayCount]
@[simp] theorem delayCount_suspend : delayCount (.guardSuspend :: es) = delayCount es := by simp [delayCount]
@[simp] theorem delayCount_resume : delayCount (.guardResume :: es) = delayCount es := by simp [delayCount]

end

section
variable {s t : State} {wt : Wait}

/-! ## Phases whose bounds are alike -/

/-- On the way to the host after a failure or the last cell, nominal time is bounded by the outcome that is pending. -/
theorem timeOfPhase_of_outcome (hp : s.ph = .gres ∨ s.ph = .pub) (h : outcomeTime s.err.tag s.world.tau) :
    timeOfPhase s := by
  rcases hp with hp | hp <;> simpa only [timeOfPhase, hp] using h

/-- In validation all 40 bits are sampled (R194(a)), and no time passes. -/
theorem timeOfPhase_iff_of_validation (hp : s.ph = .csum ∨ s.ph = .dec ∨ s.ph = .rchk) :
    timeOfPhase s ↔ 3025 ≤ s.world.tau ∧ s.world.tau ≤ 8195 := by
  rcases hp with hp | hp | hp <;> simp only [timeOfPhase, hp]

/-! ## The waits -/

/-- Within its bound a wait's `tick` does not wrap. -/
theorem WaitPhase.toNat_tick_add_one (hw : WaitPhase s.platform s.ph wt) (hi : RegInv s) :
    (s.tick + 1).toNat = s.tick.toNat + 1 := by
  have hb := hw.bound_lt hi.config
  have ht := hw.tickLimit_eq ▸ hi.tickLimit
  exact BitVec.toNat_add_of_lt (show s.tick.toNat + 1 < 128 by omega)

/-- In a wait within its bound nominal time and the polls so far leave room for one poll more (R194(e), R101). -/
theorem WaitPhase.time_bounds (hw : WaitPhase s.platform s.ph wt) (hv : R3Values s.platform) (hi : RegInv s)
    (h : timeOfPhase s) : 3025 ≤ s.world.tau ∧ s.world.tau ≤ 8195 ∧ s.world.reads ≤ 5251 := by
  have hbit := hi.bitLimit
  have htick := hi.tickLimit
  rcases hw.ph_cases with hp | hp | hp | hp <;>
    simp only [timeOfPhase, tickLimit, hp, hv.toAckHigh, hv.toAckLow, hv.toBitHigh, hv.toBitLow] at h htick <;> omega

/-- A wait that goes on stays within its own bounds, one tick and one poll further. -/
theorem WaitPhase.timeOfPhase_again (hw : WaitPhase s.platform s.ph wt) (h : timeOfPhase s) (hp : t.ph = s.ph)
    (hbit : t.bit = s.bit) (htick : t.tick.toNat = s.tick.toNat + 1) (htau : t.world.tau = s.world.tau + 1)
    (hreads : t.world.reads = s.world.reads + 1) : timeOfPhase t := by
  rcases hw.ph_cases with k | k | k | k <;>
    simp only [timeOfPhase, hp, k, hbit, htick, htau, hreads] at h ⊢ <;> omega

/-- A wait that matches within its bound leads into the bounds of the next phase. -/
theorem WaitPhase.timeOfPhase_match (hw : WaitPhase s.platform s.ph wt) (hv : R3Values s.platform)
    (ht : s.tick.toNat ≤ wt.bound) (h : timeOfPhase s) (hp : t.ph = wt.next) (hbit : t.bit = s.bit)
    (htick : t.tick.toNat = 0) (htau : t.world.tau = s.world.tau) (hreads : t.world.reads = s.world.reads + 1) :
    timeOfPhase t := by
  generalize k : s.ph = ph at hw
  cases hw <;>
    simp only [ackhWait, acklWait, bithWait, bitlWait, hv.toAckHigh, hv.toAckLow, hv.toBitHigh, hv.toBitLow] at ht hp <;>
    simp only [timeOfPhase, k, hp, hbit, htick, htau, hreads] at h ⊢ <;> omega

/-- A wait that fails at its bound, one period later, does so when its failure can be published (R194(c), (d)). -/
theorem WaitPhase.outcomeTime_failure (hw : WaitPhase s.platform s.ph wt) (hv : R3Values s.platform) (hi : RegInv s)
    (ht : s.tick.toNat = wt.bound) (h : timeOfPhase s) :
    outcomeTime (s.err.record wt.failure).tag (s.world.tau + 1) := by
  have hbit := hi.bitLimit
  generalize k : s.ph = ph at hw
  cases hw <;>
    simp only [ackhWait, acklWait, bithWait, bitlWait, hv.toAckHigh, hv.toAckLow, hv.toBitHigh, hv.toBitLow] at ht <;>
    simp only [timeOfPhase, k, ht, outcomeTime, ErrReg.record, ackhWait, acklWait, bithWait, bitlWait] at h ⊢ <;> omega

/-! ## The engine's moves -/

/-- Each move leads from its phase's bounds into those of the next (R195), a failure into those of its outcome. -/
theorem EngineMove.keeps_timeOfPhase (hv : R3Values s.platform) (hi : RegInv s) (ht : timeOfPhase s)
    (h : EngineMove s t) : timeOfPhase t := by
  have hlimit : ∀ {wt}, WaitPhase s.platform s.ph wt → s.tick.toNat ≤ wt.bound := fun hw =>
    hw.tickLimit_eq ▸ hi.tickLimit
  cases h with
  | gsus hp => simpa [timeOfPhase, hp] using ht
  | wakeOk hp =>
    simp only [timeOfPhase, hp] at ht
    simp [timeOfPhase, ht, hv.tWakeUs]
  | reqOk hp =>
    simp only [timeOfPhase, hp] at ht
    simp [timeOfPhase, ht, hv.tReqUs]
  | wakeErr hp =>
    simp only [timeOfPhase, hp] at ht
    exact timeOfPhase_of_outcome (.inl (congrArg failurePath hp)) (.inl ht.1)
  | reqErr hp =>
    simp only [timeOfPhase, hp] at ht
    exact timeOfPhase_of_outcome (.inl (congrArg failurePath hp)) (.inr (.inl ht.1))
  | pollErr wt hw =>
    obtain ⟨hlo, hhi, -⟩ := hw.time_bounds hv hi ht
    exact timeOfPhase_of_outcome (.inl hw.failurePath_eq) (.inr (.inr ⟨hlo, hhi⟩))
  | pollMatch wt hw => exact hw.timeOfPhase_match hv (hlimit hw) ht rfl rfl rfl rfl rfl
  | pollAgain wt hw =>
    exact hw.timeOfPhase_again ht rfl rfl (hw.toNat_tick_add_one hi) (by simp [hv.pollPeriodUs]) rfl
  | pollBound wt hw l a hl hb =>
    rw [hw.toNat_tick_add_one hi] at hb
    have hbound : s.tick.toNat = wt.bound := Nat.le_antisymm (hlimit hw) (Nat.le_of_lt_succ hb)
    refine timeOfPhase_of_outcome (.inl hw.failurePath_eq) ?_
    simpa [raise, hv.pollPeriodUs] using hw.outcomeTime_failure hv hi hbound ht
  | storeLast hp hb =>
    have he : s.err.tag = .none := hi.noFailure (by simp [hp])
    have hbit := hi.bitLimit
    simp only [timeOfPhase, hp] at ht
    simp only [timeOfPhase, State.setPh_ph, storeCell, State.setPh_err, State.setPh_world, he, outcomeTime]
    omega
  | storeNext hp hb =>
    rw [hv.nBits] at hb
    have hbit := hi.bitLimit
    have hsucc : (s.bit + 1).toNat = s.bit.toNat + 1 :=
      BitVec.toNat_add_of_lt (show s.bit.toNat + 1 < 64 by omega)
    simp only [timeOfPhase, hp] at ht
    simp only [timeOfPhase, storeCell, hsucc, show (0 : BitVec 7).toNat = 0 from rfl]
    omega
  | gresOk hp he =>
    refine (timeOfPhase_iff_of_validation (.inl rfl)).mpr ?_
    simpa [timeOfPhase, hp, he, outcomeTime] using ht
  | gresFailed hp => exact timeOfPhase_of_outcome (.inr rfl) (by simpa [timeOfPhase, hp] using ht)
  | csumOk hp | dec hp =>
    have hsampled := (timeOfPhase_iff_of_validation (s := s) (by simp [hp])).mp ht
    exact (timeOfPhase_iff_of_validation (by simp [stageReading])).mpr hsampled
  | csumFailed hp | rchkFailed hp =>
    have hsampled := (timeOfPhase_iff_of_validation (s := s) (by simp [hp])).mp ht
    exact timeOfPhase_of_outcome (.inr (congrArg failurePath hp)) hsampled
  | rchkOk hp =>
    have he : s.err.tag = .none := hi.noFailure (by simp [hp])
    have hsampled := (timeOfPhase_iff_of_validation (s := s) (by simp [hp])).mp ht
    exact timeOfPhase_of_outcome (.inr rfl) (by simpa [he, outcomeTime] using hsampled)
  | pub hp => simpa [timeOfPhase, hp, publishOutcome_ERR] using ht

/-- Only WAKE and REQ set the pin, each once. -/
theorem EngineMove.keeps_sets (hi : TimeInv s) (h : EngineMove s t) : t.world.sets ≤ 2 := by
  obtain ⟨es, hg, he⟩ := h.gained
  have hphase := hi.phase
  rw [hg.sets]
  generalize hp : s.ph = ph at he
  cases he with
  | wakeSet | wakeHeld | reqSet | reqHeld =>
    simp only [timeOfPhase, hp] at hphase
    simp [setCount, hphase]
  | _ => exact hi.sets

/-- Only a wait polls, once in each move, and has made no more than 5251 polls before (R101). -/
theorem EngineMove.keeps_reads (hv : R3Values s.platform) (hr : RegInv s) (hi : TimeInv s) (h : EngineMove s t) :
    t.world.reads ≤ 5252 := by
  obtain ⟨es, hg, he⟩ := h.gained
  rw [hg.reads]
  have hpoll : ∀ {wt}, WaitPhase s.platform s.ph wt → s.world.reads + 1 ≤ 5252 := fun hw =>
    have ⟨_, _, hreads⟩ := hw.time_bounds hv hr hi.phase
    Nat.succ_le_succ hreads
  generalize s.ph = ph at he hpoll
  cases he with
  | poll hw | pollDelayed hw => exact hpoll hw
  | _ => exact hi.reads

/-- The first delay is WAKE's, the second REQ's, and every later one a poll period of a wait. -/
theorem EngineMove.keeps_delays (hv : R3Values s.platform) (hr : RegInv s) (hi : TimeInv s) (h : EngineMove s t) :
    (t.world.tau = 0 ∧ delayCount t.world.trace = 0) ∨ (t.world.tau = 3000 ∧ delayCount t.world.trace = 1) ∨
      (3025 ≤ t.world.tau ∧ t.world.tau ≤ 8196 ∧ t.world.tau = 3023 + delayCount t.world.trace) := by
  obtain ⟨es, hg, he⟩ := h.gained
  have hdelays := hi.delays
  have hphase := hi.phase
  have hpoll : ∀ {wt}, WaitPhase s.platform s.ph wt → 3025 ≤ s.world.tau ∧ s.world.tau ≤ 8195 := fun hw =>
    have ⟨hlo, hhi, _⟩ := hw.time_bounds hv hr hphase
    ⟨hlo, hhi⟩
  rw [hg.tau, hg.trace]
  generalize hp : s.ph = ph at he hpoll
  cases he with
  | wakeHeld | reqHeld =>
    simp only [timeOfPhase, hp] at hphase
    simp only [delaySum, List.cons_append, List.nil_append, delayCount_delay, delayCount_pinSet, hv.tWakeUs, hv.tReqUs]
    omega
  | pollDelayed hw =>
    obtain ⟨hlo, hhi⟩ := hpoll hw
    simp only [delaySum, List.cons_append, List.nil_append, delayCount_delay, delayCount_pinRead, hv.pollPeriodUs]
    omega
  | _ => simpa [delaySum] using hdelays

theorem EngineMove.keeps_timeInv (hv : R3Values s.platform) (hr : RegInv s) (hi : TimeInv s) (h : EngineMove s t) :
    TimeInv t where
  phase := h.keeps_timeOfPhase hv hr hi.phase
  sets := h.keeps_sets hi
  reads := h.keeps_reads hv hr hi
  delays := h.keeps_delays hv hr hi

end

/-- Time and the counts start at 0 when a READ is accepted. -/
theorem timeInv_acceptRead (v : Variant) (s : State) : TimeInv (acceptRead v s) := by
  constructor <;> simp [acceptRead, timeOfPhase]

/-- Settles O47: a move keeps the phase's bounds (`EngineMove.keeps_timeOfPhase`) and the counts
(`EngineMove.keeps_timeInv`), and an acceptance and a reset clear the record. -/
theorem everyStepKeepsNominalTimeInBounds : Obligations.EveryStepKeepsNominalTimeInBounds := fun s t hv hr hi h =>
  And.right <| And.right <| step_keeps (P := fun u => R3Values u.platform ∧ RegInv u ∧ TimeInv u) s t h
    (outside := fun _ _ _ _ => ⟨hv, hr.setWorld _, hi.phase, hi.sets, hi.reads, hi.delays⟩)
    (accepted := fun u v ⟨hvu, hu, _⟩ hp => ⟨hvu, hu.accepted hp v, timeInv_acceptRead v u⟩)
    (reset := fun u ⟨hvu, hu, _⟩ _ =>
      ⟨hvu, regInv_reset hu.config _, timeInv_reset u.platform u.world.newRead rfl rfl rfl rfl⟩)
    (moved := fun _ ⟨hvu, hu, hiu⟩ hm =>
      ⟨hm.platform_eq ▸ hvu, hm.keeps_regInv hu, hm.keeps_timeInv hvu hu hiu⟩)

end Machine
end Sys2Proof
end

