-- ==== Sys2Proof/Proofs/ResetAndHang.lean ====
section
/-! The reset step (70_reset_and_hazards.md R180, R182), and a read whose transaction is never answered (R192). -/

namespace Sys2Proof
namespace Machine

/-- Settles O17: the step is the host's reset (`step_host`), which `BUSY` refuses; else the registers are those of
`State.reset`, and what is outside SWSPE stays but for the record. -/
theorem resetStepGivesTheResetValues : Obligations.ResetStepGivesTheResetValues := by
  intro s rest hs
  refine ⟨fun hb => (step_host hs).trans (if_pos hb), fun hb => ?_⟩
  refine ⟨_, (step_host hs).trans (if_neg (by simp [hb])), ?_⟩
  simp [resetRegisters, State.reset, Frame.zero, statusWord, errCode]

section
variable {s : State}

/-- A pin phase is one of a read in progress, with the guard held. -/
theorem guardHeld_of_usesPin {ph : Phase} (h : usesPin ph = true) : ph ≠ .idle ∧ guardHeld ph = true := by
  cases ph <;> simp_all [usesPin, guardHeld]

/-- The engine's turn of a pin phase with no answer left changes nothing, whatever the selector gives. -/
theorem engineTurn_of_hung (hp : usesPin s.ph = true) (h : s.world.answers = some 0) : engineTurn s = .next s := by
  unfold engineTurn
  split
  · exact runMicroOp_of_hung _ hp h
  · rfl

/-- A state that a step leaves as it is stays for any number of steps. -/
theorem run_of_step_self (h : step s = .next s) (n : Nat) : core.run n s = .next s := by
  induction n with
  | zero => rfl
  | succ n ih => exact (run_succ_of_next h n).trans ih

end

/-- Settles O9: the engine, alone, waits in its pin phase (`engineTurn_of_hung`), where the register invariant has `BUSY`
set and the guard held. -/
theorem unansweredTransactionHangsTheRead : Obligations.UnansweredTransactionHangsTheRead := by
  intro s n hi ha h hp
  obtain ⟨hidle, hguard⟩ := guardHeld_of_usesPin hp
  exact ⟨run_of_step_self ((step_of_engineAlone ha).trans (engineTurn_of_hung hp h)) n, hi.busy.mpr hidle,
    hi.guard.trans hguard⟩

end Machine
end Sys2Proof
end
